-- ==== Sys2Proof/Word.lean ====
section
/-! DEFINITION. The value types a register can hold (spec 10_state.md R16 to R18): words, bit-strings, bytes, text,
BitVector values and code tables, over any type `CHAR` of symbols (R6). -/

namespace Sys2Proof

/-- A 32-bit word: a command word or the status word (R11). -/
abbrev Word32 := BitVec 32

/-- A register id, 0x00 to 0xFF (R21). -/
abbrev RegId := BitVec 8

/-- A bit-string, most significant (first) bit at the head (R10, R36); `true` is the bit 1. -/
abbrev Bits := List Bool

/-- A byte, 0 to 255 (R11). -/
abbrev Byte := BitVec 8

/-- A byte sequence (R16). -/
abbrev Bytes := List Byte

/-- Text: a finite sequence of `CHAR` (R11, R16). `CHAR` is a type argument (R6); where none is written it is Lean's
`Char`, which the host's interface takes (notes/assumptions/7.md). -/
abbrev Text (CHAR : Type := Char) := List CHAR

/-- A BitVector value (R17): its declared logical width and its rendering. -/
structure BitVector where
  size : Nat
  rep : Bits
  deriving DecidableEq, Repr

/-- A code table (R18): its declared width, if it has one, and its entries in order. -/
structure CodeTable (CHAR : Type := Char) where
  codeWidth : Option Nat
  entries : List (CHAR × BitVector)
  deriving DecidableEq, Repr

/-- A whole value of some register (R16), as the host moves it (R42). -/
inductive RegValue (CHAR : Type := Char) where
  | word (w : Word32)
  | nat (n : Nat)
  | bits (b : Bits)
  | bytes (b : Bytes)
  | text (t : Text CHAR)
  | bitVector (x : BitVector)
  | codeTable (t : CodeTable CHAR)
  deriving DecidableEq, Repr

end Sys2Proof
end

