-- ==== Sys2Proof/Config.lean ====
section
/-! DEFINITION. The instance's configuration (spec 00_scope.md R6 to R8, 70_reset_and_hazards.md R156) and the free
values. -/

namespace Sys2Proof

/-- R6: the characters that a type `CHAR` must contain: the ten decimal digits (`'0'` and `'1'` among them), `':'`, newline
and the letters of `size`, all different. Nothing else is asked of `CHAR` but decidable equality. -/
structure CharSet (CHAR : Type) where
  digit : Fin 10 → CHAR
  colon : CHAR
  newline : CHAR
  letterS : CHAR
  letterI : CHAR
  letterZ : CHAR
  letterE : CHAR
  distinct : (List.ofFn digit ++ [colon, newline, letterS, letterI, letterZ, letterE]).Nodup

/-- The characters of R6 in Lean's `Char` (notes/assumptions/7.md). -/
def charSet : CharSet Char where
  digit d := Char.ofNat (48 + d)
  colon := ':'
  newline := '\n'
  letterS := 's'
  letterI := 'i'
  letterZ := 'z'
  letterE := 'e'
  distinct := by decide

/-- The parameter `TIE_ORDER` (R7): `Oracle`'s permutation is not stored, it is drawn per command (`Config.oracleKey`). -/
inductive TieOrder where
  | firstOccurrence
  | oracle
  deriving DecidableEq, Repr

/-- What is fixed for an instance. The bounds `MAX_SEQ` and `MAX_NAT` (R8) are `none` for no bound (the spec's ∞). -/
structure Params where
  tieOrder : TieOrder
  maxSeq : Option Nat
  maxNat : Option Nat
  deriving DecidableEq, Repr

/-- The spec's own setting: `FirstOccurrence` is R7's default, and R8 says `MAX_SEQ = MAX_NAT = ∞`. -/
def Params.default : Params := { tieOrder := .firstOccurrence, maxSeq := none, maxNat := none }

/-- The parameters bound nothing (R8, the spec's own setting), with either tie order. -/
abbrev Params.Unbounded (p : Params) : Prop := p.maxSeq = none ∧ p.maxNat = none

/-- FREE VALUE (R7, R93, I1; notes/assumptions/2.md): the rank the `Oracle` gives a symbol among symbols of equal count,
in the draw numbered by the first argument. Any permutation of a run of equal counts is the order of some ranks. -/
opaque Config.oracleKey {CHAR : Type} : Nat → CHAR → Nat

/-- FREE VALUE (I17; notes/assumptions/6.md): what the read with this number of an id that names no register returns. -/
opaque Config.unnamedRead {CHAR : Type} : Nat → RegId → Option (RegValue CHAR)

end Sys2Proof
end

