-- ==== Sys2Proof/Machine/Bits.lean ====
section
/-! DEFINITION. The numeric primitives on bit-strings (spec 00_scope.md R10 to R12). -/

namespace Sys2Proof.Machine

variable {CHAR : Type}

/-- R12: `val(s) = Σ s[i]·2^(|s|-1-i)`, and `val(ε) = 0`. -/
def val : Bits → Nat
  | [] => 0
  | b :: s => b.toNat * 2 ^ s.length + val s

/-- The low `w` bits of `v`, most significant first. -/
def bitsOf : Nat → Nat → Bits
  | 0, _ => []
  | w + 1, v => v.testBit w :: bitsOf w v

/-- R12: `|bin(v)| = max(1, ⌊log2 v⌋ + 1)`, the source's `bitLength`. -/
def bitLength (v : Nat) : Nat := if v = 0 then 1 else Nat.log2 v + 1

/-- R12: the binary numeral of `v`; `bin(0)` is the one bit 0 (D9). -/
def bin (v : Nat) : Bits := bitsOf (bitLength v) v

/-- R12: zeros on the most significant side up to `n` bits; never truncates. -/
def pad (n : Nat) (s : Bits) : Bits := List.replicate (n - s.length) false ++ s

/-- R12: the least `w` with `2^w ≥ n`; `ceilLog2(0) = 0` (D10). -/
def ceilLog2 (n : Nat) : Nat := if n ≤ 1 then 0 else Nat.log2 (n - 1) + 1

/-- The decimal digits of `v`, given at least `v + 1` of fuel. -/
def decDigits (C : CharSet CHAR) : Nat → Nat → Text CHAR
  | 0, _ => []
  | f + 1, v => if v < 10 then [C.digit (Fin.ofNat 10 v)] else decDigits C f (v / 10) ++ [C.digit (Fin.ofNat 10 v)]

/-- R12: the decimal numeral of `v`, with no leading zero except for 0 itself (G2). -/
def dec (C : CharSet CHAR) (v : Nat) : Text CHAR := decDigits C (v + 1) v

/-- The digit a character is, if it is one. -/
def digitOf [DecidableEq CHAR] (C : CharSet CHAR) (c : CHAR) : Option (Fin 10) :=
  (List.finRange 10).find? fun d => C.digit d = c

/-- R104: a character in `'0'..'9'`. -/
def isDecDigit [DecidableEq CHAR] (C : CharSet CHAR) (c : CHAR) : Bool := (digitOf C c).isSome

/-- R104: the decimal value of a text of digits, the inverse of `dec` (G2). -/
def decValue [DecidableEq CHAR] (C : CharSet CHAR) (t : Text CHAR) : Nat :=
  t.foldl (fun n c => 10 * n + ((digitOf C c).map Fin.val).getD 0) 0

/-- R11: `chars(s)` writes 0 as `'0'` and 1 as `'1'`. -/
def charOfBit (C : CharSet CHAR) (b : Bool) : CHAR := if b then C.digit 1 else C.digit 0

/-- R11. -/
def chars (C : CharSet CHAR) (s : Bits) : Text CHAR := s.map (charOfBit C)

/-- R66: the characters a bit-string literal may hold. -/
def isBitChar [DecidableEq CHAR] (C : CharSet CHAR) (c : CHAR) : Bool := c = C.digit 0 || c = C.digit 1

/-- R66: `bits[i] = 1` iff `s[i] = '1'`. -/
def bitsOfChars [DecidableEq CHAR] (C : CharSet CHAR) (t : Text CHAR) : Bits := t.map fun c => c = C.digit 1

end Sys2Proof.Machine
end

