-- ==== Sys2Proof/Machine/State.lean ====
section
/-! DEFINITION. The machine's state (spec 10_state.md R15, R19 to R23), its reset (R31), the reasons a step can stop, and
the data the host interface is made of (R24, 30_encoding.md R62). -/

namespace Sys2Proof.Machine

/-- The registers of R21's id table, with `CMD` (id 0x00) and `STATUS` (id 0x01). -/
inductive RegName where
  | cmd
  | status
  | aSize
  | aInt
  | aStr
  | aBits
  | aBytes
  | aText
  | bv
  | tbl
  | rInt
  | rBits
  | rBytes
  | rText
  | rStr
  deriving DecidableEq, Repr

/-- The errors of 60_exceptions.md R131. A command that raises one still answers a NEXT state (R140). Their `info`
arguments are not architectural (R130) and are left out. -/
inductive ErrorCode where
  | malformedBitLiteral
  | unknownSymbol
  | corruptFrame
  | corruptCodeTable
  | unrepresentableCode
  | illegalCommand
  | operandUnset
  deriving DecidableEq, Repr

/-- One action of the host (R24, R62, R154). -/
inductive HostAction (CHAR : Type := Char) where
  /-- `SET <reg>, <value>`, and for the id 0x00 a write of `CMD`: a command -/
  | write (id : RegId) (v : RegValue CHAR)
  /-- `READ <reg>` -/
  | read (id : RegId)
  /-- the reset event -/
  | reset
  deriving DecidableEq, Repr

/-- What a host read returned: the id read, and the value, `none` for `unset` (R23). -/
structure HostRead (CHAR : Type := Char) where
  id : RegId
  value : Option (RegValue CHAR)
  deriving DecidableEq, Repr

/-- What a command has staged and not yet written (R13): a value for each result register it writes. -/
structure Results (CHAR : Type := Char) where
  bv : Option BitVector := none
  tbl : Option (CodeTable CHAR) := none
  rInt : Option Nat := none
  rBits : Option Bits := none
  rBytes : Option Bytes := none
  rText : Option (Text CHAR) := none
  rStr : Option (Text CHAR) := none
  deriving DecidableEq, Repr

/-- The state: R15's tuple, where `none` in a value register is the spec's `unset` (R21), then four fields that are the
model's own (notes/assumptions/1.md, 4.md, 5.md, 6.md). The type of symbols is an argument (R6, R15); `State` alone is
the state over Lean's `Char`. -/
structure State (CHAR : Type := Char) where
  cmd : Word32
  status : Word32
  aSize : Option Nat
  aInt : Option Nat
  aStr : Option (Text CHAR)
  aBits : Option Bits
  aBytes : Option Bytes
  aText : Option (Text CHAR)
  bv : Option BitVector
  tbl : Option (CodeTable CHAR)
  rInt : Option Nat
  rBits : Option Bits
  rBytes : Option Bytes
  rText : Option (Text CHAR)
  rStr : Option (Text CHAR)
  /-- the instance's configuration (R15: a parameter of the step); no step changes it -/
  params : Params
  /-- the host's actions still to be carried out, in order (R44) -/
  pending : List (HostAction CHAR)
  /-- what the host's last read returned -/
  readOut : Option (HostRead CHAR)
  /-- how many host actions have been carried out: the index of the free values -/
  hostActs : Nat
  deriving DecidableEq, Repr

/-- R129: the hardware has no traps, and R50 and R131 give every word and every failure a defined outcome in `STATUS`, so
no step faults and this type has no constructor. -/
inductive Fault where
  deriving DecidableEq, Repr

/-- Why a step gives no next state. -/
inductive Refusal where
  /-- Raised by `exec` for an instruction that has no meaning yet; no arm raises it now. Safe. -/
  | notModelled (mnemonic : String)
  /-- Raised by any command of an instance with finite `MAX_SEQ` or `MAX_NAT` whose operands or results exceed them: R8
  asks a model to refuse there. It never happens with the spec's own unbounded parameters. Safe. -/
  | exceedsBounds
  /-- Raised by a host write of a value of another type than the register's, which is no action of the spec's host (R22:
  "any value of the register's type"). Safe. -/
  | illTypedHostWrite (id : RegId)
  deriving DecidableEq, Repr

/-- R31: `CMD` and `STATUS` are 0 and every value register is unset. The configuration has the spec's own defaults, and
the host has not acted yet. -/
def State.initial {CHAR : Type} : State CHAR where
  cmd := 0
  status := 0
  aSize := none
  aInt := none
  aStr := none
  aBits := none
  aBytes := none
  aText := none
  bv := none
  tbl := none
  rInt := none
  rBits := none
  rBytes := none
  rText := none
  rStr := none
  params := Params.default
  pending := []
  readOut := none
  hostActs := 0

/-- The machine right after reset (R31), over the host interface's type of symbols. -/
def State.reset : State := State.initial

end Sys2Proof.Machine
end

