-- ==== Sys2Proof/Syntax.lean ====
section
/-! DEFINITION. The 17 commands of spec/opcode_table.json (spec 30_encoding.md R51), one constructor a row, in the
table's order. A command word encodes no operand (R54), so no constructor has a field. -/

namespace Sys2Proof

/-- The commands of R51. -/
inductive Instr where
  | bvFromStr
  | bvFromInt
  | bvToStr
  | bvToInt
  | frmPack
  | frmUnpack
  | tblBuildFw
  | tblBuildHuf
  | tblBuildLzw
  | tblSave
  | tblLoad
  | fwEncode
  | fwDecode
  | hufEncode
  | hufDecode
  | lzwEncode
  | lzwDecode
  deriving DecidableEq, Repr

end Sys2Proof
end

