-- ==== Sys2Proof/WellFormed.lean ====
section
/-! DEFINITION. Which command words are well formed (spec 30_encoding.md R49, R52). An `Instr` has no operand (R54), so
every `Instr` is well formed as it stands; what can be ill formed is a WORD. The two checks below are written from R52's
list of the illegal encodings, not from R51's list of the legal ones, so that `decode` (written from R51) can be held
against them. -/

namespace Sys2Proof

/-- The field `OPC`, bits 7:0 (R49). -/
def opcField (w : Word32) : BitVec 8 := w.extractLsb' 0 8

/-- The field `RSV`, bits 31:8 (R49). -/
def rsvField (w : Word32) : BitVec 24 := w.extractLsb' 8 24

/-- R52: every word with `RSV ≠ 0` is illegal. -/
def reservedClear (w : Word32) : Bool := rsvField w == 0

/-- R52's list of the opcodes that name no command, as ranges from the first to the last. -/
def unassignedRanges : List (Nat × Nat) :=
  [(0x00, 0x00), (0x05, 0x0F), (0x12, 0x1F), (0x23, 0x27), (0x2A, 0x2F), (0x32, 0x3F), (0x42, 0x4F), (0x52, 0xFF)]

/-- R52: the opcode lies in none of the unassigned ranges. -/
def opcodeAssigned (opc : BitVec 8) : Bool :=
  unassignedRanges.all fun r => !(r.1 ≤ opc.toNat && opc.toNat ≤ r.2)

/-- A well-formed command word: no check of R52 calls it illegal. -/
def wellFormedWord (w : Word32) : Bool := reservedClear w && opcodeAssigned (opcField w)

end Sys2Proof
end

