-- ==== Sys2Proof/Machine/Flags.lean ====
section
/-! DEFINITION. The status word (spec 10_state.md R20, R28) and the error codes (60_exceptions.md R131). There are no
arithmetic flags (R28). -/

namespace Sys2Proof.Machine

/-- R131, column `ERR`. -/
def ErrorCode.code : ErrorCode → BitVec 4
  | .malformedBitLiteral => 1
  | .unknownSymbol => 2
  | .corruptFrame => 3
  | .corruptCodeTable => 4
  | .unrepresentableCode => 5
  | .illegalCommand => 6
  | .operandUnset => 7

/-- R20: reserved 31:17, `DONE` 16, `LASTOP` 15:8, reserved 7:4, `ERR` 3:0, as they stand after a command. -/
def statusWord (err : BitVec 4) (lastop : BitVec 8) : Word32 :=
  (0 : BitVec 15) ++ (1 : BitVec 1) ++ lastop ++ (0 : BitVec 4) ++ err

/-- `STATUS.ERR`, bits 3:0 (R20). -/
def errField (w : Word32) : BitVec 4 := w.extractLsb' 0 4

/-- `STATUS` bits 7:4, reserved (R20). -/
def statusLowReserved (w : Word32) : BitVec 4 := w.extractLsb' 4 4

/-- `STATUS.LASTOP`, bits 15:8 (R20). -/
def lastopField (w : Word32) : BitVec 8 := w.extractLsb' 8 8

/-- `STATUS.DONE`, bit 16 (R20). -/
def doneField (w : Word32) : BitVec 1 := w.extractLsb' 16 1

/-- `STATUS` bits 31:17, reserved (R20). -/
def statusHighReserved (w : Word32) : BitVec 15 := w.extractLsb' 17 15

end Sys2Proof.Machine
end

