-- ==== Sys2Proof/Machine/Operands.lean ====
section
/-! DEFINITION. The operands of a command: the register-id table (spec 10_state.md R21), which registers each command
reads and writes (30_encoding.md R51, R54), reading an operand (00_scope.md R13), and the bounds of a bounded instance
(R8). -/

namespace Sys2Proof.Machine

variable {CHAR : Type}

/-- R21: the register an id names; 0x0F to 0xFF name none. -/
def RegName.ofId (id : RegId) : Option RegName :=
  [RegName.cmd, .status, .aSize, .aInt, .aStr, .aBits, .aBytes, .aText, .bv, .tbl, .rInt, .rBits, .rBytes, .rText,
    .rStr][id.toNat]?

/-- R21: the id of a register. -/
def RegName.id : RegName → RegId
  | .cmd => 0x00
  | .status => 0x01
  | .aSize => 0x02
  | .aInt => 0x03
  | .aStr => 0x04
  | .aBits => 0x05
  | .aBytes => 0x06
  | .aText => 0x07
  | .bv => 0x08
  | .tbl => 0x09
  | .rInt => 0x0A
  | .rBits => 0x0B
  | .rBytes => 0x0C
  | .rText => 0x0D
  | .rStr => 0x0E

/-- R22, R24: the registers a host write sets, with `CMD`, whose write is a command (R19). -/
def hostWritable : RegName → Bool
  | .cmd | .aSize | .aInt | .aStr | .aBits | .aBytes | .aText => true
  | .status | .bv | .tbl | .rInt | .rBits | .rBytes | .rText | .rStr => false

/-- R19, R20, R21 (column type): the value has the register's type. -/
def hasRegType : RegName → RegValue CHAR → Bool
  | .cmd, .word _ | .status, .word _ => true
  | .aSize, .nat _ | .aInt, .nat _ | .rInt, .nat _ => true
  | .aBits, .bits _ | .rBits, .bits _ => true
  | .aBytes, .bytes _ | .rBytes, .bytes _ => true
  | .aStr, .text _ | .aText, .text _ | .rText, .text _ | .rStr, .text _ => true
  | .bv, .bitVector _ => true
  | .tbl, .codeTable _ => true
  | _, _ => false

/-- R22: an action of the spec's host: a write of a register it may write has a value of that register's type. -/
def actionWellTyped : HostAction CHAR → Bool
  | .write id v =>
    match RegName.ofId id with
    | some r => !hostWritable r || hasRegType r v
    | none => true
  | .read _ => true
  | .reset => true

/-- The value of a register, `none` for unset (R21). -/
def State.read (s : State CHAR) : RegName → Option (RegValue CHAR)
  | .cmd => some (.word s.cmd)
  | .status => some (.word s.status)
  | .aSize => s.aSize.map .nat
  | .aInt => s.aInt.map .nat
  | .aStr => s.aStr.map .text
  | .aBits => s.aBits.map .bits
  | .aBytes => s.aBytes.map .bytes
  | .aText => s.aText.map .text
  | .bv => s.bv.map .bitVector
  | .tbl => s.tbl.map .codeTable
  | .rInt => s.rInt.map .nat
  | .rBits => s.rBits.map .bits
  | .rBytes => s.rBytes.map .bytes
  | .rText => s.rText.map .text
  | .rStr => s.rStr.map .text

/-- R51, column reads, in the order of the command's rule (R142). -/
def readsOf : Instr → List RegName
  | .bvFromStr => [.aSize, .aStr]
  | .bvFromInt => [.aSize, .aInt]
  | .bvToStr => [.bv]
  | .bvToInt => [.bv]
  | .frmPack => [.aBits]
  | .frmUnpack => [.aBytes]
  | .tblBuildFw => [.aText]
  | .tblBuildHuf => [.aText]
  | .tblBuildLzw => [.aText]
  | .tblSave => [.tbl]
  | .tblLoad => [.aStr]
  | .fwEncode => [.tbl, .aText]
  | .fwDecode => [.tbl, .aBytes]
  | .hufEncode => [.tbl, .aText]
  | .hufDecode => [.tbl, .aBytes]
  | .lzwEncode => [.tbl, .aText]
  | .lzwDecode => [.tbl, .aBytes]

/-- R51, column writes. -/
def writesOf : Instr → List RegName
  | .bvFromStr => [.bv]
  | .bvFromInt => [.bv]
  | .bvToStr => [.rBits]
  | .bvToInt => [.rInt]
  | .frmPack => [.rBytes]
  | .frmUnpack => [.rBits]
  | .tblBuildFw => [.tbl]
  | .tblBuildHuf => [.tbl]
  | .tblBuildLzw => [.tbl]
  | .tblSave => [.rStr]
  | .tblLoad => [.tbl]
  | .fwEncode => [.rBits, .rBytes]
  | .fwDecode => [.rBits, .rText]
  | .hufEncode => [.rBits, .rBytes]
  | .hufDecode => [.rBits, .rText]
  | .lzwEncode => [.rBits, .rBytes]
  | .lzwDecode => [.rBits, .rText]

/-- R13: `R[X]` reads register `X`, and raises OperandUnset if it is unset (R139). -/
def readOperand {α : Type} : Option α → Except ErrorCode α
  | some v => .ok v
  | none => .error .operandUnset

/-- R8: a natural within `MAX_NAT`. -/
def natFits (p : Params) (n : Nat) : Bool := p.maxNat.all (n ≤ ·)

/-- R8: a sequence length within `MAX_SEQ`. -/
def seqFits (p : Params) (len : Nat) : Bool := p.maxSeq.all (len ≤ ·)

/-- R8, for the parts of a BitVector (notes/assumptions/3.md). -/
def bitVectorFits (p : Params) (x : BitVector) : Bool := natFits p x.size && seqFits p x.rep.length

/-- R8, for the parts of a table (notes/assumptions/3.md). -/
def tableFits (p : Params) (t : CodeTable CHAR) : Bool :=
  t.codeWidth.all (natFits p) && seqFits p t.entries.length && t.entries.all (fun e => bitVectorFits p e.2)

/-- R8, for a whole register value. -/
def valueFits (p : Params) : RegValue CHAR → Bool
  | .word _ => true
  | .nat n => natFits p n
  | .bits b => seqFits p b.length
  | .bytes b => seqFits p b.length
  | .text t => seqFits p t.length
  | .bitVector x => bitVectorFits p x
  | .codeTable t => tableFits p t

/-- R8: no operand of the command exceeds the bounds. -/
def operandsFit (i : Instr) (s : State CHAR) : Bool := (readsOf i).all fun r => (s.read r).all (valueFits s.params)

/-- R8: no staged result exceeds the bounds. -/
def resultsFit (p : Params) (out : Results CHAR) : Bool :=
  out.bv.all (bitVectorFits p) && out.tbl.all (tableFits p) && out.rInt.all (natFits p) &&
    out.rBits.all (fun b => seqFits p b.length) && out.rBytes.all (fun b => seqFits p b.length) &&
    out.rText.all (fun t => seqFits p t.length) && out.rStr.all (fun t => seqFits p t.length)

end Sys2Proof.Machine
end

