-- ==== Sys2Proof/Machine/Ops.lean ====
section
/-! DEFINITION. The named operations over the state: completing a command with or without an error (spec
60_exceptions.md R140, R141), the host's register accesses (10_state.md R22 to R24), reset (70_reset_and_hazards.md R154)
and the tie draw (00_scope.md R7). There is no trap to enter and none to return from (R146, R147): `State.raise` is the
whole of what an error does. -/

namespace Sys2Proof.Machine

variable {CHAR : Type}

/-- R28: every command writes `ERR`, `LASTOP` (from `CMD[7:0]`) and `DONE`. -/
def State.setStatus (s : State CHAR) (err : BitVec 4) : State CHAR := { s with status := statusWord err (opcField s.cmd) }

/-- R140: a command that raises `e` changes `STATUS` and nothing else. -/
def State.raise (s : State CHAR) (e : ErrorCode) : State CHAR := s.setStatus e.code

/-- R141: every result register the command staged takes its value; no other register changes. -/
def State.commit (s : State CHAR) (out : Results CHAR) : State CHAR :=
  { s with
    bv := out.bv.or s.bv
    tbl := out.tbl.or s.tbl
    rInt := out.rInt.or s.rInt
    rBits := out.rBits.or s.rBits
    rBytes := out.rBytes.or s.rBytes
    rText := out.rText.or s.rText
    rStr := out.rStr.or s.rStr }

/-- R141: success writes the results and `ERR = 0`. -/
def State.succeed (s : State CHAR) (out : Results CHAR) : State CHAR := (s.commit out).setStatus 0

/-- The end of a command: what it computed is `r`. A bounded instance gives no result to a command whose operands or
results exceed its bounds (R8). -/
def complete (i : Instr) (s : State CHAR) (r : Except ErrorCode (Results CHAR)) : Host.Outcome (State CHAR) Fault Refusal :=
  if operandsFit i s then
    match r with
    | .error e => .next (s.raise e)
    | .ok out => if resultsFit s.params out then .next (s.succeed out) else .refused .exceedsBounds
  else .refused .exceedsBounds

/-- R7, R93: the key that orders symbols of equal count. Under `FirstOccurrence` all keys are equal, so that a stable sort
keeps first-occurrence order; under `Oracle` one draw holds for one command (R156), and commands have different numbers. -/
def State.tieKey (s : State CHAR) : CHAR → Nat :=
  match s.params.tieOrder with
  | .firstOccurrence => fun _ => 0
  | .oracle => Config.oracleKey s.hostActs

/-- R19: the host writes `CMD`. -/
def State.setCmd (s : State CHAR) (w : Word32) : State CHAR := { s with cmd := w }

/-- The host's next action is taken from the list (R44). -/
def State.takeAction (s : State CHAR) (rest : List (HostAction CHAR)) : State CHAR :=
  { s with pending := rest, hostActs := s.hostActs + 1 }

/-- A value of type Nat. -/
def valueAsNat : RegValue CHAR → Option Nat
  | .nat n => some n
  | _ => none

/-- A value of type Bits. -/
def valueAsBits : RegValue CHAR → Option Bits
  | .bits b => some b
  | _ => none

/-- A value of type Bytes. -/
def valueAsBytes : RegValue CHAR → Option Bytes
  | .bytes b => some b
  | _ => none

/-- A value of type Text. -/
def valueAsText : RegValue CHAR → Option (Text CHAR)
  | .text t => some t
  | _ => none

/-- A 32-bit word. -/
def valueAsWord : RegValue CHAR → Option Word32
  | .word w => some w
  | _ => none

/-- R22, R23: a host write of a register other than `CMD`. An `A_*` register takes the value, if it has the register's
type (`none` if not); `STATUS` (R20) and the result registers (R23) ignore the write. -/
def State.hostSet (s : State CHAR) (r : RegName) (v : RegValue CHAR) : Option (State CHAR) :=
  match r with
  | .aSize => (valueAsNat v).map fun n => { s with aSize := some n }
  | .aInt => (valueAsNat v).map fun n => { s with aInt := some n }
  | .aStr => (valueAsText v).map fun t => { s with aStr := some t }
  | .aBits => (valueAsBits v).map fun b => { s with aBits := some b }
  | .aBytes => (valueAsBytes v).map fun b => { s with aBytes := some b }
  | .aText => (valueAsText v).map fun t => { s with aText := some t }
  | .cmd | .status | .bv | .tbl | .rInt | .rBits | .rBytes | .rText | .rStr => some s

/-- What a host read of an id returns (R23, R24); a free value for an id that names no register (I17). -/
def State.readId (s : State CHAR) (id : RegId) : Option (RegValue CHAR) :=
  match RegName.ofId id with
  | some r => s.read r
  | none => Config.unnamedRead s.hostActs id

/-- A host read (R24): the host gets the value, and no register changes. -/
def State.hostRead (s : State CHAR) (id : RegId) : State CHAR := { s with readOut := some { id := id, value := s.readId id } }

/-- R154: reset sets every register to its value of R31. The configuration (R156) and what belongs to the host stay. -/
def State.resetRegisters (s : State CHAR) : State CHAR :=
  { State.initial with params := s.params, pending := s.pending, readOut := s.readOut, hostActs := s.hostActs }

end Sys2Proof.Machine
end

