-- ==== Sys2Proof/Machine/BitVectorUnit.lean ====
section
/-! DEFINITION. The BitVector unit (spec 40_bitvector.md R66 to R76): construction, the two views, their laws,
and the commands BV_FROM_STR, BV_FROM_INT, BV_TO_STR, BV_TO_INT. -/

namespace Sys2Proof.Machine

variable {CHAR : Type}

/-- The BitVector of a declared width and a source bit-string: padded, never truncated (R66, R75). -/
def bvOfBits (size : Nat) (s : Bits) : BitVector := { size := size, rep := pad size s }

/-- R66: construction from a literal, which must hold only `'0'` and `'1'`. -/
def bvFromString [DecidableEq CHAR] (C : CharSet CHAR) (size : Nat) (s : Text CHAR) : Except ErrorCode BitVector :=
  if s.all (isBitChar C) then .ok (bvOfBits size (bitsOfChars C s)) else .error .malformedBitLiteral

/-- R67: construction from a natural. -/
def bvFromInt (size v : Nat) : BitVector := bvOfBits size (bin v)

/-- R68. -/
def toBitString (x : BitVector) : Bits := x.rep

/-- R69. -/
def toInteger (x : BitVector) : Nat := val x.rep

/-- R76, its four laws, in its order; in law 2 the BitVectors are those of R17. They hold (`bitVectorLaws` in
Laws/Bits.lean). -/
def BitVectorLaws [DecidableEq CHAR] (C : CharSet CHAR) : Prop :=
  (∀ n v, toInteger (bvFromInt n v) = v) ∧
  (∀ n (x : BitVector), x.size ≤ x.rep.length → x.size = n → bvFromString C n (chars C (toBitString x)) = .ok x) ∧
  (∀ n (s : Text CHAR), (∀ c ∈ s, isBitChar C c = true) →
    (bvFromString C n s).map toInteger = .ok (val (bitsOfChars C s))) ∧
  ∀ n v, (bvFromString C n (chars C (bin v))).map toBitString = .ok (toBitString (bvFromInt n v))

/-! What each command computes is a function of its operands alone (R76, last sentence). -/

/-- R70, R76: what BV_FROM_STR computes from `A_SIZE` and `A_STR`. -/
def bvFromStrResult [DecidableEq CHAR] (C : CharSet CHAR) (aSize : Option Nat) (aStr : Option (Text CHAR)) :
    Except ErrorCode (Results CHAR) := do
  let n ← readOperand aSize
  let t ← readOperand aStr
  let x ← bvFromString C n t
  return { bv := some x }

/-- R71, R76: what BV_FROM_INT computes from `A_SIZE` and `A_INT`. -/
def bvFromIntResult (aSize aInt : Option Nat) : Except ErrorCode (Results CHAR) := do
  let n ← readOperand aSize
  let v ← readOperand aInt
  return { bv := some (bvFromInt n v) }

/-- R72, R76: what BV_TO_STR computes from `BV`. -/
def bvToStrResult (bv : Option BitVector) : Except ErrorCode (Results CHAR) := do
  let x ← readOperand bv
  return { rBits := some (toBitString x) }

/-- R73, R76: what BV_TO_INT computes from `BV`. -/
def bvToIntResult (bv : Option BitVector) : Except ErrorCode (Results CHAR) := do
  let x ← readOperand bv
  return { rInt := some (toInteger x) }

/-- BV_FROM_STR (R70) over any `CHAR` (R6). -/
def bvFromStrWith [DecidableEq CHAR] (C : CharSet CHAR) (s : State CHAR) : Host.Outcome (State CHAR) Fault Refusal :=
  complete .bvFromStr s (bvFromStrResult C s.aSize s.aStr)

/-- BV_FROM_STR (R70). -/
def execBvFromStr (s : State) : Host.Outcome State Fault Refusal := bvFromStrWith charSet s

/-- BV_FROM_INT (R71). -/
def execBvFromInt (s : State CHAR) : Host.Outcome (State CHAR) Fault Refusal :=
  complete .bvFromInt s (bvFromIntResult s.aSize s.aInt)

/-- BV_TO_STR (R72). -/
def execBvToStr (s : State CHAR) : Host.Outcome (State CHAR) Fault Refusal :=
  complete .bvToStr s (bvToStrResult s.bv)

/-- BV_TO_INT (R73). -/
def execBvToInt (s : State CHAR) : Host.Outcome (State CHAR) Fault Refusal :=
  complete .bvToInt s (bvToIntResult s.bv)

end Sys2Proof.Machine
end

