-- ==== Sys2Proof/Machine/ByteFramer.lean ====
section
/-! DEFINITION. The ByteFramer unit (spec 41_byteframer.md R77 to R81, frame layout 30_encoding.md R56): `pack`, `unpack`
and the commands FRM_PACK and FRM_UNPACK. -/

namespace Sys2Proof.Machine

variable {CHAR : Type}

/-- The byte of a group of at most 8 bits: its value as a BitVector of that width (R78, 20_memory.md R37, R38). -/
def byteOfGroup (width : Nat) (g : Bits) : Byte := BitVec.ofNat 8 (toInteger (bvOfBits width g))

/-- The bytes of the first `g` groups of 8 bits (R78's loop). -/
def fullBytes : Nat → Bits → Bytes
  | 0, _ => []
  | g + 1, b => byteOfGroup 8 (b.take 8) :: fullBytes g (b.drop 8)

/-- R78: the tail length, the full groups, and the final partial byte if there is a tail. -/
def pack (b : Bits) : Bytes :=
  let tail := b.length % 8
  let groups := b.length / 8
  BitVec.ofNat 8 tail :: fullBytes groups b ++ (if tail > 0 then [byteOfGroup tail (b.drop (8 * groups))] else [])

/-- The rendering of a byte at a width: longer than the width if the byte's value needs more bits (R79, R75). -/
def byteBits (width : Nat) (x : Byte) : Bits := toBitString (bvFromInt width x.toNat)

/-- R77: the well-formed frames. -/
def wellFormedFrame : Bytes → Bool
  | [] => false
  | t :: rest => t.toNat ≤ 7 && (t.toNat == 0 || 1 ≤ rest.length)

/-- R79, with its checks in the order written: empty, tail out of range, no final byte. -/
def unpack : Bytes → Except ErrorCode Bits
  | [] => .error .corruptFrame
  | t :: rest =>
    if t.toNat > 7 then .error .corruptFrame
    else if t.toNat > 0 then
      match rest.getLast? with
      | none => .error .corruptFrame
      | some last => .ok (rest.dropLast.flatMap (byteBits 8) ++ byteBits t.toNat last)
    else .ok (rest.flatMap (byteBits 8))

/-- FRM_PACK (R80). -/
def execFrmPack (s : State CHAR) : Host.Outcome (State CHAR) Fault Refusal :=
  complete .frmPack s do
    let b ← readOperand s.aBits
    return { rBytes := some (pack b) }

/-- FRM_UNPACK (R81). -/
def execFrmUnpack (s : State CHAR) : Host.Outcome (State CHAR) Fault Refusal :=
  complete .frmUnpack s do
    let f ← readOperand s.aBytes
    let b ← unpack f
    return { rBits := some b }

end Sys2Proof.Machine
end

