-- ==== Sys2Proof/Machine/CodeTable.lean ====
section
/-! DEFINITION. The views of a code table (spec 42_codetable.md R84 to R90), the frequency model (R91 to R93), the
fixed-width strategy (R94) and the commands TBL_BUILD_FW and TBL_BUILD_LZW (R99, R101). -/

namespace Sys2Proof.Machine

variable {CHAR : Type}

/-- R84: `code(T, c)`, none when no entry has the symbol `c`. -/
def code [DecidableEq CHAR] (t : CodeTable CHAR) (c : CHAR) : Option BitVector := t.entries.lookup c

/-- R84: `c ∈ symbols(T)`. -/
def hasSymbol [DecidableEq CHAR] (t : CodeTable CHAR) (c : CHAR) : Bool := (code t c).isSome

/-- `code(T, c).rep`; the empty bit-string where `code` is undefined, which every use excludes first (R107). -/
def codeRep [DecidableEq CHAR] (t : CodeTable CHAR) (c : CHAR) : Bits := ((code t c).map toBitString).getD []

/-- R85: the symbol bound to a bit-string; a later entry replaces an earlier one with the same `rep`. -/
def invBits (t : CodeTable CHAR) (b : Bits) : Option CHAR := (t.entries.reverse.find? (fun e => e.2.rep == b)).map (·.1)

/-- R86: the map from code numbers to text, later entries first, so that a lookup meets the entry that replaced. -/
def invNum (t : CodeTable CHAR) : List (Nat × Text CHAR) := (t.entries.map fun e => (toInteger e.2, [e.1])).reverse

/-- R88: `|T|`. -/
def tableSize (t : CodeTable CHAR) : Nat := t.entries.length

/-- R90: the effective width. -/
def width (t : CodeTable CHAR) : Nat :=
  match t.codeWidth with
  | some w => w
  | none => ceilLog2 (tableSize t)

/-- R91: the distinct characters of a text, in order of first occurrence. -/
def firstOccurrences [DecidableEq CHAR] : Text CHAR → Text CHAR
  | [] => []
  | c :: t => c :: (firstOccurrences t).filter (· ≠ c)

/-- R91: one entry for each distinct character with its number of positions. -/
def freqScan [DecidableEq CHAR] (text : Text CHAR) : List (CHAR × Nat) :=
  (firstOccurrences text).map fun c => (c, text.count c)

/-- R93: `x` may stand before `y`: a higher count, or the same count and a key that is not higher. -/
def freqBefore (key : CHAR → Nat) (x y : CHAR × Nat) : Bool :=
  y.2 < x.2 || (x.2 == y.2 && key x.1 ≤ key y.1)

/-- Insertion before the first entry that `x` may stand before. -/
def insertFreq (key : CHAR → Nat) (x : CHAR × Nat) : List (CHAR × Nat) → List (CHAR × Nat)
  | [] => [x]
  | y :: l => if freqBefore key x y then x :: y :: l else y :: insertFreq key x l

/-- A stable sort: entries of equal count and key keep their order. -/
def sortFreq (key : CHAR → Nat) : List (CHAR × Nat) → List (CHAR × Nat)
  | [] => []
  | x :: l => insertFreq key x (sortFreq key l)

/-- R93: the frequency list by descending count, equal counts in the order of their keys. -/
def sortedFreq [DecidableEq CHAR] (key : CHAR → Nat) (text : Text CHAR) : List (CHAR × Nat) :=
  sortFreq key (freqScan text)

/-- R94: each symbol's code is its rank, from `k` on, at width `w`. -/
def rankCodes (w : Nat) : Nat → List (CHAR × Nat) → List (CHAR × BitVector)
  | _, [] => []
  | k, e :: l => (e.1, bvFromInt w k) :: rankCodes w (k + 1) l

/-- R94: the fixed-width strategy. -/
def fixedWidthTable [DecidableEq CHAR] (key : CHAR → Nat) (text : Text CHAR) : CodeTable CHAR :=
  let f := sortedFreq key text
  let w := ceilLog2 f.length
  { codeWidth := some w, entries := rankCodes w 0 f }

/-- TBL_BUILD_FW (R99). -/
def execTblBuildFw [DecidableEq CHAR] (s : State CHAR) : Host.Outcome (State CHAR) Fault Refusal :=
  complete .tblBuildFw s do
    let t ← readOperand s.aText
    return { tbl := some (fixedWidthTable s.tieKey t) }

/-- TBL_BUILD_LZW (R101): the seed is the fixed-width strategy's table. -/
def execTblBuildLzw [DecidableEq CHAR] (s : State CHAR) : Host.Outcome (State CHAR) Fault Refusal :=
  complete .tblBuildLzw s do
    let t ← readOperand s.aText
    return { tbl := some (fixedWidthTable s.tieKey t) }

end Sys2Proof.Machine
end

