-- ==== Sys2Proof/Machine/FixedWidthCodec.lean ====
section
/-! DEFINITION. The FixedWidthCodec engine (spec 43_fixedwidth.md R107 to R110) and its commands FW_ENCODE, FW_DECODE;
`encodeConcat` is shared with the Huffman engine (44_huffman.md R112). -/

namespace Sys2Proof.Machine

variable {CHAR : Type}

/-- R107, R120: every character of the text is a symbol of the table. -/
def knownText [DecidableEq CHAR] (t : CodeTable CHAR) (text : Text CHAR) : Bool := text.all (hasSymbol t)

/-- R107: the whole text is checked, then the codes are joined in text order. -/
def encodeConcat [DecidableEq CHAR] (t : CodeTable CHAR) (text : Text CHAR) : Except ErrorCode Bits :=
  if knownText t text then .ok (text.flatMap (codeRep t)) else .error .unknownSymbol

/-- R108: the consecutive chunks of `e` bits, the last perhaps shorter, given as much fuel as there are bits. -/
def chunksOf (e : Nat) : Nat → Bits → List Bits
  | 0, _ => []
  | f + 1, b => if b = [] then [] else b.take e :: chunksOf e f (b.drop e)

/-- R108: the chunk width is never 0, and a chunk that is no code is dropped. -/
def fwDecode (t : CodeTable CHAR) (b : Bits) : Text CHAR := (chunksOf (max (width t) 1) b.length b).filterMap (invBits t)

/-- The results of an encode: the payload and its frame (R109, R113, R121). -/
def encodeResults (payload : Bits) : Results CHAR := { rBits := some payload, rBytes := some (pack payload) }

/-- The results of a decode: the unpacked payload and the text (R110, R115, R123). -/
def decodeResults (payload : Bits) (text : Text CHAR) : Results CHAR := { rBits := some payload, rText := some text }

/-- FW_ENCODE (R109). -/
def execFwEncode [DecidableEq CHAR] (s : State CHAR) : Host.Outcome (State CHAR) Fault Refusal :=
  complete .fwEncode s do
    let t ← readOperand s.tbl
    let text ← readOperand s.aText
    let b ← encodeConcat t text
    return encodeResults b

/-- FW_DECODE (R110). -/
def execFwDecode (s : State CHAR) : Host.Outcome (State CHAR) Fault Refusal :=
  complete .fwDecode s do
    let t ← readOperand s.tbl
    let f ← readOperand s.aBytes
    let b ← unpack f
    return decodeResults b (fwDecode t b)

end Sys2Proof.Machine
end

