-- ==== Sys2Proof/Machine/HuffmanCodec.lean ====
section
/-! DEFINITION. The HuffmanCodec engine (spec 44_huffman.md R112 to R115) and its commands HUF_ENCODE and HUF_DECODE. -/

namespace Sys2Proof.Machine

variable {CHAR : Type}

/-- R114: the least length from 1 on whose first bits are a code, with the symbol. -/
def shortestCode (t : CodeTable CHAR) (b : Bits) : Option (CHAR × Nat) :=
  (List.range b.length).findSome? fun n => (invBits t (b.take (n + 1))).map fun c => (c, n + 1)

/-- R114: the incremental prefix scan, given as much fuel as there are bits; bits with no code left are dropped. -/
def prefixScan (t : CodeTable CHAR) : Nat → Bits → Text CHAR
  | 0, _ => []
  | f + 1, b =>
    match shortestCode t b with
    | none => []
    | some (c, n) => c :: prefixScan t f (b.drop n)

/-- R114. -/
def hufDecode (t : CodeTable CHAR) (b : Bits) : Text CHAR := prefixScan t b.length b

/-- HUF_ENCODE (R113). -/
def execHufEncode [DecidableEq CHAR] (s : State CHAR) : Host.Outcome (State CHAR) Fault Refusal :=
  complete .hufEncode s do
    let t ← readOperand s.tbl
    let text ← readOperand s.aText
    let b ← encodeConcat t text
    return encodeResults b

/-- HUF_DECODE (R115). -/
def execHufDecode (s : State CHAR) : Host.Outcome (State CHAR) Fault Refusal :=
  complete .hufDecode s do
    let t ← readOperand s.tbl
    let f ← readOperand s.aBytes
    let b ← unpack f
    return decodeResults b (hufDecode t b)

end Sys2Proof.Machine
end

