-- ==== Sys2Proof/Machine/HuffmanTable.lean ====
section
/-! DEFINITION. The Huffman strategy (spec 42_codetable.md R95 to R98) and the command TBL_BUILD_HUF (R100). -/

namespace Sys2Proof.Machine

variable {CHAR : Type}

/-- R95: a merge node. -/
inductive HuffNode (CHAR : Type := Char) where
  | leaf (symbol : CHAR) (freq : Nat)
  | inner (freq : Nat) (zero one : HuffNode CHAR)
  deriving DecidableEq, Repr

/-- R95: a node's frequency. -/
def nodeFreq : HuffNode CHAR → Nat
  | .leaf _ f => f
  | .inner f _ _ => f

/-- R96: `m` goes before every node of equal frequency. -/
def insertNode (m : HuffNode CHAR) (l : List (HuffNode CHAR)) : List (HuffNode CHAR) :=
  let k := l.countP fun x => nodeFreq m < nodeFreq x
  l.take k ++ m :: l.drop k

/-- R96's loop body: the last but one becomes the 0-child, the last the 1-child. -/
def mergeStep (l : List (HuffNode CHAR)) : List (HuffNode CHAR) :=
  match l.reverse with
  | y :: x :: rest => insertNode (.inner (nodeFreq x + nodeFreq y) x y) rest.reverse
  | _ => l

/-- R96: `while |L| > 1`; each turn shortens the list by one, so its length bounds the turns. -/
def mergeAll : Nat → List (HuffNode CHAR) → List (HuffNode CHAR)
  | 0, l => l
  | n + 1, l => if l.length > 1 then mergeAll n (mergeStep l) else l

/-- R97: the leaves under a node with their paths from the root, the root's edge first. -/
def assignCodes : HuffNode CHAR → Bits → List (CHAR × Bits)
  | .leaf c _, p => [(c, p)]
  | .inner _ z o, p => assignCodes z (p ++ [false]) ++ assignCodes o (p ++ [true])

/-- R97, R98: the entries of the tree; a tree of one leaf gives the one-bit code 0. -/
def treeEntries : HuffNode CHAR → List (CHAR × BitVector)
  | .leaf c _ => [(c, bvOfBits 1 [false])]
  | .inner f z o => (assignCodes (.inner f z o) []).map fun e => (e.1, bvOfBits e.2.length e.2)

/-- R95: the merge list at the start. -/
def startNodes [DecidableEq CHAR] (key : CHAR → Nat) (text : Text CHAR) : List (HuffNode CHAR) :=
  (sortedFreq key text).map fun e => .leaf e.1 e.2

/-- R98: the Huffman strategy; the empty text gives the empty table. -/
def huffmanTable [DecidableEq CHAR] (key : CHAR → Nat) (text : Text CHAR) : CodeTable CHAR :=
  let start := startNodes key text
  match mergeAll start.length start with
  | [] => { codeWidth := none, entries := [] }
  | root :: _ => { codeWidth := none, entries := treeEntries root }

/-- TBL_BUILD_HUF (R100). -/
def execTblBuildHuf [DecidableEq CHAR] (s : State CHAR) : Host.Outcome (State CHAR) Fault Refusal :=
  complete .tblBuildHuf s do
    let t ← readOperand s.aText
    return { tbl := some (huffmanTable s.tieKey t) }

end Sys2Proof.Machine
end

