-- ==== Sys2Proof/Machine/LzwCodec.lean ====
section
/-! DEFINITION. The LZWCodec engine (spec 45_lzw.md R117 to R124) and its commands LZW_ENCODE and LZW_DECODE. The working
state of R117 is the arguments of the two loops. -/

namespace Sys2Proof.Machine

variable {CHAR : Type}

/-- R118: at most one bit more, when the codes up to the counter no longer fit. -/
def grow (w next : Nat) : Nat := if 2 ^ w ≤ next then w + 1 else w

/-- R119: the effective width `eff(w)`. -/
def effWidth (w : Nat) : Nat := max w 1

/-- R119: the bits of code number `k` at the effective width `e`; over-wide numbers keep every bit (R75). -/
def codeBits (e k : Nat) : Bits := toBitString (bvFromInt e k)

/-- R117: the encoder's dictionary at the start, from text to code number. -/
def seedDict (t : CodeTable CHAR) : List (Text CHAR × Nat) := t.entries.map fun e => ([e.1], toInteger e.2)

/-- R120's scan from `cur` on: the codes with the effective widths they are emitted at. A `cur` that is not in the
dictionary answers UnknownSymbol; the check of R120 excludes it (`lzwScan_ok` in Laws). -/
def lzwScan [DecidableEq CHAR] (d : List (Text CHAR × Nat)) (next w : Nat) (cur : Text CHAR) :
    Text CHAR → Except ErrorCode (List (Nat × Nat))
  | [] =>
    match d.lookup cur with
    | some k => .ok [(k, effWidth w)]
    | none => .error .unknownSymbol
  | c :: rest =>
    if (d.lookup (cur ++ [c])).isSome then lzwScan d next w (cur ++ [c]) rest
    else
      match d.lookup cur with
      | none => .error .unknownSymbol
      | some k =>
        match lzwScan ((cur ++ [c], next) :: d) (next + 1) (grow w next) [c] rest with
        | .error e => .error e
        | .ok codes => .ok ((k, effWidth w) :: codes)

/-- R120: the codes of a text and their widths; the whole text is checked first, and the empty text emits nothing. -/
def lzwCodes [DecidableEq CHAR] (t : CodeTable CHAR) (text : Text CHAR) : Except ErrorCode (List (Nat × Nat)) :=
  if knownText t text then
    match text with
    | [] => .ok []
    | c :: rest => lzwScan (seedDict t) (tableSize t) (width t) [c] rest
  else .error .unknownSymbol

/-- R120: the payload is the codes at their widths, in order (R60). -/
def lzwEncode [DecidableEq CHAR] (t : CodeTable CHAR) (text : Text CHAR) : Except ErrorCode Bits :=
  match lzwCodes t text with
  | .error e => .error e
  | .ok codes => .ok (codes.flatMap fun p => codeBits p.2 p.1)

/-- One step of the decoder: the code it read, the effective width it read it at, and its output. -/
structure LzwRead (CHAR : Type := Char) where
  code : Nat
  width : Nat
  output : Text CHAR
  deriving DecidableEq, Repr

/-- R122, one step's output: case (a), a known code; case (b), the conjecture and its first character. -/
def lzwOutput (i : List (Nat × Text CHAR)) (conj : Text CHAR) (k : Nat) : Option (Text CHAR) :=
  match i.lookup k with
  | some o => some o
  | none => if conj = [] then none else some (conj ++ conj.take 1)

/-- R122: the entry a step registers: the conjecture and the output's first character, if there is a conjecture. In case
(b) that is the output itself. -/
def lzwRegister (i : List (Nat × Text CHAR)) (next : Nat) (conj o : Text CHAR) : List (Nat × Text CHAR) :=
  if conj = [] then i else (next, conj ++ o.take 1) :: i

/-- R122: the counter after a step. -/
def lzwNext (next : Nat) (conj : Text CHAR) : Nat := if conj = [] then next else next + 1

/-- R122's loop, given as much fuel as there are bits: it ends when fewer than `eff(w)` bits are left. -/
def lzwReads : Nat → List (Nat × Text CHAR) → Nat → Nat → Text CHAR → Bits → Except ErrorCode (List (LzwRead CHAR))
  | 0, _, _, _, _, _ => .ok []
  | f + 1, i, next, w, conj, b =>
    if b.length < effWidth w then .ok []
    else
      match lzwOutput i conj (val (b.take (effWidth w))) with
      | none => .error .unrepresentableCode
      | some o =>
        match lzwReads f (lzwRegister i next conj o) (lzwNext next conj) (grow w (lzwNext next conj)) o
            (b.drop (effWidth w)) with
        | .error e => .error e
        | .ok reads => .ok ({ code := val (b.take (effWidth w)), width := effWidth w, output := o } :: reads)

/-- R122: the decoder's steps on a payload. -/
def lzwSteps (t : CodeTable CHAR) (b : Bits) : Except ErrorCode (List (LzwRead CHAR)) :=
  lzwReads b.length (invNum t) (tableSize t) (width t) [] b

/-- R122: the text is the outputs of the steps in order. -/
def lzwDecode (t : CodeTable CHAR) (b : Bits) : Except ErrorCode (Text CHAR) :=
  match lzwSteps t b with
  | .error e => .error e
  | .ok reads => .ok (reads.flatMap (·.output))

/-- LZW_ENCODE (R121). -/
def execLzwEncode [DecidableEq CHAR] (s : State CHAR) : Host.Outcome (State CHAR) Fault Refusal :=
  complete .lzwEncode s do
    let t ← readOperand s.tbl
    let text ← readOperand s.aText
    let b ← lzwEncode t text
    return encodeResults b

/-- LZW_DECODE (R123). -/
def execLzwDecode (s : State CHAR) : Host.Outcome (State CHAR) Fault Refusal :=
  complete .lzwDecode s do
    let t ← readOperand s.tbl
    let f ← readOperand s.aBytes
    let b ← unpack f
    let text ← lzwDecode t b
    return decodeResults b text

end Sys2Proof.Machine
end

