-- ==== Sys2Proof/Machine/TableText.lean ====
section
/-! DEFINITION. The text form of a table (spec 30_encoding.md R58, 42_codetable.md R102, R104) and the commands TBL_SAVE
and TBL_LOAD (R103, R105). -/

namespace Sys2Proof.Machine

variable {CHAR : Type}

/-- R58: what the size line begins with. -/
def sizeMark (C : CharSet CHAR) : Text CHAR := [C.letterS, C.letterI, C.letterZ, C.letterE, C.colon]

/-- R58: an entry's line. -/
def entryLine (C : CharSet CHAR) (e : CHAR × BitVector) : Text CHAR :=
  e.1 :: C.colon :: (chars C (toBitString e.2) ++ [C.newline])

/-- R102. -/
def serialize (C : CharSet CHAR) (t : CodeTable CHAR) : Text CHAR :=
  (match t.codeWidth with
    | some w => sizeMark C ++ dec C w ++ [C.newline]
    | none => []) ++ t.entries.flatMap (entryLine C)

/-- R104: the pieces of a text between newlines, in order. -/
def splitLines [DecidableEq CHAR] (C : CharSet CHAR) : Text CHAR → List (Text CHAR)
  | [] => [[]]
  | c :: t =>
    if c = C.newline then [] :: splitLines C t
    else
      match splitLines C t with
      | [] => [[c]]
      | p :: ps => (c :: p) :: ps

/-- R104: the lines of a table text: the last piece is dropped if it is empty. -/
def tableLines [DecidableEq CHAR] (C : CharSet CHAR) (t : Text CHAR) : List (Text CHAR) :=
  let pieces := splitLines C t
  if pieces.getLast? = some [] then pieces.dropLast else pieces

/-- R104: the entry lines, with the entries of the lines before: no separator, then a duplicate symbol, then a non-binary
code. -/
def parseEntries [DecidableEq CHAR] (C : CharSet CHAR) :
    List (CHAR × BitVector) → List (Text CHAR) → Except ErrorCode (List (CHAR × BitVector))
  | e, [] => .ok e
  | e, (c :: sep :: s) :: lines =>
    if sep ≠ C.colon then .error .corruptCodeTable
    else if e.any (fun x => x.1 = c) then .error .corruptCodeTable
    else
      match bvFromString C s.length s with
      | .error err => .error err
      | .ok x => parseEntries C (e ++ [(c, x)]) lines
  | _, _ :: _ => .error .corruptCodeTable

/-- R104: the digits after `size:`. -/
def parseSize [DecidableEq CHAR] (C : CharSet CHAR) (d : Text CHAR) : Except ErrorCode Nat :=
  if d ≠ [] ∧ d.all (isDecDigit C) then .ok (decValue C d) else .error .corruptCodeTable

/-- R104: only the first line may be a size line. -/
def deserialize [DecidableEq CHAR] (C : CharSet CHAR) (t : Text CHAR) : Except ErrorCode (CodeTable CHAR) :=
  match tableLines C t with
  | [] => .ok { codeWidth := none, entries := [] }
  | line :: lines =>
    if (sizeMark C).isPrefixOf line then do
      let w ← parseSize C (line.drop (sizeMark C).length)
      let e ← parseEntries C [] lines
      return { codeWidth := some w, entries := e }
    else do
      let e ← parseEntries C [] (line :: lines)
      return { codeWidth := none, entries := e }

/-- TBL_SAVE (R103) over any `CHAR` (R6). -/
def tblSaveWith (C : CharSet CHAR) (s : State CHAR) : Host.Outcome (State CHAR) Fault Refusal :=
  complete .tblSave s do
    let t ← readOperand s.tbl
    return { rStr := some (serialize C t) }

/-- TBL_SAVE (R103). -/
def execTblSave (s : State) : Host.Outcome State Fault Refusal := tblSaveWith charSet s

/-- TBL_LOAD (R105) over any `CHAR` (R6). -/
def tblLoadWith [DecidableEq CHAR] (C : CharSet CHAR) (s : State CHAR) : Host.Outcome (State CHAR) Fault Refusal :=
  complete .tblLoad s do
    let t ← readOperand s.aStr
    let x ← deserialize C t
    return { tbl := some x }

/-- TBL_LOAD (R105). -/
def execTblLoad (s : State) : Host.Outcome State Fault Refusal := tblLoadWith charSet s

end Sys2Proof.Machine
end

