-- ==== Sys2Proof/Machine/Dispatch.lean ====
section
/-! DEFINITION. One arm per command of spec/opcode_table.json, each one call of that command's own meaning. -/

namespace Sys2Proof.Machine

def exec (i : Instr) (s : State) : Host.Outcome State Fault Refusal :=
  match i with
  | .bvFromStr => Sys2Proof.Machine.execBvFromStr s
  | .bvFromInt => Sys2Proof.Machine.execBvFromInt s
  | .bvToStr => Sys2Proof.Machine.execBvToStr s
  | .bvToInt => Sys2Proof.Machine.execBvToInt s
  | .frmPack => Sys2Proof.Machine.execFrmPack s
  | .frmUnpack => Sys2Proof.Machine.execFrmUnpack s
  | .tblBuildFw => Sys2Proof.Machine.execTblBuildFw s
  | .tblBuildHuf => Sys2Proof.Machine.execTblBuildHuf s
  | .tblBuildLzw => Sys2Proof.Machine.execTblBuildLzw s
  | .tblSave => Sys2Proof.Machine.execTblSave s
  | .tblLoad => Sys2Proof.Machine.execTblLoad s
  | .fwEncode => Sys2Proof.Machine.execFwEncode s
  | .fwDecode => Sys2Proof.Machine.execFwDecode s
  | .hufEncode => Sys2Proof.Machine.execHufEncode s
  | .hufDecode => Sys2Proof.Machine.execHufDecode s
  | .lzwEncode => Sys2Proof.Machine.execLzwEncode s
  | .lzwDecode => Sys2Proof.Machine.execLzwDecode s

end Sys2Proof.Machine
end

