-- ==== Sys2Proof/Decode.lean ====
section
/-! DEFINITION. Decoding and encoding of command words (spec 30_encoding.md R49 to R53): total on all 2^32 words, every
illegal word rejected by name. -/

namespace Sys2Proof

/-- Why a word is no command (R50, R52). Either way the core raises IllegalCommand (R138). -/
inductive DecodeError where
  | reservedBits (rsv : BitVec 24)
  | unassignedOpcode (opc : BitVec 8)
  deriving DecidableEq, Repr

/-- R51, column OPC and column mnemonic, in the table's order. -/
def opcodeTable : List (BitVec 8 × Instr) :=
  [(0x01, .bvFromStr), (0x02, .bvFromInt), (0x03, .bvToStr), (0x04, .bvToInt),
   (0x10, .frmPack), (0x11, .frmUnpack),
   (0x20, .tblBuildFw), (0x21, .tblBuildHuf), (0x22, .tblBuildLzw), (0x28, .tblSave), (0x29, .tblLoad),
   (0x30, .fwEncode), (0x31, .fwDecode),
   (0x40, .hufEncode), (0x41, .hufDecode),
   (0x50, .lzwEncode), (0x51, .lzwDecode)]

/-- R50: `w[31:8]` must be 0 and `w[7:0]` an opcode of R51. -/
def decode (w : Word32) : Except DecodeError Instr :=
  if rsvField w = 0 then
    match opcodeTable.lookup (opcField w) with
    | some i => .ok i
    | none => .error (.unassignedOpcode (opcField w))
  else .error (.reservedBits (rsvField w))

/-- The word of a command (R51, column word). -/
def encode : Instr → Word32
  | .bvFromStr => 0x00000001
  | .bvFromInt => 0x00000002
  | .bvToStr => 0x00000003
  | .bvToInt => 0x00000004
  | .frmPack => 0x00000010
  | .frmUnpack => 0x00000011
  | .tblBuildFw => 0x00000020
  | .tblBuildHuf => 0x00000021
  | .tblBuildLzw => 0x00000022
  | .tblSave => 0x00000028
  | .tblLoad => 0x00000029
  | .fwEncode => 0x00000030
  | .fwDecode => 0x00000031
  | .hufEncode => 0x00000040
  | .hufDecode => 0x00000041
  | .lzwEncode => 0x00000050
  | .lzwDecode => 0x00000051

/-- What `decode` reads from a word whose bits are `w`, numbered as spec/opcode_table.json numbers them. Every row has 32
bits (R49, R53), one word, so a number with a higher bit set is no instruction. -/
def decodeTableWord (nbits w : Nat) : Option Instr :=
  if nbits ≤ 32 ∧ w < 2 ^ 32 then (decode (BitVec.ofNat 32 w)).toOption else none

end Sys2Proof
end

