-- ==== Sys2Proof/Machine/Sequencer.lean ====
section
/-! DEFINITION. The command sequencer (spec 00_scope.md R5): what one action of the host does. A write of `CMD` is one
command, run as one atomic step (10_state.md R19, 30_encoding.md R50). -/

namespace Sys2Proof.Machine

variable {CHAR : Type}

/-- What executes a command: for each one, what it does to the state in which `CMD` holds its word. -/
abbrev Executor (CHAR : Type := Char) := Instr → State CHAR → Host.Outcome (State CHAR) Fault Refusal

/-- R19, R50: `CMD` takes the word; a legal word's command is executed, and any other word raises IllegalCommand (R138). -/
def runCommand (run : Executor CHAR) (w : Word32) (s : State CHAR) : Host.Outcome (State CHAR) Fault Refusal :=
  match decode w with
  | .ok i => run i (s.setCmd w)
  | .error _ => .next ((s.setCmd w).raise .illegalCommand)

/-- R19 to R23: a host write, by register id. A write to an id that names no register is ignored (R23). -/
def carryOutWrite (run : Executor CHAR) (id : RegId) (v : RegValue CHAR) (s : State CHAR) :
    Host.Outcome (State CHAR) Fault Refusal :=
  match RegName.ofId id with
  | none => .next s
  | some .cmd =>
    match valueAsWord v with
    | some w => runCommand run w s
    | none => .refused (.illTypedHostWrite id)
  | some r =>
    match s.hostSet r v with
    | some s' => .next s'
    | none => .refused (.illTypedHostWrite id)

/-- One action of the host (R24, R154). -/
def carryOut (run : Executor CHAR) (a : HostAction CHAR) (s : State CHAR) : Host.Outcome (State CHAR) Fault Refusal :=
  match a with
  | .write id v => carryOutWrite run id v s
  | .read id => .next (s.hostRead id)
  | .reset => .next s.resetRegisters

/-- The next step: the host's oldest pending action is carried out (R44); with none pending the core is idle and keeps
every register (R153). -/
def nextAction (run : Executor CHAR) (s : State CHAR) : Host.Outcome (State CHAR) Fault Refusal :=
  match s.pending with
  | [] => .next s
  | a :: rest => carryOut run a (s.takeAction rest)

/-- The host's next action becomes the write of the command word `w` (R19). -/
def State.issue (s : State CHAR) (w : Word32) : State CHAR := { s with pending := .write 0x00 (.word w) :: s.pending }

end Sys2Proof.Machine
end

