-- ==== Sys2Proof/Machine/Step.lean ====
section
/-! DEFINITION. One step of the machine: one action of the host (spec 00_scope.md R5, 20_memory.md R44). -/

namespace Sys2Proof.Machine

/-- One step; what it does is `nextAction`, with `exec` for the commands. -/
def step (s : State) : Host.Outcome State Fault Refusal := nextAction exec s

/-- `s` with the write of the command word `w` as the host's next action: there is no program counter and no fetch (R27,
R47), so the place a command comes from is the host (notes/assumptions/4.md). Every word has 32 bits (R49). -/
def State.withFetchWord (s : State) (_nbits w : Nat) : State := s.issue (BitVec.ofNat 32 w)

end Sys2Proof.Machine
end

