-- ==== Sys2Proof/Safety.lean ====
section
/-! DEFINITION. What the statements call a legal state, a safe step, a failed and a completed command, in the spec's terms
(spec 10_state.md R17, R18, R20, R21; 60_exceptions.md R140, R141). -/

namespace Sys2Proof.Machine

variable {CHAR : Type}

/-- R17: every BitVector's rendering has at least its declared width. -/
abbrev BitVectorLegal (x : BitVector) : Prop := x.size ≤ x.rep.length

/-- R18: no symbol occurs twice, and every code is a legal BitVector. -/
abbrev TableLegal (t : CodeTable CHAR) : Prop :=
  (t.entries.map (·.1)).Nodup ∧ ∀ e ∈ t.entries, BitVectorLegal e.2

/-- No result register holds a value. -/
abbrev State.NoResults (s : State CHAR) : Prop :=
  s.bv = none ∧ s.tbl = none ∧ s.rInt = none ∧ s.rBits = none ∧ s.rBytes = none ∧ s.rText = none ∧ s.rStr = none

/-- The invariant of the machine, over every state a step can reach from a state that has it. -/
structure State.Legal (s : State CHAR) : Prop where
  /-- R20: the reserved bits of `STATUS` read 0 -/
  reservedZero : statusLowReserved s.status = 0 ∧ statusHighReserved s.status = 0
  /-- R20, R131: `ERR` is never 8 to 15 -/
  errDefined : (errField s.status).toNat ≤ 7
  /-- R20: once a command has completed, `LASTOP` is `CMD[7:0]` of the last command, legal or not -/
  lastopIsCmd : doneField s.status = 1 → lastopField s.status = opcField s.cmd
  /-- R20, R23, R31: before any command, `CMD` and `STATUS` are 0 and no result register holds a value -/
  beforeAnyCommand : doneField s.status = 0 → s.cmd = 0 ∧ s.status = 0 ∧ s.NoResults
  /-- R17 -/
  bvLegal : ∀ x, s.bv = some x → BitVectorLegal x
  /-- R18 -/
  tblLegal : ∀ t, s.tbl = some t → TableLegal t
  /-- R78: the core only writes well-formed frames -/
  rBytesWellFormed : ∀ f, s.rBytes = some f → wellFormedFrame f = true

/-- The step gives a next state. -/
def StepsOn (s : State) : Prop := ∃ t, step s = .next t

/-- R140: the command ends with the error `e`: `STATUS` is written, and nothing else changes. -/
def FailsWith (i : Instr) (s : State) (e : ErrorCode) : Prop :=
  exec i s = .next { s with status := statusWord e.code (opcField s.cmd) }

/-- R141: `STATUS` after a command that completed. -/
def doneStatus (s : State CHAR) : Word32 := statusWord 0 (opcField s.cmd)

/-- R8: the operands of the command are within the instance's bounds (always so without bounds). -/
abbrev OperandsInBounds (i : Instr) (s : State CHAR) : Prop := operandsFit i s = true

/-- R8: the results are within the instance's bounds (always so without bounds). -/
abbrev ResultsInBounds (s : State CHAR) (out : Results CHAR) : Prop := resultsFit s.params out = true

/-- R131, column "raised by", with OperandUnset for every command, since every command reads a register (R51). -/
def errorsOf : Instr → List ErrorCode
  | .bvFromStr => [.malformedBitLiteral, .operandUnset]
  | .bvFromInt | .bvToStr | .bvToInt | .frmPack => [.operandUnset]
  | .frmUnpack => [.corruptFrame, .operandUnset]
  | .tblBuildFw | .tblBuildHuf | .tblBuildLzw | .tblSave => [.operandUnset]
  | .tblLoad => [.malformedBitLiteral, .corruptCodeTable, .operandUnset]
  | .fwEncode | .hufEncode | .lzwEncode => [.unknownSymbol, .operandUnset]
  | .fwDecode | .hufDecode => [.corruptFrame, .operandUnset]
  | .lzwDecode => [.corruptFrame, .unrepresentableCode, .operandUnset]

/-- A bit-string is a proper or improper beginning of another (R14, prefix-free code). -/
def BeginsWith (p b : Bits) : Prop := ∃ r, b = p ++ r

end Sys2Proof.Machine
end

