-- ==== Sys2Proof/Certificates/Slice0/Obligations.lean ====
section
/-! DEFINITION. The statements for the provers, from the numbered rules of spec/. Every register of the next state that a
statement's equation does not name is unchanged: the equations are over whole states, so each carries its frame. -/

open Sys2Proof Sys2Proof.Machine

/-! ## Command words and the step -/

/-- 30_encoding.md R53, R63, with the words of R51: a word is a command exactly if it is that command's one word. -/
def Obligations.CommandWordsDecodeExactly : Prop :=
  (∀ (w : Word32) (i : Instr), decode w = .ok i ↔ w = encode i) ∧
  [Instr.bvFromStr, .bvFromInt, .bvToStr, .bvToInt, .frmPack, .frmUnpack, .tblBuildFw, .tblBuildHuf, .tblBuildLzw,
    .tblSave, .tblLoad, .fwEncode, .fwDecode, .hufEncode, .hufDecode, .lzwEncode, .lzwDecode].map encode =
    [0x00000001, 0x00000002, 0x00000003, 0x00000004, 0x00000010, 0x00000011, 0x00000020, 0x00000021, 0x00000022,
      0x00000028, 0x00000029, 0x00000030, 0x00000031, 0x00000040, 0x00000041, 0x00000050, 0x00000051]

/-- R52 against R51: the words that decode are exactly those R52 does not call illegal, so decoding is total (R50). -/
def Obligations.LegalWordsAreThoseNotReserved : Prop :=
  ∀ w : Word32, (∃ i, decode w = .ok i) ↔ wellFormedWord w = true

/-- R51, R52: words written out from the opcode map, one for each unit, and two illegal ones. -/
def Obligations.SampleWordsDecodeAsListed : Prop :=
  decode 0x00000001 = .ok .bvFromStr ∧ decode 0x00000011 = .ok .frmUnpack ∧ decode 0x00000028 = .ok .tblSave ∧
    decode 0x00000031 = .ok .fwDecode ∧ decode 0x00000041 = .ok .hufDecode ∧ decode 0x00000050 = .ok .lzwEncode ∧
    decode 0x00000000 = .error (.unassignedOpcode 0x00) ∧ decode 0x00000101 = .error (.reservedBits 1)

/-- 10_state.md R19, R50: the host's write of a legal command word runs that command, with `CMD` holding the word. -/
def Obligations.StepRunsTheDecodedCommand : Prop :=
  ∀ (s : State) (w : Word32) (rest : List HostAction) (i : Instr),
    s.pending = .write 0x00 (.word w) :: rest → decode w = .ok i →
      step s = exec i { s with cmd := w, pending := rest, hostActs := s.hostActs + 1 }

/-- R138, with R19, R52, R131 and R140: a write of an illegal word leaves the word in `CMD`, reads no operand, writes no
result, and reports code 6 with `LASTOP` = `w[7:0]` and `DONE`. That the step takes the action from the list of pending
actions and counts it is the model's own (notes/assumptions/4.md, 6.md). -/
def Obligations.IllegalWordOnlyWritesStatus : Prop :=
  ∀ (s : State) (w : Word32) (rest : List HostAction),
    s.pending = .write 0x00 (.word w) :: rest → wellFormedWord w = false →
      step s = .next { s with
        cmd := w, status := statusWord 6 (w.extractLsb' 0 8), pending := rest, hostActs := s.hostActs + 1 }

/-- R153: with no host action to carry out the core is idle and keeps every register. -/
def Obligations.IdleCoreKeepsEveryRegister : Prop :=
  ∀ s : State, s.pending = [] → step s = .next s

/-- R22, R23, R24, R20: a host write of an `A_*` register sets it and nothing else; one of `STATUS`, of a result register
or of an id that names no register changes nothing. -/
def Obligations.HostWriteSetsOperandOrIsIgnored : Prop :=
  ∀ (s : State) (id : RegId) (v : RegValue) (rest : List HostAction) (s' : State),
    s.pending = .write id v :: rest → s' = { s with pending := rest, hostActs := s.hostActs + 1 } →
      (∀ n, id = 0x02 → v = .nat n → step s = .next { s' with aSize := some n }) ∧
      (∀ n, id = 0x03 → v = .nat n → step s = .next { s' with aInt := some n }) ∧
      (∀ t, id = 0x04 → v = .text t → step s = .next { s' with aStr := some t }) ∧
      (∀ b, id = 0x05 → v = .bits b → step s = .next { s' with aBits := some b }) ∧
      (∀ b, id = 0x06 → v = .bytes b → step s = .next { s' with aBytes := some b }) ∧
      (∀ t, id = 0x07 → v = .text t → step s = .next { s' with aText := some t }) ∧
      (id = 0x01 ∨ 0x08 ≤ id.toNat → step s = .next s')

/-- R21, R24, R43: a host read returns the register the id names, and changes no register. What an id that names no
register returns is left open (I17). -/
def Obligations.HostReadReturnsTheRegister : Prop :=
  ∀ (s : State) (id : RegId) (rest : List HostAction), s.pending = .read id :: rest →
    ∃ v : Option RegValue,
      step s = .next { s with
        pending := rest, hostActs := s.hostActs + 1, readOut := some { id := id, value := v } } ∧
      (id = 0x00 → v = some (.word s.cmd)) ∧ (id = 0x01 → v = some (.word s.status)) ∧
      (id = 0x02 → v = s.aSize.map .nat) ∧ (id = 0x03 → v = s.aInt.map .nat) ∧
      (id = 0x04 → v = s.aStr.map .text) ∧ (id = 0x05 → v = s.aBits.map .bits) ∧
      (id = 0x06 → v = s.aBytes.map .bytes) ∧ (id = 0x07 → v = s.aText.map .text) ∧
      (id = 0x08 → v = s.bv.map .bitVector) ∧ (id = 0x09 → v = s.tbl.map .codeTable) ∧
      (id = 0x0A → v = s.rInt.map .nat) ∧ (id = 0x0B → v = s.rBits.map .bits) ∧
      (id = 0x0C → v = s.rBytes.map .bytes) ∧ (id = 0x0D → v = s.rText.map .text) ∧
      (id = 0x0E → v = s.rStr.map .text)

/-- 70_reset_and_hazards.md R154, R156: the reset event sets `CMD` and `STATUS` to 0 and every value register to unset,
runs no command, and leaves the configuration. That it also leaves the host's pending actions and last read is the
model's own choice (notes/assumptions/4.md, 5.md). -/
def Obligations.ResetEventClearsEveryRegister : Prop :=
  ∀ (s : State) (rest : List HostAction), s.pending = .reset :: rest →
    step s = .next
      { cmd := 0, status := 0, aSize := none, aInt := none, aStr := none, aBits := none, aBytes := none, aText := none,
        bv := none, tbl := none, rInt := none, rBits := none, rBytes := none, rText := none, rStr := none,
        params := s.params, pending := rest, readOut := s.readOut, hostActs := s.hostActs + 1 }

/-- R31: the value of every register after reset. -/
def Obligations.ResetLeavesEveryRegisterUnset : Prop :=
  State.reset.cmd = 0x00000000 ∧ State.reset.status = 0x00000000 ∧
    errField State.reset.status = 0 ∧ lastopField State.reset.status = 0 ∧ doneField State.reset.status = 0 ∧
    State.reset.aSize = none ∧ State.reset.aInt = none ∧ State.reset.aStr = none ∧ State.reset.aBits = none ∧
    State.reset.aBytes = none ∧ State.reset.aText = none ∧ State.reset.bv = none ∧ State.reset.tbl = none ∧
    State.reset.rInt = none ∧ State.reset.rBits = none ∧ State.reset.rBytes = none ∧ State.reset.rText = none ∧
    State.reset.rStr = none

/-! ## The machine as a whole -/

/-- The invariant holds after reset. -/
def Obligations.ResetStateIsLegal : Prop := State.reset.Legal

/-- R17, R18, R20, R21, R78, R131: reserved `STATUS` bits stay 0, `ERR` stays at most 7, `LASTOP` stays the last command's
opcode, no result appears before a command, and every BitVector, table and frame the core holds is well formed. -/
def Obligations.EveryStepKeepsTheStateLegal : Prop :=
  ∀ s t : State, s.Legal → step s = .next t → t.Legal

/-- R140: a command that ends with an error leaves every register but `STATUS` as it was. -/
def Obligations.ErrorChangesOnlyStatus : Prop :=
  ∀ (i : Instr) (s t : State), exec i s = .next t → errField t.status ≠ 0 →
    t = { s with status := statusWord (errField t.status) (s.cmd.extractLsb' 0 8) }

/-- R141, R51: a command that completes sets the result registers of its row and changes no other register. -/
def Obligations.SuccessChangesOnlyItsResults : Prop :=
  ∀ (i : Instr) (s t : State), exec i s = .next t → errField t.status = 0 →
    t.status = statusWord 0 (s.cmd.extractLsb' 0 8) ∧
    (∀ r ∈ writesOf i, (t.read r).isSome = true) ∧
    (∀ r, r ∉ writesOf i → r ≠ .status → t.read r = s.read r) ∧
    t.params = s.params ∧ t.pending = s.pending ∧ t.readOut = s.readOut ∧ t.hostActs = s.hostActs

/-- R139, R142: a command raises OperandUnset exactly if a register it reads is unset, before any error of its own. -/
def Obligations.OperandUnsetExactlyWhenUnset : Prop :=
  ∀ (i : Instr) (s : State), OperandsInBounds i s →
    (FailsWith i s .operandUnset ↔ ∃ r ∈ readsOf i, s.read r = none)

/-- R131: a command reports no error but those the table lists for it. -/
def Obligations.CommandsRaiseOnlyTheirErrors : Prop :=
  ∀ (i : Instr) (s t : State), exec i s = .next t →
    errField t.status = 0 ∨ ∃ e ∈ errorsOf i, errField t.status = e.code

/-- 20_memory.md R43, R144: what a command reports and writes depends only on the registers it reads, the configuration
and, under `Oracle`, the tie draw. -/
def Obligations.ResultsDependOnlyOnOperands : Prop :=
  ∀ (i : Instr) (s₁ s₂ t₁ : State),
    (∀ r ∈ readsOf i, s₁.read r = s₂.read r) → s₁.params = s₂.params →
    (s₁.params.tieOrder = .oracle → s₁.hostActs = s₂.hostActs) → exec i s₁ = .next t₁ →
      ∃ t₂, exec i s₂ = .next t₂ ∧ errField t₁.status = errField t₂.status ∧
        (errField t₁.status = 0 → ∀ r ∈ writesOf i, t₁.read r = t₂.read r)

/-- R155: only reset returns a register to unset or `DONE` to 0, and a failed command leaves the registers. -/
def Obligations.OnlyResetUnsetsRegisters : Prop :=
  (∀ s t : State, s.pending.head? ≠ some .reset → step s = .next t →
    (doneField s.status = 1 → doneField t.status = 1) ∧ ∀ r, (s.read r).isSome = true → (t.read r).isSome = true) ∧
  (∀ (i : Instr) (s t : State), exec i s = .next t → errField t.status ≠ 0 →
    ∀ r, r ≠ .status → t.read r = s.read r)

/-- R156: the configuration is fixed for the instance; no step, reset among them, changes it. -/
def Obligations.ConfigurationIsFixed : Prop :=
  ∀ s t : State, step s = .next t → t.params = s.params

/-- R8, R50, R166: with the spec's own unbounded parameters every action of the host is carried out; in particular every
command word, legal or not, has an outcome. That an ill-typed host write stops is the model's own
(notes/assumptions/8.md). -/
def Obligations.UnboundedInstanceAlwaysSteps : Prop :=
  ∀ s : State, s.params.Unbounded → (∀ a, s.pending.head? = some a → actionWellTyped a = true) → StepsOn s

/-- R8: a bounded instance refuses a command whose operands exceed its bounds, and one whose results, as the same command
computes them without bounds, exceed them; every other command does what it does without bounds. The bounds are on
naturals and on lengths; what they say of the parts of a BitVector or a table is the model's choice
(notes/assumptions/3.md). -/
def Obligations.BoundedInstanceRefusesBeyondBounds : Prop :=
  ∀ (i : Instr) (s : State),
    (exec i s = .refused .exceedsBounds ∨ ∃ t, exec i s = .next t) ∧
    ((∃ r ∈ readsOf i, ∃ v, s.read r = some v ∧ valueFits s.params v = false) →
      exec i s = .refused .exceedsBounds) ∧
    (∀ t, exec i s = .next t → errField t.status = 0 →
      ∀ r ∈ writesOf i, ∀ v, t.read r = some v → valueFits s.params v = true) ∧
    (OperandsInBounds i s → ∀ u t, u = { s with params := { s.params with maxSeq := none, maxNat := none } } →
      exec i u = .next t →
      (errField t.status = 0 → (∃ r ∈ writesOf i, ∃ v, t.read r = some v ∧ valueFits s.params v = false) →
        exec i s = .refused .exceedsBounds) ∧
      ((errField t.status ≠ 0 ∨ ∀ r ∈ writesOf i, ∀ v, t.read r = some v → valueFits s.params v = true) →
        exec i s = .next { t with params := s.params })) ∧
    (∀ n, valueFits s.params (CHAR := Char) (.nat n) = true ↔ ∀ m, s.params.maxNat = some m → n ≤ m) ∧
    (∀ b, valueFits s.params (CHAR := Char) (.bits b) = true ↔ ∀ m, s.params.maxSeq = some m → b.length ≤ m) ∧
    (∀ f, valueFits s.params (CHAR := Char) (.bytes f) = true ↔ ∀ m, s.params.maxSeq = some m → f.length ≤ m) ∧
    (∀ x : Text, valueFits s.params (.text x) = true ↔ ∀ m, s.params.maxSeq = some m → x.length ≤ m)

/-! ## BitVector -/

/-- R12: the numeric primitives, and the decimal numerals over any characters of R6; then the characters that the host
interface's `Char` has for them (notes/assumptions/7.md). -/
def Obligations.NumeralPrimitivesAreExact : Prop :=
  (∀ s : Bits, val s = ∑ i ∈ Finset.range s.length, (if s[i]? = some true then 2 ^ (s.length - 1 - i) else 0)) ∧
  (∀ v, 1 ≤ v → val (bin v) = v ∧ (bin v).head? = some true ∧ ∀ s : Bits, val s = v → (bin v).length ≤ s.length) ∧
  bin 0 = [false] ∧
  (∀ v, (bin v).length = max 1 (Nat.log 2 v + 1)) ∧
  (∀ n (s : Bits), (s.length < n → pad n s = List.replicate (n - s.length) false ++ s) ∧ (n ≤ s.length → pad n s = s)) ∧
  (∀ n, 1 ≤ n → n ≤ 2 ^ ceilLog2 n ∧ ∀ w, n ≤ 2 ^ w → ceilLog2 n ≤ w) ∧
  ceilLog2 0 = 0 ∧
  (∀ (CHAR : Type) [DecidableEq CHAR] (C : CharSet CHAR),
    (∀ v, decValue C (dec C v) = v ∧ (dec C v).all (isDecDigit C) = true ∧
      (v ≠ 0 → (dec C v).head? ≠ some (C.digit 0))) ∧
    (∀ d : Fin 10, dec C d = [C.digit d]) ∧ ∀ c, isDecDigit C c = true ↔ ∃ d, c = C.digit d) ∧
  List.ofFn charSet.digit = ['0', '1', '2', '3', '4', '5', '6', '7', '8', '9']

/-- R74, R75: a source that fits is rendered at exactly `size` bits, a longer one is kept whole, and no value is lost; and
R76's four laws (`BitVectorLaws`), over any characters of R6. -/
def Obligations.RenderingPadsAndNeverTruncates : Prop :=
  (∀ size v, (toBitString (bvFromInt size v)).length = max size (bin v).length ∧ toInteger (bvFromInt size v) = v ∧
    (size ≤ (bin v).length → toBitString (bvFromInt size v) = bin v)) ∧
  ∀ (CHAR : Type) [DecidableEq CHAR] (C : CharSet CHAR),
    (∀ size (s : Text CHAR), (∀ c ∈ s, c = C.digit 0 ∨ c = C.digit 1) → ∃ x, bvFromString C size s = .ok x ∧
      x.size = size ∧ (toBitString x).length = max size s.length ∧
      (s.length ≤ size →
        toBitString x = List.replicate (size - s.length) false ++ s.map (fun c => decide (c = C.digit 1))) ∧
      (size ≤ s.length → toBitString x = s.map (fun c => decide (c = C.digit 1))) ∧
      toInteger x = val (s.map fun c => decide (c = C.digit 1))) ∧
    BitVectorLaws C ∧
    (∀ size v, bvFromString C size (chars C (bin v)) = .ok (bvFromInt size v)) ∧
    ∀ b : Bits, chars C b = b.map fun x => if x then C.digit 1 else C.digit 0

/-- BV_FROM_STR (R70). -/
def Obligations.BvFromStrBuildsThePaddedLiteral : Prop :=
  encode .bvFromStr = 0x00000001 ∧
  ∀ s, OperandsInBounds .bvFromStr s →
    (s.aSize = none ∨ s.aStr = none → FailsWith .bvFromStr s .operandUnset) ∧
    ∀ n t, s.aSize = some n → s.aStr = some t →
      ((∃ c ∈ t, c ≠ '0' ∧ c ≠ '1') → FailsWith .bvFromStr s .malformedBitLiteral) ∧
      ((∀ c ∈ t, c = '0' ∨ c = '1') →
        ∀ x : BitVector, x = { size := n, rep := List.replicate (n - t.length) false ++ t.map (· == '1') } →
          ResultsInBounds s { bv := some x } →
          exec .bvFromStr s = .next { s with bv := some x, status := doneStatus s })

/-- BV_FROM_INT (R71). -/
def Obligations.BvFromIntBuildsThePaddedNumeral : Prop :=
  encode .bvFromInt = 0x00000002 ∧
  ∀ s, OperandsInBounds .bvFromInt s →
    (s.aSize = none ∨ s.aInt = none → FailsWith .bvFromInt s .operandUnset) ∧
    ∀ n v, s.aSize = some n → s.aInt = some v →
      ∀ x : BitVector, x = { size := n, rep := List.replicate (n - (bin v).length) false ++ bin v } →
        ResultsInBounds s { bv := some x } →
        exec .bvFromInt s = .next { s with bv := some x, status := doneStatus s }

/-- BV_TO_STR and BV_TO_INT (R72, R73). -/
def Obligations.BvViewsReadTheRendering : Prop :=
  encode .bvToStr = 0x00000003 ∧ encode .bvToInt = 0x00000004 ∧
  (∀ s, OperandsInBounds .bvToStr s →
    (s.bv = none → FailsWith .bvToStr s .operandUnset) ∧
    ∀ x, s.bv = some x → ResultsInBounds s { rBits := some x.rep } →
      exec .bvToStr s = .next { s with rBits := some x.rep, status := doneStatus s }) ∧
  (∀ s, OperandsInBounds .bvToInt s →
    (s.bv = none → FailsWith .bvToInt s .operandUnset) ∧
    ∀ x, s.bv = some x → ResultsInBounds s { rInt := some (val x.rep) } →
      exec .bvToInt s = .next { s with rInt := some (val x.rep), status := doneStatus s })

/-! ## ByteFramer -/

/-- FRM_PACK (R80). -/
def Obligations.FrmPackWritesTheFrame : Prop :=
  encode .frmPack = 0x00000010 ∧
  ∀ s, OperandsInBounds .frmPack s →
    (s.aBits = none → FailsWith .frmPack s .operandUnset) ∧
    ∀ b, s.aBits = some b → ResultsInBounds s { rBytes := some (pack b) } →
      exec .frmPack s = .next { s with rBytes := some (pack b), status := doneStatus s }

/-- FRM_UNPACK (R81), with R79's bits of each kind of frame. -/
def Obligations.FrmUnpackWritesThePayload : Prop :=
  encode .frmUnpack = 0x00000011 ∧
  ∀ s, OperandsInBounds .frmUnpack s →
    (s.aBytes = none → FailsWith .frmUnpack s .operandUnset) ∧
    (∀ f, s.aBytes = some f → wellFormedFrame f = false → FailsWith .frmUnpack s .corruptFrame) ∧
    (∀ (body : Bytes) (p : Bits), s.aBytes = some (0 :: body) → p = body.flatMap (fun x => pad 8 (bin x.toNat)) →
      ResultsInBounds s { rBits := some p } →
      exec .frmUnpack s = .next { s with rBits := some p, status := doneStatus s }) ∧
    (∀ (tail : Byte) (body : Bytes) (last : Byte) (p : Bits), s.aBytes = some (tail :: (body ++ [last])) →
      1 ≤ tail.toNat → tail.toNat ≤ 7 →
      p = body.flatMap (fun x => pad 8 (bin x.toNat)) ++ pad tail.toNat (bin last.toNat) →
      ResultsInBounds s { rBits := some p } →
      exec .frmUnpack s = .next { s with rBits := some p, status := doneStatus s })

/-- R77: `unpack` gives a payload exactly for the well-formed frames, and CorruptFrame otherwise. -/
def Obligations.UnpackAcceptsExactlyWellFormedFrames : Prop :=
  ∀ f : Bytes,
    (wellFormedFrame f = true ↔ 1 ≤ f.length ∧ (f.headD 0).toNat ≤ 7 ∧ (f.headD 0 = 0 ∨ 2 ≤ f.length)) ∧
    (wellFormedFrame f = true → ∃ b, unpack f = .ok b) ∧
    (wellFormedFrame f = false → unpack f = .error .corruptFrame)

/-- 30_encoding.md R56: each byte of a frame. -/
def Obligations.FrameLayoutIsAsTabled : Prop :=
  ∀ b : Bits, ∀ n tail g, n = b.length → tail = n % 8 → g = n / 8 →
    (pack b).length = 1 + g + (if tail > 0 then 1 else 0) ∧
    (∃ x, (pack b)[0]? = some x ∧ x.toNat = tail) ∧
    (∀ k, k < g → ∃ x, (pack b)[1 + k]? = some x ∧ x.toNat = val ((b.drop (8 * k)).take 8)) ∧
    (tail > 0 → ∃ x, (pack b)[1 + g]? = some x ∧ x.toNat = val (b.drop (8 * g))) ∧
    n = (if tail = 0 then 8 * ((pack b).length - 1) else 8 * ((pack b).length - 2) + tail)

/-- R82, R83: unpacking a packed bit-string gives it back; packing an unpacked frame gives it back exactly if the final
partial byte has no bit above the tail. -/
def Obligations.PackAndUnpackAreInverse : Prop :=
  (∀ b : Bits, unpack (pack b) = .ok b) ∧
  ∀ (f : Bytes), wellFormedFrame f = true →
    ∃ b, unpack f = .ok b ∧
      (((f.headD 0).toNat > 0 → (f.getLastD 0).toNat < 2 ^ (f.headD 0).toNat) → pack b = f) ∧
      ((f.headD 0).toNat > 0 → 2 ^ (f.headD 0).toNat ≤ (f.getLastD 0).toNat → pack b ≠ f)

/-! ## CodeTable -/

/-- R84 to R86: the forward view, where the symbols are distinct (R18), is the entries; in the inverse views a later entry
replaces an earlier one; and the two engines' dictionaries start from them (R117). -/
def Obligations.InverseViewsKeepTheLaterEntry : Prop :=
  ∀ (CHAR : Type) [DecidableEq CHAR] (t : CodeTable CHAR),
    ((t.entries.map (·.1)).Nodup → ∀ c x, code t c = some x ↔ (c, x) ∈ t.entries) ∧
    (∀ c, hasSymbol t c = true ↔ c ∈ t.entries.map (·.1)) ∧
    (∀ (b : Bits) c, invBits t b = some c ↔
      ∃ (before : List (CHAR × BitVector)) (x : BitVector) (after : List (CHAR × BitVector)),
        t.entries = before ++ (c, x) :: after ∧ x.rep = b ∧ ∀ e ∈ after, e.2.rep ≠ b) ∧
    (∀ k o, (invNum t).lookup k = some o ↔
      ∃ (before : List (CHAR × BitVector)) (c : CHAR) (x : BitVector) (after : List (CHAR × BitVector)),
        t.entries = before ++ (c, x) :: after ∧ o = [c] ∧ val x.rep = k ∧
        ∀ e ∈ after, val e.2.rep ≠ k) ∧
    (∀ c, (seedDict t).lookup [c] = (code t c).map fun x => val x.rep) ∧
    ∀ o : Text CHAR, o.length ≠ 1 → (seedDict t).lookup o = none

/-- R91, R92: the frequency scan. -/
def Obligations.FreqScanCountsEachSymbolOnce : Prop :=
  ∀ (CHAR : Type) [DecidableEq CHAR] (text : Text CHAR),
    (∀ c k, (c, k) ∈ freqScan text ↔ c ∈ text ∧ k = text.count c) ∧
    ((freqScan text).map (·.1)).Nodup ∧
    (freqScan text).Pairwise (fun x y => text.idxOf x.1 < text.idxOf y.1) ∧
    (text = [] → freqScan text = []) ∧
    (∀ e ∈ freqScan text, 1 ≤ e.2) ∧
    ((freqScan text).map (·.2)).sum = text.length

/-- R93 under `FirstOccurrence` (R7): descending counts, equal counts in first-occurrence order. -/
def Obligations.FirstOccurrenceOrderIsStable : Prop :=
  (∀ s : State, s.params.tieOrder = .firstOccurrence → s.tieKey = fun _ => 0) ∧
  ∀ (CHAR : Type) [DecidableEq CHAR] (text : Text CHAR),
    (sortedFreq (fun _ => 0) text).Perm (freqScan text) ∧
    (sortedFreq (fun _ => 0) text).Pairwise fun x y =>
      y.2 < x.2 ∨ (x.2 = y.2 ∧ text.idxOf x.1 < text.idxOf y.1)

/-- R7, R93 under `Oracle`: whatever the draw, the list is the scan by descending count, and every permutation of the runs
of equal counts is the order of some draw. -/
def Obligations.OracleCoversEveryTieOrder : Prop :=
  ∀ (CHAR : Type) [DecidableEq CHAR] (text : Text CHAR),
    (∀ key, (sortedFreq key text).Perm (freqScan text) ∧ (sortedFreq key text).Pairwise fun x y => y.2 ≤ x.2) ∧
    ∀ l, l.Perm (freqScan text) → (l.Pairwise fun x y => y.2 ≤ x.2) → ∃ key, sortedFreq key text = l

/-- R94: the fixed-width table: rank codes at width `ceilLog2(n)`, with its boundary cases. -/
def Obligations.FixedWidthTableNumbersTheRanks : Prop :=
  ∀ (CHAR : Type) [DecidableEq CHAR] (key : CHAR → Nat) (text : Text CHAR) (n w : Nat),
    n = (sortedFreq key text).length → w = ceilLog2 n →
    (fixedWidthTable key text).codeWidth = some w ∧
    (fixedWidthTable key text).entries.length = n ∧
    (∀ i c k, (sortedFreq key text)[i]? = some (c, k) →
      (fixedWidthTable key text).entries[i]? = some (c, BitVector.mk w (pad w (bin i)))) ∧
    (2 ≤ n → ∀ e ∈ (fixedWidthTable key text).entries, e.2.rep.length = w) ∧
    (n = 1 → w = 0 ∧ ∀ e ∈ (fixedWidthTable key text).entries, e.2.rep = [false]) ∧
    (text = [] → fixedWidthTable key text = { codeWidth := some 0, entries := [] })

/-- R95 to R98: the list starts as the leaves of the sorted scan; a merge takes the last two nodes, the last but one as
0-child, and puts the new node before every node of no higher frequency; merges go on while there is more than one node;
the root's frequency is the length of the text; the entries are the root's leaves, those under the 0-child first, each
with its path from the root, the root's edge first; and the tables of no, one and two symbols. -/
def Obligations.HuffmanTreeIsMergedAsWritten : Prop :=
  (∀ (CHAR : Type) (l : List (HuffNode CHAR)) (x y : HuffNode CHAR) (f : Nat),
    l.Pairwise (fun a b => nodeFreq b ≤ nodeFreq a) → f = nodeFreq x + nodeFreq y →
    ∃ before after, l = before ++ after ∧ (∀ n ∈ before, f < nodeFreq n) ∧ (∀ n ∈ after, nodeFreq n ≤ f) ∧
      mergeStep (l ++ [x, y]) = before ++ HuffNode.inner f x y :: after) ∧
  (∀ (CHAR : Type) (l : List (HuffNode CHAR)) (n : Nat),
    (1 < l.length → mergeAll (n + 1) l = mergeAll n (mergeStep l)) ∧ (l.length ≤ 1 → mergeAll n l = l)) ∧
  (∀ (CHAR : Type) (c : CHAR) (f : Nat) (z o : HuffNode CHAR) (p : Bits),
    assignCodes (.leaf c f) p = [(c, p)] ∧
    assignCodes (.inner f z o) p = assignCodes z (p ++ [false]) ++ assignCodes o (p ++ [true])) ∧
  ∀ (CHAR : Type) [DecidableEq CHAR] (key : CHAR → Nat) (text : Text CHAR) (start : List (HuffNode CHAR)),
    start = startNodes key text →
    start = (sortedFreq key text).map (fun e => HuffNode.leaf e.1 e.2) ∧
    (text ≠ [] → ∃ root, mergeAll start.length start = [root] ∧ nodeFreq root = text.length) ∧
    (∀ f z o, mergeAll start.length start = [.inner f z o] → huffmanTable key text =
      { codeWidth := none, entries := (assignCodes (.inner f z o) []).map fun e => (e.1, BitVector.mk e.2.length e.2) }) ∧
    (text = [] → huffmanTable key text = { codeWidth := none, entries := [] }) ∧
    (∀ c, text ≠ [] → (∀ x ∈ text, x = c) →
      huffmanTable key text = { codeWidth := none, entries := [(c, { size := 1, rep := [false] })] }) ∧
    ∀ a b m n, sortedFreq key text = [(a, m), (b, n)] →
      huffmanTable key text =
        { codeWidth := none, entries := [(a, { size := 1, rep := [false] }), (b, { size := 1, rep := [true] })] }

/-- R106 item 1: no code of a Huffman table begins another, and every code has at least one bit. -/
def Obligations.HuffmanCodesArePrefixFree : Prop :=
  ∀ (CHAR : Type) [DecidableEq CHAR] (key : CHAR → Nat) (text : Text CHAR) (a b : CHAR) (x y : BitVector),
    (a, x) ∈ (huffmanTable key text).entries → (b, y) ∈ (huffmanTable key text).entries →
      1 ≤ x.rep.length ∧ (a ≠ b → ¬ BeginsWith x.rep y.rep)

/-- R88, R18, R89: each strategy's table has exactly the distinct characters of the text, each once; only the fixed-width
strategies declare a width. -/
def Obligations.BuiltTablesHoldTheTextsSymbols : Prop :=
  ∀ (CHAR : Type) [DecidableEq CHAR] (key : CHAR → Nat) (text : Text CHAR),
    TableLegal (fixedWidthTable key text) ∧ TableLegal (huffmanTable key text) ∧
    (∀ c, hasSymbol (fixedWidthTable key text) c = true ↔ c ∈ text) ∧
    (∀ c, hasSymbol (huffmanTable key text) c = true ↔ c ∈ text) ∧
    (fixedWidthTable key text).entries.length = text.dedup.length ∧
    (huffmanTable key text).entries.length = text.dedup.length ∧
    (fixedWidthTable key text).codeWidth.isSome = true ∧ (huffmanTable key text).codeWidth = none

/-- TBL_BUILD_FW and TBL_BUILD_LZW (R99, R101): both write the fixed-width table, in first-occurrence order under
`FirstOccurrence` and in the order of one draw under `Oracle`. -/
def Obligations.TblBuildFwAndLzwWriteTheRankTable : Prop :=
  encode .tblBuildFw = 0x00000020 ∧ encode .tblBuildLzw = 0x00000022 ∧
  ∀ i s, i = .tblBuildFw ∨ i = .tblBuildLzw → OperandsInBounds i s →
    (s.aText = none → FailsWith i s .operandUnset) ∧
    ∀ t key, s.aText = some t → key = s.tieKey →
      (s.params.tieOrder = .firstOccurrence → key = fun _ => 0) ∧
        (ResultsInBounds s { tbl := some (fixedWidthTable key t) } →
          exec i s = .next { s with tbl := some (fixedWidthTable key t), status := doneStatus s })

/-- TBL_BUILD_HUF (R100). -/
def Obligations.TblBuildHufWritesTheHuffmanTable : Prop :=
  encode .tblBuildHuf = 0x00000021 ∧
  ∀ s, OperandsInBounds .tblBuildHuf s →
    (s.aText = none → FailsWith .tblBuildHuf s .operandUnset) ∧
    ∀ t key, s.aText = some t → key = s.tieKey →
      (s.params.tieOrder = .firstOccurrence → key = fun _ => 0) ∧
        (ResultsInBounds s { tbl := some (huffmanTable key t) } →
          exec .tblBuildHuf s = .next { s with tbl := some (huffmanTable key t), status := doneStatus s })

/-- TBL_SAVE (R103), with the text of R102. -/
def Obligations.TblSaveWritesTheTableText : Prop :=
  encode .tblSave = 0x00000028 ∧
  ∀ s, OperandsInBounds .tblSave s →
    (s.tbl = none → FailsWith .tblSave s .operandUnset) ∧
    ∀ (t : CodeTable) (body out : Text), s.tbl = some t →
      body = t.entries.flatMap (fun e => [e.1, ':'] ++ e.2.rep.map (fun b => if b then '1' else '0') ++ ['\n']) →
      (∀ w, t.codeWidth = some w → out = ['s', 'i', 'z', 'e', ':'] ++ dec charSet w ++ ['\n'] ++ body) →
      (t.codeWidth = none → out = body) → ResultsInBounds s { rStr := some out } →
      exec .tblSave s = .next { s with rStr := some out, status := doneStatus s }

/-- TBL_LOAD (R105). -/
def Obligations.TblLoadWritesTheParsedTable : Prop :=
  encode .tblLoad = 0x00000029 ∧
  ∀ s, OperandsInBounds .tblLoad s →
    (s.aStr = none → FailsWith .tblLoad s .operandUnset) ∧
    ∀ text, s.aStr = some text →
      (∀ t, deserialize charSet text = .ok t → ResultsInBounds s { tbl := some t } →
        exec .tblLoad s = .next { s with tbl := some t, status := doneStatus s }) ∧
      (∀ e, deserialize charSet text = .error e →
        (e = .corruptCodeTable ∨ e = .malformedBitLiteral) ∧ FailsWith .tblLoad s e)

/-- R104: the lines of a text, with or without a final newline; the size line, which only the first line may be; and the
entry lines one by one: the separator, then a duplicate symbol, then the code, so that the first failing line decides. -/
def Obligations.DeserializeReadsLineByLine : Prop :=
  ∀ (CHAR : Type) [DecidableEq CHAR] (C : CharSet CHAR),
    (∀ lines : List (Text CHAR), (∀ l ∈ lines, C.newline ∉ l) →
      tableLines C (lines.flatMap (· ++ [C.newline])) = lines ∧
      ∀ l, l ≠ [] → C.newline ∉ l → tableLines C (lines.flatMap (· ++ [C.newline]) ++ l) = lines ++ [l]) ∧
    (∀ t, tableLines C t = [] → deserialize C t = .ok { codeWidth := none, entries := [] }) ∧
    (∀ t line lines, tableLines C t = line :: lines →
      (∀ d, line = C.letterS :: C.letterI :: C.letterZ :: C.letterE :: C.colon :: d →
        ((d = [] ∨ ∃ c ∈ d, isDecDigit C c = false) → deserialize C t = .error .corruptCodeTable) ∧
        (d ≠ [] → (∀ c ∈ d, isDecDigit C c = true) →
          deserialize C t = (parseEntries C [] lines).map fun e => { codeWidth := some (decValue C d), entries := e })) ∧
      ((∀ d, line ≠ C.letterS :: C.letterI :: C.letterZ :: C.letterE :: C.colon :: d) →
        deserialize C t = (parseEntries C [] (line :: lines)).map fun e => { codeWidth := none, entries := e })) ∧
    (∀ e, parseEntries C e [] = .ok e) ∧
    ∀ (e : List (CHAR × BitVector)) (ln : Text CHAR) (lines : List (Text CHAR)),
      (ln.length < 2 ∨ ln[1]? ≠ some C.colon → parseEntries C e (ln :: lines) = .error .corruptCodeTable) ∧
      ∀ c s, ln = c :: C.colon :: s →
        (c ∈ e.map (·.1) → parseEntries C e (ln :: lines) = .error .corruptCodeTable) ∧
        (c ∉ e.map (·.1) → (∃ d ∈ s, d ≠ C.digit 0 ∧ d ≠ C.digit 1) →
          parseEntries C e (ln :: lines) = .error .malformedBitLiteral) ∧
        (c ∉ e.map (·.1) → (∀ d ∈ s, d = C.digit 0 ∨ d = C.digit 1) →
          parseEntries C e (ln :: lines) =
            parseEntries C (e ++ [(c, { size := s.length, rep := s.map fun d => decide (d = C.digit 1) })]) lines)

/-- R106 item 3: loading a saved table gives its width and its entries back, each with its rendering's length as size,
if no symbol is a newline. -/
def Obligations.LoadInvertsSave : Prop :=
  ∀ (CHAR : Type) [DecidableEq CHAR] (C : CharSet CHAR) (t : CodeTable CHAR),
    (t.entries.map (·.1)).Nodup → (∀ e ∈ t.entries, e.1 ≠ C.newline) →
    deserialize C (serialize C t) =
      .ok { codeWidth := t.codeWidth, entries := t.entries.map fun e => (e.1, { size := e.2.rep.length, rep := e.2.rep }) }

/-! ## FixedWidthCodec and HuffmanCodec -/

/-- FW_ENCODE and HUF_ENCODE (R109, R113): the codes of the characters in text order, and their frame. -/
def Obligations.TableEncodersJoinTheCodes : Prop :=
  encode .fwEncode = 0x00000030 ∧ encode .hufEncode = 0x00000040 ∧
  ∀ i s, i = .fwEncode ∨ i = .hufEncode → OperandsInBounds i s →
    (s.tbl = none ∨ s.aText = none → FailsWith i s .operandUnset) ∧
    ∀ t text, s.tbl = some t → s.aText = some text →
      ((∃ c ∈ text, code t c = none) → FailsWith i s .unknownSymbol) ∧
      ∀ (codes : List BitVector) (p : Bits), text.map (code t) = codes.map some → p = codes.flatMap (·.rep) →
        ResultsInBounds s { rBits := some p, rBytes := some (pack p) } →
        exec i s = .next { s with rBits := some p, rBytes := some (pack p), status := doneStatus s }

/-- FW_DECODE (R110). -/
def Obligations.FwDecodeWritesPayloadAndText : Prop :=
  encode .fwDecode = 0x00000031 ∧
  ∀ s, OperandsInBounds .fwDecode s →
    (s.tbl = none ∨ s.aBytes = none → FailsWith .fwDecode s .operandUnset) ∧
    ∀ t f, s.tbl = some t → s.aBytes = some f →
      (wellFormedFrame f = false → FailsWith .fwDecode s .corruptFrame) ∧
      ∀ p, unpack f = .ok p → ResultsInBounds s { rBits := some p, rText := some (fwDecode t p) } →
        exec .fwDecode s = .next { s with rBits := some p, rText := some (fwDecode t p), status := doneStatus s }

/-- HUF_DECODE (R115). -/
def Obligations.HufDecodeWritesPayloadAndText : Prop :=
  encode .hufDecode = 0x00000041 ∧
  ∀ s, OperandsInBounds .hufDecode s →
    (s.tbl = none ∨ s.aBytes = none → FailsWith .hufDecode s .operandUnset) ∧
    ∀ t f, s.tbl = some t → s.aBytes = some f →
      (wellFormedFrame f = false → FailsWith .hufDecode s .corruptFrame) ∧
      ∀ p, unpack f = .ok p → ResultsInBounds s { rBits := some p, rText := some (hufDecode t p) } →
        exec .hufDecode s = .next { s with rBits := some p, rText := some (hufDecode t p), status := doneStatus s }

/-- R108: the payload is read in chunks of `max(width(T), 1)` bits, and a chunk that is no code is dropped. -/
def Obligations.FwDecodeReadsByChunks : Prop :=
  ∀ (CHAR : Type) (t : CodeTable CHAR) (b : Bits) (e : Nat), e = max (width t) 1 →
    fwDecode t [] = [] ∧
    (b ≠ [] → ∀ c, invBits t (b.take e) = some c → fwDecode t b = c :: fwDecode t (b.drop e)) ∧
    (b ≠ [] → invBits t (b.take e) = none → fwDecode t b = fwDecode t (b.drop e))

/-- R114: the shortest code at the read position is the next symbol; the scan ends where no code matches. -/
def Obligations.HufDecodeTakesTheShortestCode : Prop :=
  ∀ (CHAR : Type) (t : CodeTable CHAR) (b : Bits),
    (∀ n c, 1 ≤ n → n ≤ b.length → invBits t (b.take n) = some c →
      (∀ m, 1 ≤ m → m < n → invBits t (b.take m) = none) → hufDecode t b = c :: hufDecode t (b.drop n)) ∧
    ((∀ n, 1 ≤ n → n ≤ b.length → invBits t (b.take n) = none) → hufDecode t b = [])

/-- 30_encoding.md R55: the stream of a fixed-width table built from a text. -/
def Obligations.FixedWidthStreamHasOneCodeLength : Prop :=
  ∀ (CHAR : Type) [DecidableEq CHAR] (key : CHAR → Nat) (s text : Text CHAR)
    (t : CodeTable CHAR) (w : Nat) (b : Bits),
    t = fixedWidthTable key s → t.codeWidth = some w → encodeConcat t text = .ok b →
      (2 ≤ t.entries.length → b.length = text.length * w ∧
        ∀ k c, text[k]? = some c → ∃ x, code t c = some x ∧ (b.drop (k * w)).take w = x.rep) ∧
      (t.entries.length = 1 → w = 0 ∧ b = List.replicate text.length false)

/-- R111: the fixed-width round trip, for every text over the table's symbols, one symbol and no symbol included; and a
text is over the symbols of its own table. -/
def Obligations.FixedWidthRoundTrip : Prop :=
  ∀ (CHAR : Type) [DecidableEq CHAR] (key : CHAR → Nat) (s : Text CHAR),
    (∀ c ∈ s, hasSymbol (fixedWidthTable key s) c = true) ∧
    ∀ text : Text CHAR, (∀ c ∈ text, hasSymbol (fixedWidthTable key s) c = true) →
      ∃ b p, encodeConcat (fixedWidthTable key s) text = .ok b ∧ unpack (pack b) = .ok p ∧
        fwDecode (fixedWidthTable key s) p = text

/-- R116: the Huffman round trip, for every text over the table's symbols, one symbol and no symbol included. -/
def Obligations.HuffmanRoundTrip : Prop :=
  ∀ (CHAR : Type) [DecidableEq CHAR] (key : CHAR → Nat) (s : Text CHAR),
    (∀ c ∈ s, hasSymbol (huffmanTable key s) c = true) ∧
    ∀ text : Text CHAR, (∀ c ∈ text, hasSymbol (huffmanTable key s) c = true) →
      ∃ b p, encodeConcat (huffmanTable key s) text = .ok b ∧ unpack (pack b) = .ok p ∧
        hufDecode (huffmanTable key s) p = text

/-! ## LZWCodec -/

/-- LZW_ENCODE (R121): a text over the seed's symbols always has a payload, and `TBL` does not change. Then R120's scan,
turn by turn, over any symbols: the seed; the code for what remains; absorb where the extension is in the dictionary; and
otherwise emit at the effective width (R119), grow (R118) before registering the extension at the counter, and restart. -/
def Obligations.LzwEncodeWritesPayloadAndFrame : Prop :=
  encode .lzwEncode = 0x00000050 ∧
  (∀ s, OperandsInBounds .lzwEncode s →
    (s.tbl = none ∨ s.aText = none → FailsWith .lzwEncode s .operandUnset) ∧
    ∀ t text, s.tbl = some t → s.aText = some text →
      ((∃ c ∈ text, code t c = none) → FailsWith .lzwEncode s .unknownSymbol) ∧
      ((∀ c ∈ text, code t c ≠ none) → ∃ p, lzwEncode t text = .ok p ∧
        (ResultsInBounds s { rBits := some p, rBytes := some (pack p) } →
          exec .lzwEncode s = .next { s with rBits := some p, rBytes := some (pack p), status := doneStatus s }))) ∧
  (∀ (CHAR : Type) [DecidableEq CHAR] (t : CodeTable CHAR) (text : Text CHAR), (∀ c ∈ text, code t c ≠ none) →
    lzwEncode t text = (lzwCodes t text).map (fun codes => codes.flatMap fun p => pad p.2 (bin p.1)) ∧
    (text = [] → lzwCodes t text = .ok []) ∧
    ∀ c rest, text = c :: rest → lzwCodes t text = lzwScan (seedDict t) t.entries.length (width t) [c] rest) ∧
  ∀ (CHAR : Type) [DecidableEq CHAR] (d : List (Text CHAR × Nat)) (next w k : Nat) (cur : Text CHAR),
    d.lookup cur = some k →
    lzwScan d next w cur [] = .ok [(k, max w 1)] ∧
    ∀ c rest,
      (d.lookup (cur ++ [c]) ≠ none → lzwScan d next w cur (c :: rest) = lzwScan d next w (cur ++ [c]) rest) ∧
      (d.lookup (cur ++ [c]) = none → lzwScan d next w cur (c :: rest) =
        (lzwScan ((cur ++ [c], next) :: d) (next + 1) (if 2 ^ w ≤ next then w + 1 else w) [c] rest).map
          fun codes => (k, max w 1) :: codes)

/-- LZW_DECODE (R123). Then R122's loop, step by step, over any symbols: it ends where fewer bits than the effective width
are left; case (a), a known code; case (b), any other code (R124), which registers at the counter, whatever the code is;
the error where there is no conjecture; and grow (R118) after the step's registration. -/
def Obligations.LzwDecodeWritesPayloadAndText : Prop :=
  encode .lzwDecode = 0x00000051 ∧
  (∀ s, OperandsInBounds .lzwDecode s →
    (s.tbl = none ∨ s.aBytes = none → FailsWith .lzwDecode s .operandUnset) ∧
    ∀ t f, s.tbl = some t → s.aBytes = some f →
      (wellFormedFrame f = false → FailsWith .lzwDecode s .corruptFrame) ∧
      ∀ p, unpack f = .ok p →
        (∀ e, lzwDecode t p = .error e → FailsWith .lzwDecode s .unrepresentableCode) ∧
        ∀ text, lzwDecode t p = .ok text → ResultsInBounds s { rBits := some p, rText := some text } →
          exec .lzwDecode s = .next { s with rBits := some p, rText := some text, status := doneStatus s }) ∧
  (∀ (CHAR : Type) (t : CodeTable CHAR) (b : Bits),
    lzwDecode t b = (lzwSteps t b).map (fun reads => reads.flatMap (·.output)) ∧
    lzwSteps t b = lzwReads b.length (invNum t) t.entries.length (width t) [] b) ∧
  ∀ (CHAR : Type) (i : List (Nat × Text CHAR)) (next w e k : Nat) (conj : Text CHAR) (b : Bits),
    e = max w 1 → k = val (b.take e) →
    (b.length < e → ∀ f, lzwReads f i next w conj b = .ok []) ∧
    (e ≤ b.length →
      (∀ o, i.lookup k = some o → conj = [] → lzwReads b.length i next w conj b =
        (lzwReads (b.drop e).length i next (if 2 ^ w ≤ next then w + 1 else w) o (b.drop e)).map
          fun reads => LzwRead.mk k e o :: reads) ∧
      (∀ o, i.lookup k = some o → conj ≠ [] → lzwReads b.length i next w conj b =
        (lzwReads (b.drop e).length ((next, conj ++ o.take 1) :: i) (next + 1)
          (if 2 ^ w ≤ next + 1 then w + 1 else w) o (b.drop e)).map fun reads => LzwRead.mk k e o :: reads) ∧
      (i.lookup k = none → conj = [] → lzwReads b.length i next w conj b = .error .unrepresentableCode) ∧
      ∀ o, i.lookup k = none → conj ≠ [] → o = conj ++ conj.take 1 → lzwReads b.length i next w conj b =
        (lzwReads (b.drop e).length ((next, o) :: i) (next + 1) (if 2 ^ w ≤ next + 1 then w + 1 else w) o
          (b.drop e)).map fun reads => LzwRead.mk k e o :: reads)

/-- R124, R137: UnrepresentableCode arises exactly if the first code read is not in the seed. -/
def Obligations.OnlyTheFirstCodeCanBeUnrepresentable : Prop :=
  ∀ (CHAR : Type) (t : CodeTable CHAR) (b : Bits) (e : ErrorCode), lzwDecode t b = .error e ↔
    e = .unrepresentableCode ∧ max (width t) 1 ≤ b.length ∧
      ∀ x ∈ t.entries, val x.2.rep ≠ val (b.take (max (width t) 1))

/-- R126: on a built seed every emitted code fits the width it is emitted at. -/
def Obligations.LzwCodesFitTheirWidths : Prop :=
  ∀ (CHAR : Type) [DecidableEq CHAR] (key : CHAR → Nat) (s text : Text CHAR) (codes : List (Nat × Nat)),
    lzwCodes (fixedWidthTable key s) text = .ok codes →
      ∀ p ∈ codes, p.1 < 2 ^ p.2 ∧ (codeBits p.2 p.1).length = p.2

/-- R125, R60: for every table, the widths never decrease, and where every emitted code fits its width the decoder reads the
very codes the encoder emitted, at the same widths, step for step. On a built seed every code fits (R126). Without that
premise the law fails (`LzwLockstepFailsForForeignTables`, notes/assumptions/13.md). -/
def Obligations.LzwEngineWidthsAreInLockstep : Prop :=
  (∀ (CHAR : Type) [DecidableEq CHAR] (t : CodeTable CHAR) (text : Text CHAR) (codes : List (Nat × Nat)),
    lzwCodes t text = .ok codes →
      (codes.map (·.2)).Pairwise (· ≤ ·) ∧
      ((∀ p ∈ codes, p.1 < 2 ^ p.2) →
        ∃ reads, lzwSteps t (codes.flatMap fun p => codeBits p.2 p.1) = .ok reads ∧
          reads.map (fun r => (r.code, r.width)) = codes)) ∧
  ∀ (CHAR : Type) [DecidableEq CHAR] (key : CHAR → Nat) (s text : Text CHAR) (codes : List (Nat × Nat)),
    lzwCodes (fixedWidthTable key s) text = .ok codes →
      ∃ reads, lzwSteps (fixedWidthTable key s) (codes.flatMap fun p => codeBits p.2 p.1) = .ok reads ∧
        reads.map (fun r => (r.code, r.width)) = codes

/-- From R118 to R122 with R75, against R125's "any table": a loaded table whose codes are longer than its width is emitted
over-wide, and the decoder then reads another sequence of widths. DEDUCED (notes/assumptions/13.md). -/
def Obligations.LzwLockstepFailsForForeignTables : Prop :=
  ∃ (t : CodeTable) (text : Text) (codes : List (Nat × Nat)) (reads : List LzwRead), TableLegal t ∧
    lzwCodes t text = .ok codes ∧ lzwSteps t (codes.flatMap fun p => codeBits p.2 p.1) = .ok reads ∧
    reads.map (·.width) ≠ codes.map (·.2)

/-- R127: the LZW round trip, for every text over the seed's symbols. -/
def Obligations.LzwRoundTrip : Prop :=
  ∀ (CHAR : Type) [DecidableEq CHAR] (key : CHAR → Nat) (s : Text CHAR),
    (∀ c ∈ s, hasSymbol (fixedWidthTable key s) c = true) ∧
    ∀ text : Text CHAR, (∀ c ∈ text, hasSymbol (fixedWidthTable key s) c = true) →
      ∃ b p, lzwEncode (fixedWidthTable key s) text = .ok b ∧ unpack (pack b) = .ok p ∧
        lzwDecode (fixedWidthTable key s) p = .ok text
end

