-- ==== Sys2Proof/Laws/Bits.lean ====
section
/-! SUPPORT. The numeric primitives of R12, the characters of R6, and the renderings of R66 to R69 with the laws of R76: one
lemma per operation for what it does to lengths and values. -/

/-! ### The characters of R6 -/

namespace Sys2Proof

section CharSetFacts

variable {CHAR : Type} (C : CharSet CHAR)

theorem CharSet.digit_injective : Function.Injective C.digit :=
  List.nodup_ofFn.mp (List.nodup_append.mp C.distinct).1

@[simp] theorem CharSet.digit_inj {d e : Fin 10} : C.digit d = C.digit e ↔ d = e := C.digit_injective.eq_iff

theorem CharSet.digit_ne {c : CHAR} (h : c ∈ [C.colon, C.newline, C.letterS, C.letterI, C.letterZ, C.letterE]) (d : Fin 10) :
    C.digit d ≠ c :=
  (List.nodup_append.mp C.distinct).2.2 _ (List.mem_ofFn.mpr ⟨d, rfl⟩) c h

@[simp] theorem CharSet.digit_ne_colon (d : Fin 10) : C.digit d ≠ C.colon := C.digit_ne (by simp) d

@[simp] theorem CharSet.digit_ne_newline (d : Fin 10) : C.digit d ≠ C.newline := C.digit_ne (by simp) d

theorem CharSet.marks_nodup : [C.colon, C.newline, C.letterS, C.letterI, C.letterZ, C.letterE].Nodup :=
  (List.nodup_append.mp C.distinct).2.1

@[simp] theorem CharSet.colon_ne_newline : C.colon ≠ C.newline := by
  have := C.marks_nodup
  simp only [List.nodup_cons, List.mem_cons, not_or] at this
  exact this.1.1

/-- No letter of `size` is a newline. -/
theorem CharSet.letter_ne_newline {c : CHAR} (h : c ∈ [C.letterS, C.letterI, C.letterZ, C.letterE]) : c ≠ C.newline := by
  have := C.marks_nodup
  rintro rfl
  simp only [List.nodup_cons] at this
  exact this.2.1 h

/-- The two characters of a literal differ. -/
theorem CharSet.zero_ne_one : C.digit 0 ≠ C.digit 1 := by simp

end CharSetFacts

end Sys2Proof

namespace Sys2Proof.Machine

@[simp] theorem val_nil : val [] = 0 := rfl

@[simp] theorem val_cons (b : Bool) (s : Bits) : val (b :: s) = b.toNat * 2 ^ s.length + val s := rfl

theorem val_append (s t : Bits) : val (s ++ t) = val s * 2 ^ t.length + val t := by
  induction s with
  | nil => simp
  | cons b s ih =>
    rw [List.cons_append, val_cons, ih, val_cons, List.length_append, pow_add]
    ring

@[simp] theorem val_zeros (k : Nat) : val (List.replicate k false) = 0 := by
  induction k with
  | zero => rfl
  | succ k ih => simp [List.replicate_succ, ih]

theorem val_lt (s : Bits) : val s < 2 ^ s.length := by
  induction s with
  | nil => simp
  | cons b s ih => cases b <;> simp [pow_succ] <;> omega

@[simp] theorem length_bitsOf (w v : Nat) : (bitsOf w v).length = w := by
  induction w with
  | zero => rfl
  | succ w ih => simp [bitsOf, ih]

theorem val_bitsOf (w v : Nat) : val (bitsOf w v) = v % 2 ^ w := by
  induction w with
  | zero => simp [bitsOf, Nat.mod_one]
  | succ w ih =>
    rw [bitsOf, val_cons, ih, length_bitsOf, Nat.mod_pow_succ, Nat.toNat_testBit, Nat.add_comm, Nat.mul_comm]

theorem val_bitsOf_of_lt {w v : Nat} (h : v < 2 ^ w) : val (bitsOf w v) = v := by
  rw [val_bitsOf, Nat.mod_eq_of_lt h]

/-- Bit-strings of one length are told apart by their values. -/
theorem val_injective {s t : Bits} (hl : s.length = t.length) (hv : val s = val t) : s = t := by
  induction s generalizing t with
  | nil => exact (List.length_eq_zero_iff.mp hl.symm).symm
  | cons b s ih =>
    cases t with
    | nil => simp at hl
    | cons c t =>
      have hl' : s.length = t.length := by simpa using hl
      have hs := val_lt s
      have ht := val_lt t
      rw [val_cons, val_cons, hl'] at hv
      rw [hl'] at hs
      have hbc : b = c ∧ val s = val t := by
        cases b <;> cases c <;> simp at hv ⊢ <;> omega
      rw [hbc.1, ih hl' hbc.2]

theorem bitsOf_val (s : Bits) : bitsOf s.length (val s) = s :=
  val_injective (by simp) (val_bitsOf_of_lt (val_lt s))

theorem one_le_bitLength (v : Nat) : 1 ≤ bitLength v := by
  unfold bitLength; split <;> omega

theorem lt_two_pow_bitLength (v : Nat) : v < 2 ^ bitLength v := by
  unfold bitLength
  split
  · omega
  · exact Nat.lt_log2_self

theorem bitLength_le {v w : Nat} (hw : 1 ≤ w) (h : v < 2 ^ w) : bitLength v ≤ w := by
  unfold bitLength
  split
  · exact hw
  next hv => exact (Nat.log2_lt hv).mpr h

@[simp] theorem length_bin (v : Nat) : (bin v).length = bitLength v := by simp [bin]

@[simp] theorem val_bin (v : Nat) : val (bin v) = v := val_bitsOf_of_lt (lt_two_pow_bitLength v)

@[simp] theorem length_pad (n : Nat) (s : Bits) : (pad n s).length = max n s.length := by
  simp [pad]; omega

@[simp] theorem val_pad (n : Nat) (s : Bits) : val (pad n s) = val s := by
  simp [pad, val_append]

theorem pad_of_length_le {n : Nat} {s : Bits} (h : n ≤ s.length) : pad n s = s := by
  simp [pad, Nat.sub_eq_zero_of_le h]

/-- A number that fits a width of at least 1 is rendered at exactly that width. -/
theorem pad_bin {w v : Nat} (hw : 1 ≤ w) (h : v < 2 ^ w) : pad w (bin v) = bitsOf w v := by
  have hb := bitLength_le hw h
  refine val_injective (by simp; omega) ?_
  rw [val_pad, val_bin, val_bitsOf_of_lt h]

/-- A non-empty bit-string is its own value's numeral at its own length. -/
theorem pad_bin_val {s : Bits} (h : s ≠ []) : pad s.length (bin (val s)) = s := by
  rw [pad_bin (List.length_pos_iff.mpr h) (val_lt s), bitsOf_val]

theorem ceilLog2_le_iff {n w : Nat} : ceilLog2 n ≤ w ↔ n ≤ 2 ^ w := by
  unfold ceilLog2
  split
  next h =>
    have := Nat.one_le_two_pow (n := w)
    omega
  next h =>
    rw [Nat.succ_le_iff, Nat.log2_lt (by omega)]
    omega

theorem le_two_pow_ceilLog2 (n : Nat) : n ≤ 2 ^ ceilLog2 n := ceilLog2_le_iff.mp le_rfl

@[simp] theorem toBitString_bvFromInt (w v : Nat) : toBitString (bvFromInt w v) = pad w (bin v) := rfl

/-- R76, law 1: a numeral denotes its number, whatever the width. -/
@[simp] theorem toInteger_bvFromInt (w v : Nat) : toInteger (bvFromInt w v) = v := by
  simp [toInteger, bvFromInt, bvOfBits]

theorem toInteger_eq_val (x : BitVector) : toInteger x = val x.rep := rfl

@[simp] theorem toInteger_bvOfBits (n : Nat) (s : Bits) : toInteger (bvOfBits n s) = val s := by
  simp [toInteger, bvOfBits]

section Characters

variable {CHAR : Type} (C : CharSet CHAR)

/-! ### The characters of the host interface's `Char` (notes/assumptions/7.md) -/

@[simp] theorem charSet_zero : charSet.digit 0 = '0' := rfl
@[simp] theorem charSet_one : charSet.digit 1 = '1' := rfl
@[simp] theorem charSet_colon : charSet.colon = ':' := rfl
@[simp] theorem charSet_newline : charSet.newline = '\n' := rfl
@[simp] theorem charSet_letterS : charSet.letterS = 's' := rfl
@[simp] theorem charSet_letterI : charSet.letterI = 'i' := rfl
@[simp] theorem charSet_letterZ : charSet.letterZ = 'z' := rfl
@[simp] theorem charSet_letterE : charSet.letterE = 'e' := rfl

/-! ### Literals (R66) -/

theorem chars_are_bits (b : Bits) : ∀ c ∈ chars C b, c = C.digit 0 ∨ c = C.digit 1 := by
  intro c hc
  obtain ⟨x, -, rfl⟩ := List.mem_map.mp hc
  cases x <;> simp [charOfBit]

@[simp] theorem length_chars (b : Bits) : (chars C b).length = b.length := by simp [chars]

variable [DecidableEq CHAR] {C}

theorem isBitChar_iff {c : CHAR} : isBitChar C c = true ↔ c = C.digit 0 ∨ c = C.digit 1 := by simp [isBitChar]

theorem bvFromString_ok {n : Nat} {s : Text CHAR} (h : ∀ c ∈ s, c = C.digit 0 ∨ c = C.digit 1) :
    bvFromString C n s = .ok (bvOfBits n (bitsOfChars C s)) := by
  have : s.all (isBitChar C) = true := List.all_eq_true.mpr fun c hc => isBitChar_iff.mpr (h c hc)
  simp [bvFromString, this]

theorem bvFromString_error {n : Nat} {s : Text CHAR} (h : ∃ c ∈ s, c ≠ C.digit 0 ∧ c ≠ C.digit 1) :
    bvFromString C n s = .error .malformedBitLiteral := by
  obtain ⟨c, hc, h0, h1⟩ := h
  have : s.all (isBitChar C) = false := by
    rw [List.all_eq_false]
    exact ⟨c, hc, by simp [isBitChar_iff, h0, h1]⟩
  simp [bvFromString, this]

theorem bvFromString_eq_ok {n : Nat} {s : Text CHAR} {x : BitVector} (h : bvFromString C n s = .ok x) :
    x = bvOfBits n (bitsOfChars C s) := by
  unfold bvFromString at h
  split at h
  · exact (Except.ok.inj h).symm
  · cases h

theorem bvFromString_eq_error {n : Nat} {s : Text CHAR} {e : ErrorCode} (h : bvFromString C n s = .error e) :
    e = .malformedBitLiteral := by
  unfold bvFromString at h
  split at h
  · cases h
  · exact (Except.error.inj h).symm

@[simp] theorem bitsOfChars_chars (b : Bits) : bitsOfChars C (chars C b) = b := by
  induction b with
  | nil => rfl
  | cons x b ih =>
    simp only [bitsOfChars, chars, List.map_cons] at ih ⊢
    rw [ih]
    cases x <;> simp [charOfBit]

@[simp] theorem length_bitsOfChars (s : Text CHAR) : (bitsOfChars C s).length = s.length := by simp [bitsOfChars]

/-! ### The laws of R76; law 1 is `toInteger_bvFromInt` -/

/-- R76, law 2: a rendering is the literal of its own BitVector. -/
theorem bvFromString_chars_toBitString {x : BitVector} (h : x.size ≤ x.rep.length) :
    bvFromString C x.size (chars C (toBitString x)) = .ok x := by
  rw [bvFromString_ok (chars_are_bits C _), bitsOfChars_chars, toBitString, bvOfBits, pad_of_length_le h]

/-- R76, law 3: construction from a literal keeps its value. -/
theorem toInteger_bvFromString {n : Nat} {s : Text CHAR} {x : BitVector} (h : bvFromString C n s = .ok x) :
    toInteger x = val (bitsOfChars C s) := by
  rw [bvFromString_eq_ok h, toInteger_bvOfBits]

/-- R76, law 4: a number and the literal that is its numeral give one BitVector. -/
theorem bvFromString_chars_bin (n v : Nat) : bvFromString C n (chars C (bin v)) = .ok (bvFromInt n v) := by
  rw [bvFromString_ok (chars_are_bits C _), bitsOfChars_chars]
  rfl

/-- R76: the laws hold over any characters of R6. -/
theorem bitVectorLaws (C : CharSet CHAR) : BitVectorLaws C := by
  refine ⟨toInteger_bvFromInt, fun n x h hn => hn ▸ bvFromString_chars_toBitString h, fun n s h => ?_, fun n v => ?_⟩
  · rw [bvFromString_ok fun c hc => isBitChar_iff.mp (h c hc)]
    exact congrArg Except.ok (toInteger_bvOfBits n _)
  · rw [bvFromString_chars_bin]
    rfl

end Characters

end Sys2Proof.Machine
end

