-- ==== Sys2Proof/Laws/Table.lean ====
section
/-! SUPPORT. The table views (R84 to R90), the frequency model (R91 to R93) and the fixed-width table (R94). -/

namespace Sys2Proof.Machine

variable {CHAR : Type}

/-! ### Association lists -/

/-- With distinct keys, looking up is being an entry. -/
theorem lookup_eq_some_iff_mem {α β : Type} [BEq α] [LawfulBEq α] {l : List (α × β)} (h : (l.map (·.1)).Nodup)
    {a : α} {b : β} : l.lookup a = some b ↔ (a, b) ∈ l := by
  induction l with
  | nil => simp
  | cons e l ih =>
    obtain ⟨k, v⟩ := e
    rw [List.map_cons, List.nodup_cons] at h
    rw [List.lookup_cons]
    by_cases hk : a = k
    · subst hk
      have hn : ∀ x, (a, x) ∉ l := fun x hx => h.1 (List.mem_map.mpr ⟨_, hx, rfl⟩)
      simp [hn b, eq_comm]
    · have : (a == k) = false := by simp [hk]
      simp [this, ih h.2, hk]

/-- A lookup finds something exactly for the keys. -/
theorem lookup_isSome_iff {α β : Type} [BEq α] [LawfulBEq α] {l : List (α × β)} {a : α} :
    (l.lookup a).isSome = true ↔ a ∈ l.map (·.1) := by
  induction l with
  | nil => simp
  | cons e l ih =>
    obtain ⟨k, v⟩ := e
    rw [List.lookup_cons]
    by_cases hk : a = k
    · simp [hk]
    · have : (a == k) = false := by simp [hk]
      simp only [this, ih, List.map_cons, List.mem_cons, hk, false_or]

theorem hasSymbol_iff [DecidableEq CHAR] {t : CodeTable CHAR} {c : CHAR} :
    hasSymbol t c = true ↔ c ∈ t.entries.map (·.1) :=
  lookup_isSome_iff

theorem code_eq_some_iff [DecidableEq CHAR] {t : CodeTable CHAR} (h : (t.entries.map (·.1)).Nodup) {c : CHAR}
    {x : BitVector} :
    code t c = some x ↔ (c, x) ∈ t.entries := lookup_eq_some_iff_mem h

/-- A bit-string's inverse is an entry with that code. -/
theorem mem_of_invBits {t : CodeTable CHAR} {b : Bits} {c : CHAR} (h : invBits t b = some c) :
    ∃ x, (c, x) ∈ t.entries ∧ x.rep = b := by
  unfold invBits at h
  obtain ⟨⟨c', x⟩, he, rfl⟩ := Option.map_eq_some_iff.mp h
  refine ⟨x, List.mem_reverse.mp (List.mem_of_find?_eq_some he), ?_⟩
  simpa using List.find?_some he

/-- A bit-string has no inverse exactly if it is no entry's code. -/
theorem invBits_eq_none {t : CodeTable CHAR} {b : Bits} : invBits t b = none ↔ ∀ e ∈ t.entries, e.2.rep ≠ b := by
  simp [invBits, List.find?_eq_none]

/-- Where all codes differ, an entry's code leads back to its symbol. -/
theorem invBits_of_mem {t : CodeTable CHAR} (h : (t.entries.map (fun e => e.2.rep)).Nodup) {c : CHAR} {x : BitVector}
    (hm : (c, x) ∈ t.entries) : invBits t x.rep = some c := by
  cases hi : invBits t x.rep with
  | none => exact absurd rfl (invBits_eq_none.mp hi _ hm)
  | some d =>
    obtain ⟨y, hy, hr⟩ := mem_of_invBits hi
    have := List.inj_on_of_nodup_map h hy hm hr
    rw [(Prod.mk.inj this).1]

/-! ### The frequency model (R91 to R93) -/

theorem mem_firstOccurrences [DecidableEq CHAR] {c : CHAR} {text : Text CHAR} :
    c ∈ firstOccurrences text ↔ c ∈ text := by
  induction text with
  | nil => simp [firstOccurrences]
  | cons d text ih =>
    simp only [firstOccurrences, List.mem_cons, List.mem_filter, ih, ne_eq, decide_not, Bool.not_eq_true',
      decide_eq_false_iff_not]
    by_cases h : c = d <;> simp [h]

theorem nodup_firstOccurrences [DecidableEq CHAR] (text : Text CHAR) : (firstOccurrences text).Nodup := by
  induction text with
  | nil => exact List.nodup_nil
  | cons d text ih => exact List.nodup_cons.mpr ⟨by simp, ih.filter _⟩

@[simp] theorem freqScan_symbols [DecidableEq CHAR] (text : Text CHAR) :
    (freqScan text).map (·.1) = firstOccurrences text := by
  simp [freqScan, Function.comp_def]

theorem mem_freqScan [DecidableEq CHAR] {text : Text CHAR} {c : CHAR} {k : Nat} :
    (c, k) ∈ freqScan text ↔ c ∈ text ∧ k = text.count c := by
  simp only [freqScan, List.mem_map, mem_firstOccurrences, Prod.mk.injEq]
  constructor
  · rintro ⟨a, h, rfl, rfl⟩; exact ⟨h, rfl⟩
  · rintro ⟨h, rfl⟩; exact ⟨c, h, rfl, rfl⟩

/-- First occurrences stand in the order of their positions. -/
theorem pairwise_firstOccurrences [DecidableEq CHAR] (text : Text CHAR) :
    (firstOccurrences text).Pairwise fun c d => text.idxOf c < text.idxOf d := by
  induction text with
  | nil => exact List.Pairwise.nil
  | cons x text ih =>
    refine List.pairwise_cons.mpr ⟨fun d hd => ?_, ?_⟩
    · have : d ≠ x := by simpa using (List.mem_filter.mp hd).2
      simp [List.idxOf_cons_self, List.idxOf_cons_ne _ this.symm]
    · refine List.Pairwise.imp_of_mem (fun hc hd h => ?_) (ih.filter _)
      have h1 := (List.mem_filter.mp hc).2
      have h2 := (List.mem_filter.mp hd).2
      simp only [ne_eq, decide_not, Bool.not_eq_true', decide_eq_false_iff_not] at h1 h2
      rw [List.idxOf_cons_ne _ (Ne.symm h1), List.idxOf_cons_ne _ (Ne.symm h2)]
      omega

theorem freqBefore_iff {key : CHAR → Nat} {x y : CHAR × Nat} :
    freqBefore key x y = true ↔ y.2 < x.2 ∨ (x.2 = y.2 ∧ key x.1 ≤ key y.1) := by
  simp [freqBefore]

theorem freqBefore_total {key : CHAR → Nat} {x y : CHAR × Nat} (h : freqBefore key x y ≠ true) :
    freqBefore key y x = true := by
  rw [ne_eq, freqBefore_iff] at h
  rw [freqBefore_iff]
  omega

theorem freqBefore_trans {key : CHAR → Nat} {x y z : CHAR × Nat} (h1 : freqBefore key x y = true)
    (h2 : freqBefore key y z = true) : freqBefore key x z = true := by
  rw [freqBefore_iff] at *
  omega

theorem insertFreq_perm (key : CHAR → Nat) (x : CHAR × Nat) (l : List (CHAR × Nat)) :
    (insertFreq key x l).Perm (x :: l) := by
  induction l with
  | nil => exact List.Perm.refl _
  | cons y l ih =>
    unfold insertFreq
    split
    · exact List.Perm.refl _
    · exact (ih.cons y).trans (List.Perm.swap x y l)

theorem sortFreq_perm (key : CHAR → Nat) (l : List (CHAR × Nat)) : (sortFreq key l).Perm l := by
  induction l with
  | nil => exact List.Perm.refl _
  | cons x l ih => exact (insertFreq_perm key x _).trans (ih.cons x)

theorem insertFreq_sorted {key : CHAR → Nat} (x : CHAR × Nat) {l : List (CHAR × Nat)}
    (h : l.Pairwise fun a b => freqBefore key a b = true) :
    (insertFreq key x l).Pairwise fun a b => freqBefore key a b = true := by
  induction l with
  | nil => exact List.pairwise_singleton _ _
  | cons y l ih =>
    obtain ⟨hy, hl⟩ := List.pairwise_cons.mp h
    unfold insertFreq
    split
    next hxy =>
      refine List.pairwise_cons.mpr ⟨fun z hz => ?_, h⟩
      rcases List.mem_cons.mp hz with rfl | hz
      · exact hxy
      · exact freqBefore_trans hxy (hy z hz)
    next hxy =>
      refine List.pairwise_cons.mpr ⟨fun z hz => ?_, ih hl⟩
      rcases List.mem_cons.mp ((insertFreq_perm key x l).mem_iff.mp hz) with rfl | hz
      · exact freqBefore_total hxy
      · exact hy z hz

theorem sortFreq_sorted (key : CHAR → Nat) (l : List (CHAR × Nat)) :
    (sortFreq key l).Pairwise fun a b => freqBefore key a b = true := by
  induction l with
  | nil => exact List.Pairwise.nil
  | cons x l ih => exact insertFreq_sorted x ih

/-- A list that is already in order, strictly among equal keys or not, is what sorting any permutation of it gives, if no
two entries may stand both ways. -/
theorem sortFreq_unique {key : CHAR → Nat} {l m : List (CHAR × Nat)} (hp : l.Perm m)
    (hl : l.Pairwise fun a b => freqBefore key a b = true ∧ freqBefore key b a ≠ true) : sortFreq key m = l := by
  have hs := sortFreq_sorted key m
  have hpm : (sortFreq key m).Perm l := (sortFreq_perm key m).trans hp.symm
  refine List.Perm.eq_of_pairwise (fun a b ha hb h1 h2 => ?_) hs (hl.imp And.left) hpm
  have hb' := hb
  by_contra hne
  have ha' : a ∈ l := hpm.mem_iff.mp ha
  have key' := List.pairwise_iff_getElem.mp hl
  obtain ⟨i, hi, rfl⟩ := List.getElem_of_mem ha'
  obtain ⟨j, hj, rfl⟩ := List.getElem_of_mem hb'
  rcases lt_trichotomy i j with hij | rfl | hij
  · exact (key' i j hi hj hij).2 h2
  · exact hne rfl
  · exact (key' j i hj hi hij).2 h1

/-- Inserting an entry that stood before all the others keeps it before those of equal count. -/
theorem insertFreq_stable {r : CHAR × Nat → CHAR × Nat → Prop} {x : CHAR × Nat} {l : List (CHAR × Nat)}
    (h : l.Pairwise fun a b => b.2 < a.2 ∨ (a.2 = b.2 ∧ r a b)) (hx : ∀ y ∈ l, r x y) :
    (insertFreq (fun _ => 0) x l).Pairwise fun a b => b.2 < a.2 ∨ (a.2 = b.2 ∧ r a b) := by
  induction l with
  | nil => exact List.pairwise_singleton _ _
  | cons y l ih =>
    obtain ⟨hy, hl⟩ := List.pairwise_cons.mp h
    unfold insertFreq
    split
    next hxy =>
      rw [freqBefore_iff] at hxy
      refine List.pairwise_cons.mpr ⟨fun z hz => ?_, h⟩
      have hr := hx z hz
      have hzy : z.2 ≤ y.2 := by
        rcases List.mem_cons.mp hz with rfl | hz
        · exact le_rfl
        · have := hy z hz
          omega
      by_cases hzx : z.2 < x.2
      · exact .inl hzx
      · exact .inr ⟨by omega, hr⟩
    next hxy =>
      rw [freqBefore_iff] at hxy
      refine List.pairwise_cons.mpr ⟨fun z hz => ?_, ih hl fun z hz => hx z (List.mem_cons_of_mem _ hz)⟩
      rcases List.mem_cons.mp ((insertFreq_perm _ x l).mem_iff.mp hz) with rfl | hz
      · exact .inl (by omega)
      · exact hy z hz

/-- With all keys equal the sort is stable: entries of equal count keep the order they had. -/
theorem sortFreq_stable {r : CHAR × Nat → CHAR × Nat → Prop} {l : List (CHAR × Nat)} (h : l.Pairwise r) :
    (sortFreq (fun _ => 0) l).Pairwise fun a b => b.2 < a.2 ∨ (a.2 = b.2 ∧ r a b) := by
  induction l with
  | nil => exact List.Pairwise.nil
  | cons x l ih =>
    obtain ⟨hx, hl⟩ := List.pairwise_cons.mp h
    exact insertFreq_stable (ih hl) fun y hy => hx y ((sortFreq_perm _ l).mem_iff.mp hy)

theorem sortedFreq_perm [DecidableEq CHAR] (key : CHAR → Nat) (text : Text CHAR) :
    (sortedFreq key text).Perm (freqScan text) :=
  sortFreq_perm key _

theorem nodup_sortedFreq_symbols [DecidableEq CHAR] (key : CHAR → Nat) (text : Text CHAR) :
    ((sortedFreq key text).map (·.1)).Nodup := by
  rw [((sortedFreq_perm key text).map _).nodup_iff, freqScan_symbols]
  exact nodup_firstOccurrences text

theorem mem_sortedFreq_symbols [DecidableEq CHAR] {key : CHAR → Nat} {text : Text CHAR} {c : CHAR} :
    c ∈ (sortedFreq key text).map (·.1) ↔ c ∈ text := by
  rw [((sortedFreq_perm key text).map _).mem_iff, freqScan_symbols, mem_firstOccurrences]

/-! ### Rank codes (R94) -/

@[simp] theorem rankCodes_symbols (w k : Nat) (l : List (CHAR × Nat)) :
    (rankCodes w k l).map (·.1) = l.map (·.1) := by
  induction l generalizing k with
  | nil => rfl
  | cons e l ih => simp [rankCodes, ih]

@[simp] theorem length_rankCodes (w k : Nat) (l : List (CHAR × Nat)) : (rankCodes w k l).length = l.length := by
  induction l generalizing k with
  | nil => rfl
  | cons e l ih => simp [rankCodes, ih]

theorem getElem?_rankCodes (w k i : Nat) (l : List (CHAR × Nat)) :
    (rankCodes w k l)[i]? = l[i]?.map fun e => (e.1, bvFromInt w (k + i)) := by
  induction l generalizing k i with
  | nil => simp [rankCodes]
  | cons e l ih =>
    cases i with
    | zero => simp [rankCodes]
    | succ i => simp [rankCodes, ih, Nat.add_right_comm, Nat.add_assoc]

/-- The codes of a rank list are the renderings of the ranks. -/
theorem mem_rankCodes {w k : Nat} {l : List (CHAR × Nat)} {e : CHAR × BitVector} (h : e ∈ rankCodes w k l) :
    ∃ i, i < l.length ∧ e.2 = bvFromInt w (k + i) := by
  obtain ⟨i, hi⟩ := List.mem_iff_getElem?.mp h
  rw [getElem?_rankCodes] at hi
  obtain ⟨x, hx, rfl⟩ := Option.map_eq_some_iff.mp hi
  exact ⟨i, (List.getElem?_eq_some_iff.mp hx).1, rfl⟩

/-- The code numbers of a rank list are its ranks, in order. -/
theorem rankCodes_numbers (w k : Nat) (l : List (CHAR × Nat)) :
    (rankCodes w k l).map (fun e => toInteger e.2) = (List.range' k l.length) := by
  induction l generalizing k with
  | nil => rfl
  | cons e l ih => simp [rankCodes, ih, List.range'_succ]

/-- Different ranks have different renderings. -/
theorem nodup_rankCodes_reps (w k : Nat) (l : List (CHAR × Nat)) :
    ((rankCodes w k l).map (fun e => e.2.rep)).Nodup := by
  have h : ((rankCodes w k l).map (fun e => toInteger e.2)).Nodup := by
    rw [rankCodes_numbers]
    exact List.nodup_range'
  have hm : (rankCodes w k l).map (fun e => toInteger e.2) = ((rankCodes w k l).map (fun e => e.2.rep)).map val := by
    simp [Function.comp_def, toInteger]
  exact (hm ▸ h).of_map _

/-! ### The fixed-width table -/

@[simp] theorem fixedWidthTable_symbols [DecidableEq CHAR] (key : CHAR → Nat) (text : Text CHAR) :
    (fixedWidthTable key text).entries.map (·.1) = (sortedFreq key text).map (·.1) := by
  simp [fixedWidthTable]

theorem nodup_fixedWidthTable_symbols [DecidableEq CHAR] (key : CHAR → Nat) (text : Text CHAR) :
    ((fixedWidthTable key text).entries.map (·.1)).Nodup := by
  rw [fixedWidthTable_symbols]
  exact nodup_sortedFreq_symbols key text

theorem hasSymbol_fixedWidthTable [DecidableEq CHAR] {key : CHAR → Nat} {text : Text CHAR} {c : CHAR} :
    hasSymbol (fixedWidthTable key text) c = true ↔ c ∈ text := by
  rw [hasSymbol_iff, fixedWidthTable_symbols, mem_sortedFreq_symbols]

theorem tableSize_fixedWidthTable [DecidableEq CHAR] (key : CHAR → Nat) (text : Text CHAR) :
    tableSize (fixedWidthTable key text) = (sortedFreq key text).length := by
  simp [tableSize, fixedWidthTable]

theorem width_fixedWidthTable [DecidableEq CHAR] (key : CHAR → Nat) (text : Text CHAR) :
    width (fixedWidthTable key text) = ceilLog2 (tableSize (fixedWidthTable key text)) := by
  rw [tableSize_fixedWidthTable]
  rfl

/-- Every code of a fixed-width table is the numeral of its rank at the effective chunk width, at least one bit. -/
theorem rep_of_mem_fixedWidthTable [DecidableEq CHAR] {key : CHAR → Nat} {text : Text CHAR} {e : CHAR × BitVector}
    (h : e ∈ (fixedWidthTable key text).entries) :
    ∃ i, i < tableSize (fixedWidthTable key text) ∧
      e.2.rep = bitsOf (max (width (fixedWidthTable key text)) 1) i := by
  obtain ⟨i, hi, he⟩ := mem_rankCodes h
  rw [width_fixedWidthTable, tableSize_fixedWidthTable]
  refine ⟨i, hi, ?_⟩
  have hw : (sortedFreq key text).length ≤ 2 ^ ceilLog2 (sortedFreq key text).length := le_two_pow_ceilLog2 _
  have hlt : i < 2 ^ max (ceilLog2 (sortedFreq key text).length) 1 :=
    (lt_of_lt_of_le hi hw).trans_le (Nat.pow_le_pow_right (by norm_num) (le_max_left _ _))
  have hb : bitLength i ≤ max (ceilLog2 (sortedFreq key text).length) 1 := bitLength_le (le_max_right _ _) hlt
  rw [he, Nat.zero_add]
  refine val_injective ?_ ?_
  · have h1 := one_le_bitLength i
    simp only [bvFromInt, bvOfBits, length_pad, length_bin, length_bitsOf]
    omega
  · rw [val_bitsOf_of_lt hlt]
    simp [bvFromInt, bvOfBits]

theorem nodup_fixedWidthTable_reps [DecidableEq CHAR] (key : CHAR → Nat) (text : Text CHAR) :
    ((fixedWidthTable key text).entries.map (fun e => e.2.rep)).Nodup := nodup_rankCodes_reps _ _ _

end Sys2Proof.Machine
end

