-- ==== Sys2Proof/Laws/Codec.lean ====
section
/-! SUPPORT. The table encoders and decoders (R107, R108, R114): the decoders' loops without their fuel, one chunk or one
code at a time. -/

namespace Sys2Proof.Machine

variable {CHAR : Type}

/-! ### Encoding -/

theorem knownText_iff [DecidableEq CHAR] {t : CodeTable CHAR} {text : Text CHAR} :
    knownText t text = true ↔ ∀ c ∈ text, hasSymbol t c = true := by
  simp [knownText]

theorem encodeConcat_of_known [DecidableEq CHAR] {t : CodeTable CHAR} {text : Text CHAR}
    (h : ∀ c ∈ text, hasSymbol t c = true) :
    encodeConcat t text = .ok (text.flatMap (codeRep t)) := by
  simp [encodeConcat, knownText_iff.mpr h]

theorem encodeConcat_eq_ok [DecidableEq CHAR] {t : CodeTable CHAR} {text : Text CHAR} {b : Bits}
    (h : encodeConcat t text = .ok b) :
    (∀ c ∈ text, hasSymbol t c = true) ∧ b = text.flatMap (codeRep t) := by
  unfold encodeConcat at h
  split at h
  next hk => exact ⟨knownText_iff.mp hk, (Except.ok.inj h).symm⟩
  next => cases h

theorem encodeConcat_of_unknown [DecidableEq CHAR] {t : CodeTable CHAR} {text : Text CHAR}
    (h : ∃ c ∈ text, code t c = none) :
    encodeConcat t text = .error .unknownSymbol := by
  obtain ⟨c, hc, hn⟩ := h
  have : knownText t text = false := by
    rw [knownText, List.all_eq_false]
    exact ⟨c, hc, by simp [hasSymbol, hn]⟩
  simp [encodeConcat, this]

/-- A symbol of the table has an entry, whose rendering is its code. -/
theorem entry_of_hasSymbol [DecidableEq CHAR] {t : CodeTable CHAR} (hn : (t.entries.map (·.1)).Nodup) {c : CHAR}
    (h : hasSymbol t c = true) :
    ∃ x, (c, x) ∈ t.entries ∧ code t c = some x ∧ codeRep t c = x.rep := by
  obtain ⟨x, hx⟩ := Option.isSome_iff_exists.mp h
  exact ⟨x, (code_eq_some_iff hn).mp hx, hx, by simp [codeRep, hx, toBitString]⟩

/-! ### The fixed-width decoder (R108) -/

/-- More fuel than bits changes nothing. -/
theorem chunksOf_fuel {e : Nat} (he : 1 ≤ e) {f : Nat} {b : Bits} (h : b.length ≤ f) :
    chunksOf e f b = chunksOf e b.length b := by
  induction f using Nat.strong_induction_on generalizing b with
  | _ f ih =>
    cases f with
    | zero =>
      have : b = [] := List.length_eq_zero_iff.mp (by omega)
      subst this
      rfl
    | succ f =>
      cases b with
      | nil => simp [chunksOf]
      | cons x b =>
        have h1 : ((x :: b).drop e).length ≤ b.length := by simp only [List.length_drop, List.length_cons]; omega
        have h2 : b.length ≤ f := by simpa using h
        simp only [List.length_cons, chunksOf, reduceCtorEq, if_false, List.cons.injEq, true_and]
        rw [ih f (by omega) (h1.trans h2)]
        rcases Nat.lt_or_ge b.length f with hlt | hge
        · rw [ih b.length (by omega) h1]
        · have : b.length = f := by omega
          rw [this, ih f (by omega) (h1.trans h2)]

theorem chunksOf_cons {e : Nat} (he : 1 ≤ e) {b : Bits} (hb : b ≠ []) :
    chunksOf e b.length b = b.take e :: chunksOf e (b.drop e).length (b.drop e) := by
  obtain ⟨x, b, rfl⟩ := List.exists_cons_of_ne_nil hb
  conv_lhs => rw [List.length_cons, chunksOf, if_neg hb]
  rw [chunksOf_fuel he (f := b.length) (by simp; omega)]

/-- A whole chunk at the front is read first. -/
theorem chunksOf_append {e : Nat} (he : 1 ≤ e) {a b : Bits} (ha : a.length = e) :
    chunksOf e (a ++ b).length (a ++ b) = a :: chunksOf e b.length b := by
  have hne : a ++ b ≠ [] := by
    intro h
    have := congrArg List.length h
    simp only [List.length_append, List.length_nil] at this
    omega
  rw [chunksOf_cons he hne, List.take_left' ha, List.drop_left' ha]

/-! ### The prefix scan (R114) -/

/-- What the search for the shortest code finds. -/
theorem shortestCode_eq_some {t : CodeTable CHAR} {b : Bits} {c : CHAR} {n : Nat} :
    shortestCode t b = some (c, n) ↔ 1 ≤ n ∧ n ≤ b.length ∧ invBits t (b.take n) = some c ∧
      ∀ m, 1 ≤ m → m < n → invBits t (b.take m) = none := by
  unfold shortestCode
  rw [List.findSome?_eq_some_iff]
  constructor
  · rintro ⟨l₁, a, l₂, hr, ha, hn⟩
    obtain ⟨d, hd, h⟩ := Option.map_eq_some_iff.mp ha
    obtain ⟨rfl, rfl⟩ := Prod.mk.inj h
    have hl : l₁ = List.range a ∧ a < b.length := by
      have h1 := congrArg (fun l => l[l₁.length]?) hr
      simp only [List.getElem?_append_right le_rfl, Nat.sub_self, List.getElem?_cons_zero] at h1
      have hlen : l₁.length < b.length := by
        have := congrArg List.length hr
        simp only [List.length_range, List.length_append, List.length_cons] at this
        omega
      rw [List.getElem?_range hlen] at h1
      have e1 : l₁.length = a := Option.some.inj h1
      refine ⟨?_, by omega⟩
      have h2 := congrArg (List.take l₁.length) hr
      rw [List.take_left', List.take_range] at h2
      · rw [← h2, e1, min_eq_left (by omega)]
      · rfl
    refine ⟨by omega, by omega, hd, fun m h1 h2 => ?_⟩
    have hm : m - 1 ∈ l₁ := by rw [hl.1]; exact List.mem_range.mpr (by omega)
    have := hn _ hm
    rw [Option.map_eq_none_iff, show m - 1 + 1 = m by omega] at this
    exact this
  · rintro ⟨h1, h2, h3, h4⟩
    refine ⟨List.range (n - 1), n - 1, (List.range (b.length - n)).map (n + ·), ?_, ?_, ?_⟩
    · have e : b.length = (n - 1) + (1 + (b.length - n)) := by omega
      conv_lhs => rw [e]
      rw [List.range_add, List.range_add]
      simp only [List.range_one, List.map_cons, List.map_map, Nat.add_zero,
        List.singleton_append, List.append_cancel_left_eq, List.cons.injEq, true_and]
      refine List.map_congr_left fun x _ => ?_
      simp only [Function.comp]
      omega
    · rw [show n - 1 + 1 = n by omega, h3]; rfl
    · intro m hm
      rw [Option.map_eq_none_iff]
      exact h4 _ (by omega) (by have := List.mem_range.mp hm; omega)

theorem shortestCode_eq_none {t : CodeTable CHAR} {b : Bits} :
    shortestCode t b = none ↔ ∀ n, 1 ≤ n → n ≤ b.length → invBits t (b.take n) = none := by
  unfold shortestCode
  rw [List.findSome?_eq_none_iff]
  constructor
  · intro h n h1 h2
    have := h (n - 1) (List.mem_range.mpr (by omega))
    rwa [Option.map_eq_none_iff, show n - 1 + 1 = n by omega] at this
  · intro h m hm
    rw [Option.map_eq_none_iff]
    exact h _ (by omega) (by have := List.mem_range.mp hm; omega)

/-- More fuel than bits changes nothing. -/
theorem prefixScan_fuel {t : CodeTable CHAR} {f : Nat} {b : Bits} (h : b.length ≤ f) :
    prefixScan t f b = prefixScan t b.length b := by
  induction f using Nat.strong_induction_on generalizing b with
  | _ f ih =>
    cases f with
    | zero =>
      have : b = [] := List.length_eq_zero_iff.mp (by omega)
      subst this
      rfl
    | succ f =>
      cases b with
      | nil => simp [prefixScan, shortestCode]
      | cons x b =>
        simp only [List.length_cons, prefixScan]
        cases hs : shortestCode t (x :: b) with
        | none => rfl
        | some p =>
          obtain ⟨c, n⟩ := p
          obtain ⟨h1, -, -, -⟩ := shortestCode_eq_some.mp hs
          have h3 : ((x :: b).drop n).length ≤ b.length := by simp only [List.length_drop, List.length_cons]; omega
          have h2 : b.length ≤ f := by simpa using h
          simp only [List.cons.injEq, true_and]
          rw [ih f (by omega) (h3.trans h2)]
          rcases Nat.lt_or_ge b.length f with hlt | hge
          · rw [ih b.length (by omega) h3]
          · have : b.length = f := by omega
            rw [this, ih f (by omega) (h3.trans h2)]

/-- One turn of the scan. -/
theorem prefixScan_step {t : CodeTable CHAR} {b : Bits} {c : CHAR} {n : Nat} (h : shortestCode t b = some (c, n)) :
    prefixScan t b.length b = c :: prefixScan t (b.drop n).length (b.drop n) := by
  obtain ⟨h1, h2, -, -⟩ := shortestCode_eq_some.mp h
  obtain ⟨x, b', rfl⟩ := List.exists_cons_of_ne_nil (l := b) (by rintro rfl; simp at h2; omega)
  conv_lhs => rw [List.length_cons, prefixScan, h]
  dsimp only
  rw [prefixScan_fuel (f := b'.length) (by simp; omega)]

theorem prefixScan_end {t : CodeTable CHAR} {b : Bits} (h : shortestCode t b = none) :
    prefixScan t b.length b = [] := by
  cases b with
  | nil => rfl
  | cons x b => rw [List.length_cons, prefixScan, h]

end Sys2Proof.Machine
end

