-- ==== Sys2Proof/Laws/Decode.lean ====
section
/-! SUPPORT. A command word is told by its two fields (R49), and what the opcode table says of an opcode. -/

namespace Sys2Proof

/-- R49: a word whose reserved field is 0 is its opcode, widened with zeros. -/
theorem word_of_clear_reserved {w : Word32} (h : rsvField w = 0) : w = (opcField w).setWidth 32 := by
  apply BitVec.eq_of_getElem_eq
  intro j hj
  simp only [opcField, BitVec.getElem_setWidth, BitVec.getLsbD_extractLsb', Nat.zero_add]
  by_cases h8 : j < 8
  · simp [h8, BitVec.getLsbD_eq_getElem hj]
  · have hb := congrArg (fun b : BitVec 24 => b.getLsbD (j - 8)) h
    simp only [rsvField, BitVec.getLsbD_extractLsb', show 8 + (j - 8) = j by omega, BitVec.getLsbD_eq_getElem hj] at hb
    simpa [h8, show j - 8 < 24 by omega] using hb

/-- Everything `decode` can accept. -/
theorem decode_eq_ok {w : Word32} {i : Instr} :
    decode w = .ok i ↔ rsvField w = 0 ∧ opcodeTable.lookup (opcField w) = some i := by
  unfold decode
  by_cases h : rsvField w = 0
  · rw [if_pos h]
    cases opcodeTable.lookup (opcField w) <;> simp [h]
  · rw [if_neg h]
    exact ⟨nofun, fun x => absurd x.1 h⟩

/-- A fact about every opcode byte is checked on the numbers below 256. -/
theorem forall_opcode {p : BitVec 8 → Prop} (h : ∀ n : Fin 256, p (BitVec.ofFin n)) : ∀ o, p o :=
  fun o => h o.toFin

/-- The opcode table has an opcode exactly if R52 does not leave it unassigned. -/
theorem lookup_isSome_eq_assigned : ∀ o, (opcodeTable.lookup o).isSome = opcodeAssigned o :=
  forall_opcode (by decide +kernel)

/-- The opcode table and the encoder agree. -/
theorem encode_of_lookup : ∀ o i, opcodeTable.lookup o = some i → encode i = o.setWidth 32 := by
  have : ∀ o, (opcodeTable.lookup o).all (fun i => encode i == o.setWidth 32) = true := forall_opcode (by decide +kernel)
  intro o i h
  have := this o
  rw [h] at this
  simpa using this

end Sys2Proof
end

