-- ==== Sys2Proof/Laws/Frame.lean ====
section
/-! SUPPORT. The byte frame (R56, R77 to R79): single bytes and groups, the full groups of a frame, and what `unpack` does
on each shape of frame. -/

namespace Sys2Proof.Machine

theorem toNat_byteOfGroup {w : Nat} {g : Bits} (h : g.length ≤ 8) : (byteOfGroup w g).toNat = val g := by
  have h1 := val_lt g
  have h2 : 2 ^ g.length ≤ 2 ^ 8 := Nat.pow_le_pow_right (by norm_num) h
  rw [byteOfGroup, toInteger_bvOfBits, BitVec.toNat_ofNat, Nat.mod_eq_of_lt (by omega)]

/-- A byte's rendering at its group's width is the group (R37, R38). -/
theorem byteBits_byteOfGroup {w : Nat} {g : Bits} (hw : 1 ≤ w) (hw8 : w ≤ 8) (hg : g.length = w) :
    byteBits w (byteOfGroup w g) = g := by
  subst hg
  rw [byteBits, toNat_byteOfGroup hw8, toBitString_bvFromInt]
  exact pad_bin_val (List.length_pos_iff.mp hw)

theorem byteBits_eq_bitsOf {w : Nat} {x : Byte} (hw : 1 ≤ w) (h : x.toNat < 2 ^ w) :
    byteBits w x = bitsOf w x.toNat := pad_bin hw h

@[simp] theorem length_byteBits_eight (x : Byte) : (byteBits 8 x).length = 8 := by
  rw [byteBits_eq_bitsOf (by norm_num) x.isLt, length_bitsOf]

@[simp] theorem val_byteBits (w : Nat) (x : Byte) : val (byteBits w x) = x.toNat := by
  simp [byteBits]

theorem length_byteBits (w : Nat) (x : Byte) : (byteBits w x).length = max w (bitLength x.toNat) := by
  simp [byteBits]

theorem byteOfGroup_byteBits (w v : Nat) (x : Byte) : byteOfGroup w (byteBits v x) = x := by
  simp [byteOfGroup]

@[simp] theorem length_fullBytes (g : Nat) (b : Bits) : (fullBytes g b).length = g := by
  induction g generalizing b with
  | zero => rfl
  | succ g ih => simp [fullBytes, ih]

theorem getElem?_fullBytes {g k : Nat} (b : Bits) (hk : k < g) :
    (fullBytes g b)[k]? = some (byteOfGroup 8 ((b.drop (8 * k)).take 8)) := by
  induction g generalizing b k with
  | zero => omega
  | succ g ih =>
    cases k with
    | zero => simp [fullBytes]
    | succ k =>
      rw [fullBytes, List.getElem?_cons_succ, ih _ (by omega), List.drop_drop]
      congr 4
      omega

/-- The full groups hold the first bits of the payload. -/
theorem flatMap_fullBytes {g : Nat} {b : Bits} (h : 8 * g ≤ b.length) :
    (fullBytes g b).flatMap (byteBits 8) = b.take (8 * g) := by
  induction g generalizing b with
  | zero => simp [fullBytes]
  | succ g ih =>
    rw [fullBytes, List.flatMap_cons, ih (by simp; omega),
      byteBits_byteOfGroup (by norm_num) le_rfl (by simp; omega), ← List.take_add]
    congr 1
    omega

/-- Whole bytes, taken back from their renderings. -/
theorem fullBytes_flatMap (l : Bytes) (r : Bits) : fullBytes l.length (l.flatMap (byteBits 8) ++ r) = l := by
  induction l with
  | nil => rfl
  | cons x l ih =>
    simp only [List.length_cons, fullBytes, List.flatMap_cons, List.append_assoc]
    rw [List.take_left' (length_byteBits_eight x), List.drop_left' (length_byteBits_eight x), ih, byteOfGroup_byteBits]

@[simp] theorem length_flatMap_byteBits (l : Bytes) : (l.flatMap (byteBits 8)).length = 8 * l.length := by
  induction l with
  | nil => rfl
  | cons x l ih => simp only [List.flatMap_cons, List.length_append, length_byteBits_eight, ih, List.length_cons]; omega

/-! ### `unpack`, by the shape of the frame -/

theorem unpack_no_tail {t : Byte} (h : t.toNat = 0) (body : Bytes) :
    unpack (t :: body) = .ok (body.flatMap (byteBits 8)) := by
  simp [unpack, h]

theorem unpack_tail {t : Byte} (h1 : 1 ≤ t.toNat) (h7 : t.toNat ≤ 7) (body : Bytes) (last : Byte) :
    unpack (t :: (body ++ [last])) = .ok (body.flatMap (byteBits 8) ++ byteBits t.toNat last) := by
  have : ¬ 7 < t.toNat := by omega
  have h0 : 0 < t.toNat := h1
  simp [unpack, this, h0]

theorem unpack_ill_formed {f : Bytes} (h : wellFormedFrame f = false) : unpack f = .error .corruptFrame := by
  cases f with
  | nil => rfl
  | cons t rest =>
    rw [unpack]
    split
    · rfl
    next h7 =>
      split
      next h0 =>
        cases hr : rest.getLast? with
        | none => rfl
        | some l =>
          exfalso
          have : rest ≠ [] := by rintro rfl; simp at hr
          have := List.length_pos_iff.mpr this
          simp only [wellFormedFrame, Bool.and_eq_false_iff, Bool.or_eq_false_iff, decide_eq_false_iff_not] at h
          omega
      next h0 => simp [wellFormedFrame, show t.toNat = 0 by omega] at h

/-- The two shapes of a well-formed frame (R77). -/
theorem wellFormedFrame_cases {f : Bytes} (h : wellFormedFrame f = true) :
    (∃ t body, f = t :: body ∧ t.toNat = 0) ∨
      ∃ t body last, f = t :: (body ++ [last]) ∧ 1 ≤ t.toNat ∧ t.toNat ≤ 7 := by
  cases f with
  | nil => cases h
  | cons t rest =>
    simp only [wellFormedFrame, Bool.and_eq_true, Bool.or_eq_true, decide_eq_true_eq, beq_iff_eq] at h
    by_cases h0 : t.toNat = 0
    · exact .inl ⟨t, rest, rfl, h0⟩
    · have hr : rest ≠ [] := List.length_pos_iff.mp (by omega)
      exact .inr ⟨t, rest.dropLast, rest.getLast hr, by rw [List.dropLast_append_getLast], by omega, h.1⟩

/-- The shape of a packed frame: its tail length, its full bytes, its partial byte. -/
theorem pack_eq (b : Bits) : pack b = BitVec.ofNat 8 (b.length % 8) ::
    (fullBytes (b.length / 8) b ++
      if b.length % 8 > 0 then [byteOfGroup (b.length % 8) (b.drop (8 * (b.length / 8)))] else []) := rfl

theorem toNat_tailByte (n : Nat) : (BitVec.ofNat 8 (n % 8)).toNat = n % 8 := by
  rw [BitVec.toNat_ofNat]
  omega

end Sys2Proof.Machine
end

