-- ==== Sys2Proof/Laws/State.lean ====
section
/-! SUPPORT. One lemma per field per update of the state, so that no later proof unfolds a record update. -/

namespace Sys2Proof.Machine

variable {CHAR : Type}

section Fields

variable (s : State CHAR)

/-! ### setStatus (R28) -/

@[simp] theorem State.setStatus_cmd (err : BitVec 4) : (s.setStatus err).cmd = s.cmd := rfl
@[simp] theorem State.setStatus_status (err : BitVec 4) : (s.setStatus err).status = statusWord err (opcField s.cmd) := rfl
@[simp] theorem State.setStatus_aSize (err : BitVec 4) : (s.setStatus err).aSize = s.aSize := rfl
@[simp] theorem State.setStatus_aInt (err : BitVec 4) : (s.setStatus err).aInt = s.aInt := rfl
@[simp] theorem State.setStatus_aStr (err : BitVec 4) : (s.setStatus err).aStr = s.aStr := rfl
@[simp] theorem State.setStatus_aBits (err : BitVec 4) : (s.setStatus err).aBits = s.aBits := rfl
@[simp] theorem State.setStatus_aBytes (err : BitVec 4) : (s.setStatus err).aBytes = s.aBytes := rfl
@[simp] theorem State.setStatus_aText (err : BitVec 4) : (s.setStatus err).aText = s.aText := rfl
@[simp] theorem State.setStatus_bv (err : BitVec 4) : (s.setStatus err).bv = s.bv := rfl
@[simp] theorem State.setStatus_tbl (err : BitVec 4) : (s.setStatus err).tbl = s.tbl := rfl
@[simp] theorem State.setStatus_rInt (err : BitVec 4) : (s.setStatus err).rInt = s.rInt := rfl
@[simp] theorem State.setStatus_rBits (err : BitVec 4) : (s.setStatus err).rBits = s.rBits := rfl
@[simp] theorem State.setStatus_rBytes (err : BitVec 4) : (s.setStatus err).rBytes = s.rBytes := rfl
@[simp] theorem State.setStatus_rText (err : BitVec 4) : (s.setStatus err).rText = s.rText := rfl
@[simp] theorem State.setStatus_rStr (err : BitVec 4) : (s.setStatus err).rStr = s.rStr := rfl
@[simp] theorem State.setStatus_params (err : BitVec 4) : (s.setStatus err).params = s.params := rfl
@[simp] theorem State.setStatus_pending (err : BitVec 4) : (s.setStatus err).pending = s.pending := rfl
@[simp] theorem State.setStatus_readOut (err : BitVec 4) : (s.setStatus err).readOut = s.readOut := rfl
@[simp] theorem State.setStatus_hostActs (err : BitVec 4) : (s.setStatus err).hostActs = s.hostActs := rfl

/-! ### raise (R140) -/

@[simp] theorem State.raise_cmd (e : ErrorCode) : (s.raise e).cmd = s.cmd := rfl
@[simp] theorem State.raise_status (e : ErrorCode) : (s.raise e).status = statusWord e.code (opcField s.cmd) := rfl
@[simp] theorem State.raise_aSize (e : ErrorCode) : (s.raise e).aSize = s.aSize := rfl
@[simp] theorem State.raise_aInt (e : ErrorCode) : (s.raise e).aInt = s.aInt := rfl
@[simp] theorem State.raise_aStr (e : ErrorCode) : (s.raise e).aStr = s.aStr := rfl
@[simp] theorem State.raise_aBits (e : ErrorCode) : (s.raise e).aBits = s.aBits := rfl
@[simp] theorem State.raise_aBytes (e : ErrorCode) : (s.raise e).aBytes = s.aBytes := rfl
@[simp] theorem State.raise_aText (e : ErrorCode) : (s.raise e).aText = s.aText := rfl
@[simp] theorem State.raise_bv (e : ErrorCode) : (s.raise e).bv = s.bv := rfl
@[simp] theorem State.raise_tbl (e : ErrorCode) : (s.raise e).tbl = s.tbl := rfl
@[simp] theorem State.raise_rInt (e : ErrorCode) : (s.raise e).rInt = s.rInt := rfl
@[simp] theorem State.raise_rBits (e : ErrorCode) : (s.raise e).rBits = s.rBits := rfl
@[simp] theorem State.raise_rBytes (e : ErrorCode) : (s.raise e).rBytes = s.rBytes := rfl
@[simp] theorem State.raise_rText (e : ErrorCode) : (s.raise e).rText = s.rText := rfl
@[simp] theorem State.raise_rStr (e : ErrorCode) : (s.raise e).rStr = s.rStr := rfl
@[simp] theorem State.raise_params (e : ErrorCode) : (s.raise e).params = s.params := rfl
@[simp] theorem State.raise_pending (e : ErrorCode) : (s.raise e).pending = s.pending := rfl
@[simp] theorem State.raise_readOut (e : ErrorCode) : (s.raise e).readOut = s.readOut := rfl
@[simp] theorem State.raise_hostActs (e : ErrorCode) : (s.raise e).hostActs = s.hostActs := rfl

/-! ### commit (R141) -/

@[simp] theorem State.commit_cmd (out : Results CHAR) : (s.commit out).cmd = s.cmd := rfl
@[simp] theorem State.commit_status (out : Results CHAR) : (s.commit out).status = s.status := rfl
@[simp] theorem State.commit_aSize (out : Results CHAR) : (s.commit out).aSize = s.aSize := rfl
@[simp] theorem State.commit_aInt (out : Results CHAR) : (s.commit out).aInt = s.aInt := rfl
@[simp] theorem State.commit_aStr (out : Results CHAR) : (s.commit out).aStr = s.aStr := rfl
@[simp] theorem State.commit_aBits (out : Results CHAR) : (s.commit out).aBits = s.aBits := rfl
@[simp] theorem State.commit_aBytes (out : Results CHAR) : (s.commit out).aBytes = s.aBytes := rfl
@[simp] theorem State.commit_aText (out : Results CHAR) : (s.commit out).aText = s.aText := rfl
@[simp] theorem State.commit_bv (out : Results CHAR) : (s.commit out).bv = out.bv.or s.bv := rfl
@[simp] theorem State.commit_tbl (out : Results CHAR) : (s.commit out).tbl = out.tbl.or s.tbl := rfl
@[simp] theorem State.commit_rInt (out : Results CHAR) : (s.commit out).rInt = out.rInt.or s.rInt := rfl
@[simp] theorem State.commit_rBits (out : Results CHAR) : (s.commit out).rBits = out.rBits.or s.rBits := rfl
@[simp] theorem State.commit_rBytes (out : Results CHAR) : (s.commit out).rBytes = out.rBytes.or s.rBytes := rfl
@[simp] theorem State.commit_rText (out : Results CHAR) : (s.commit out).rText = out.rText.or s.rText := rfl
@[simp] theorem State.commit_rStr (out : Results CHAR) : (s.commit out).rStr = out.rStr.or s.rStr := rfl
@[simp] theorem State.commit_params (out : Results CHAR) : (s.commit out).params = s.params := rfl
@[simp] theorem State.commit_pending (out : Results CHAR) : (s.commit out).pending = s.pending := rfl
@[simp] theorem State.commit_readOut (out : Results CHAR) : (s.commit out).readOut = s.readOut := rfl
@[simp] theorem State.commit_hostActs (out : Results CHAR) : (s.commit out).hostActs = s.hostActs := rfl

/-! ### succeed (R141) -/

@[simp] theorem State.succeed_cmd (out : Results CHAR) : (s.succeed out).cmd = s.cmd := rfl
@[simp] theorem State.succeed_status (out : Results CHAR) : (s.succeed out).status = statusWord 0 (opcField s.cmd) := rfl
@[simp] theorem State.succeed_aSize (out : Results CHAR) : (s.succeed out).aSize = s.aSize := rfl
@[simp] theorem State.succeed_aInt (out : Results CHAR) : (s.succeed out).aInt = s.aInt := rfl
@[simp] theorem State.succeed_aStr (out : Results CHAR) : (s.succeed out).aStr = s.aStr := rfl
@[simp] theorem State.succeed_aBits (out : Results CHAR) : (s.succeed out).aBits = s.aBits := rfl
@[simp] theorem State.succeed_aBytes (out : Results CHAR) : (s.succeed out).aBytes = s.aBytes := rfl
@[simp] theorem State.succeed_aText (out : Results CHAR) : (s.succeed out).aText = s.aText := rfl
@[simp] theorem State.succeed_bv (out : Results CHAR) : (s.succeed out).bv = out.bv.or s.bv := rfl
@[simp] theorem State.succeed_tbl (out : Results CHAR) : (s.succeed out).tbl = out.tbl.or s.tbl := rfl
@[simp] theorem State.succeed_rInt (out : Results CHAR) : (s.succeed out).rInt = out.rInt.or s.rInt := rfl
@[simp] theorem State.succeed_rBits (out : Results CHAR) : (s.succeed out).rBits = out.rBits.or s.rBits := rfl
@[simp] theorem State.succeed_rBytes (out : Results CHAR) : (s.succeed out).rBytes = out.rBytes.or s.rBytes := rfl
@[simp] theorem State.succeed_rText (out : Results CHAR) : (s.succeed out).rText = out.rText.or s.rText := rfl
@[simp] theorem State.succeed_rStr (out : Results CHAR) : (s.succeed out).rStr = out.rStr.or s.rStr := rfl
@[simp] theorem State.succeed_params (out : Results CHAR) : (s.succeed out).params = s.params := rfl
@[simp] theorem State.succeed_pending (out : Results CHAR) : (s.succeed out).pending = s.pending := rfl
@[simp] theorem State.succeed_readOut (out : Results CHAR) : (s.succeed out).readOut = s.readOut := rfl
@[simp] theorem State.succeed_hostActs (out : Results CHAR) : (s.succeed out).hostActs = s.hostActs := rfl

/-! ### setCmd (R19) -/

@[simp] theorem State.setCmd_cmd (w : Word32) : (s.setCmd w).cmd = w := rfl
@[simp] theorem State.setCmd_status (w : Word32) : (s.setCmd w).status = s.status := rfl
@[simp] theorem State.setCmd_aSize (w : Word32) : (s.setCmd w).aSize = s.aSize := rfl
@[simp] theorem State.setCmd_aInt (w : Word32) : (s.setCmd w).aInt = s.aInt := rfl
@[simp] theorem State.setCmd_aStr (w : Word32) : (s.setCmd w).aStr = s.aStr := rfl
@[simp] theorem State.setCmd_aBits (w : Word32) : (s.setCmd w).aBits = s.aBits := rfl
@[simp] theorem State.setCmd_aBytes (w : Word32) : (s.setCmd w).aBytes = s.aBytes := rfl
@[simp] theorem State.setCmd_aText (w : Word32) : (s.setCmd w).aText = s.aText := rfl
@[simp] theorem State.setCmd_bv (w : Word32) : (s.setCmd w).bv = s.bv := rfl
@[simp] theorem State.setCmd_tbl (w : Word32) : (s.setCmd w).tbl = s.tbl := rfl
@[simp] theorem State.setCmd_rInt (w : Word32) : (s.setCmd w).rInt = s.rInt := rfl
@[simp] theorem State.setCmd_rBits (w : Word32) : (s.setCmd w).rBits = s.rBits := rfl
@[simp] theorem State.setCmd_rBytes (w : Word32) : (s.setCmd w).rBytes = s.rBytes := rfl
@[simp] theorem State.setCmd_rText (w : Word32) : (s.setCmd w).rText = s.rText := rfl
@[simp] theorem State.setCmd_rStr (w : Word32) : (s.setCmd w).rStr = s.rStr := rfl
@[simp] theorem State.setCmd_params (w : Word32) : (s.setCmd w).params = s.params := rfl
@[simp] theorem State.setCmd_pending (w : Word32) : (s.setCmd w).pending = s.pending := rfl
@[simp] theorem State.setCmd_readOut (w : Word32) : (s.setCmd w).readOut = s.readOut := rfl
@[simp] theorem State.setCmd_hostActs (w : Word32) : (s.setCmd w).hostActs = s.hostActs := rfl

/-! ### takeAction (R44) -/

@[simp] theorem State.takeAction_cmd (rest : List (HostAction CHAR)) : (s.takeAction rest).cmd = s.cmd := rfl
@[simp] theorem State.takeAction_status (rest : List (HostAction CHAR)) : (s.takeAction rest).status = s.status := rfl
@[simp] theorem State.takeAction_aSize (rest : List (HostAction CHAR)) : (s.takeAction rest).aSize = s.aSize := rfl
@[simp] theorem State.takeAction_aInt (rest : List (HostAction CHAR)) : (s.takeAction rest).aInt = s.aInt := rfl
@[simp] theorem State.takeAction_aStr (rest : List (HostAction CHAR)) : (s.takeAction rest).aStr = s.aStr := rfl
@[simp] theorem State.takeAction_aBits (rest : List (HostAction CHAR)) : (s.takeAction rest).aBits = s.aBits := rfl
@[simp] theorem State.takeAction_aBytes (rest : List (HostAction CHAR)) : (s.takeAction rest).aBytes = s.aBytes := rfl
@[simp] theorem State.takeAction_aText (rest : List (HostAction CHAR)) : (s.takeAction rest).aText = s.aText := rfl
@[simp] theorem State.takeAction_bv (rest : List (HostAction CHAR)) : (s.takeAction rest).bv = s.bv := rfl
@[simp] theorem State.takeAction_tbl (rest : List (HostAction CHAR)) : (s.takeAction rest).tbl = s.tbl := rfl
@[simp] theorem State.takeAction_rInt (rest : List (HostAction CHAR)) : (s.takeAction rest).rInt = s.rInt := rfl
@[simp] theorem State.takeAction_rBits (rest : List (HostAction CHAR)) : (s.takeAction rest).rBits = s.rBits := rfl
@[simp] theorem State.takeAction_rBytes (rest : List (HostAction CHAR)) : (s.takeAction rest).rBytes = s.rBytes := rfl
@[simp] theorem State.takeAction_rText (rest : List (HostAction CHAR)) : (s.takeAction rest).rText = s.rText := rfl
@[simp] theorem State.takeAction_rStr (rest : List (HostAction CHAR)) : (s.takeAction rest).rStr = s.rStr := rfl
@[simp] theorem State.takeAction_params (rest : List (HostAction CHAR)) : (s.takeAction rest).params = s.params := rfl
@[simp] theorem State.takeAction_pending (rest : List (HostAction CHAR)) : (s.takeAction rest).pending = rest := rfl
@[simp] theorem State.takeAction_readOut (rest : List (HostAction CHAR)) : (s.takeAction rest).readOut = s.readOut := rfl
@[simp] theorem State.takeAction_hostActs (rest : List (HostAction CHAR)) : (s.takeAction rest).hostActs = s.hostActs + 1 := rfl

/-! ### hostRead (R24) -/

@[simp] theorem State.hostRead_cmd (id : RegId) : (s.hostRead id).cmd = s.cmd := rfl
@[simp] theorem State.hostRead_status (id : RegId) : (s.hostRead id).status = s.status := rfl
@[simp] theorem State.hostRead_aSize (id : RegId) : (s.hostRead id).aSize = s.aSize := rfl
@[simp] theorem State.hostRead_aInt (id : RegId) : (s.hostRead id).aInt = s.aInt := rfl
@[simp] theorem State.hostRead_aStr (id : RegId) : (s.hostRead id).aStr = s.aStr := rfl
@[simp] theorem State.hostRead_aBits (id : RegId) : (s.hostRead id).aBits = s.aBits := rfl
@[simp] theorem State.hostRead_aBytes (id : RegId) : (s.hostRead id).aBytes = s.aBytes := rfl
@[simp] theorem State.hostRead_aText (id : RegId) : (s.hostRead id).aText = s.aText := rfl
@[simp] theorem State.hostRead_bv (id : RegId) : (s.hostRead id).bv = s.bv := rfl
@[simp] theorem State.hostRead_tbl (id : RegId) : (s.hostRead id).tbl = s.tbl := rfl
@[simp] theorem State.hostRead_rInt (id : RegId) : (s.hostRead id).rInt = s.rInt := rfl
@[simp] theorem State.hostRead_rBits (id : RegId) : (s.hostRead id).rBits = s.rBits := rfl
@[simp] theorem State.hostRead_rBytes (id : RegId) : (s.hostRead id).rBytes = s.rBytes := rfl
@[simp] theorem State.hostRead_rText (id : RegId) : (s.hostRead id).rText = s.rText := rfl
@[simp] theorem State.hostRead_rStr (id : RegId) : (s.hostRead id).rStr = s.rStr := rfl
@[simp] theorem State.hostRead_params (id : RegId) : (s.hostRead id).params = s.params := rfl
@[simp] theorem State.hostRead_pending (id : RegId) : (s.hostRead id).pending = s.pending := rfl
@[simp] theorem State.hostRead_readOut (id : RegId) : (s.hostRead id).readOut = some { id := id, value := s.readId id } := rfl
@[simp] theorem State.hostRead_hostActs (id : RegId) : (s.hostRead id).hostActs = s.hostActs := rfl

/-! ### resetRegisters (R154) -/

@[simp] theorem State.resetRegisters_cmd : (s.resetRegisters).cmd = 0 := rfl
@[simp] theorem State.resetRegisters_status : (s.resetRegisters).status = 0 := rfl
@[simp] theorem State.resetRegisters_aSize : (s.resetRegisters).aSize = none := rfl
@[simp] theorem State.resetRegisters_aInt : (s.resetRegisters).aInt = none := rfl
@[simp] theorem State.resetRegisters_aStr : (s.resetRegisters).aStr = none := rfl
@[simp] theorem State.resetRegisters_aBits : (s.resetRegisters).aBits = none := rfl
@[simp] theorem State.resetRegisters_aBytes : (s.resetRegisters).aBytes = none := rfl
@[simp] theorem State.resetRegisters_aText : (s.resetRegisters).aText = none := rfl
@[simp] theorem State.resetRegisters_bv : (s.resetRegisters).bv = none := rfl
@[simp] theorem State.resetRegisters_tbl : (s.resetRegisters).tbl = none := rfl
@[simp] theorem State.resetRegisters_rInt : (s.resetRegisters).rInt = none := rfl
@[simp] theorem State.resetRegisters_rBits : (s.resetRegisters).rBits = none := rfl
@[simp] theorem State.resetRegisters_rBytes : (s.resetRegisters).rBytes = none := rfl
@[simp] theorem State.resetRegisters_rText : (s.resetRegisters).rText = none := rfl
@[simp] theorem State.resetRegisters_rStr : (s.resetRegisters).rStr = none := rfl
@[simp] theorem State.resetRegisters_params : (s.resetRegisters).params = s.params := rfl
@[simp] theorem State.resetRegisters_pending : (s.resetRegisters).pending = s.pending := rfl
@[simp] theorem State.resetRegisters_readOut : (s.resetRegisters).readOut = s.readOut := rfl
@[simp] theorem State.resetRegisters_hostActs : (s.resetRegisters).hostActs = s.hostActs := rfl

end Fields

end Sys2Proof.Machine
end

