-- ==== Sys2Proof/Laws/Ops.lean ====
section
/-! SUPPORT. What the shared operations can do, said once: the end of a command, reading an operand, the status word, the
command sequencer. -/

namespace Sys2Proof.Machine

variable {CHAR : Type}

/-! ### The status word (R20) -/

@[simp] theorem errField_statusWord (e : BitVec 4) (l : BitVec 8) : errField (statusWord e l) = e := by
  apply BitVec.eq_of_getElem_eq
  intro i hi
  simp only [errField, statusWord, BitVec.getElem_extractLsb', Nat.zero_add, BitVec.getLsbD_append]
  simp [hi]

@[simp] theorem lastopField_statusWord (e : BitVec 4) (l : BitVec 8) : lastopField (statusWord e l) = l := by
  apply BitVec.eq_of_getElem_eq
  intro i hi
  have h1 : ¬ 8 + i < 4 := by omega
  have h2 : ¬ 8 + i - 4 < 4 := by omega
  have h3 : 8 + i - 4 - 4 = i := by omega
  simp only [lastopField, statusWord, BitVec.getElem_extractLsb', BitVec.getLsbD_append, h1, h2, h3, if_false]
  simp [hi]

@[simp] theorem doneField_statusWord (e : BitVec 4) (l : BitVec 8) : doneField (statusWord e l) = 1 := by
  apply BitVec.eq_of_getElem_eq
  intro i hi
  obtain rfl : i = 0 := by omega
  simp only [doneField, statusWord, BitVec.getElem_extractLsb', BitVec.getLsbD_append]
  simp

@[simp] theorem statusLowReserved_statusWord (e : BitVec 4) (l : BitVec 8) : statusLowReserved (statusWord e l) = 0 := by
  apply BitVec.eq_of_getElem_eq
  intro i hi
  have h1 : ¬ 4 + i < 4 := by omega
  have h2 : 4 + i - 4 < 4 := by omega
  simp only [statusLowReserved, statusWord, BitVec.getElem_extractLsb', BitVec.getLsbD_append, h1, h2, if_false, if_true]
  simp

@[simp] theorem statusHighReserved_statusWord (e : BitVec 4) (l : BitVec 8) :
    statusHighReserved (statusWord e l) = 0 := by
  apply BitVec.eq_of_getElem_eq
  intro i hi
  have h1 : ¬ 17 + i < 4 := by omega
  have h2 : ¬ 17 + i - 4 < 4 := by omega
  have h3 : ¬ 17 + i - 4 - 4 < 8 := by omega
  have h4 : ¬ 17 + i - 4 - 4 - 8 < 1 := by omega
  simp only [statusHighReserved, statusWord, BitVec.getElem_extractLsb', BitVec.getLsbD_append, h1, h2, h3, h4, if_false]
  simp

theorem ErrorCode.code_ne_zero (e : ErrorCode) : e.code ≠ 0 := by cases e <;> decide

theorem ErrorCode.code_le (e : ErrorCode) : e.code.toNat ≤ 7 := by cases e <;> decide

theorem ErrorCode.code_injective {e f : ErrorCode} (h : e.code = f.code) : e = f := by
  cases e <;> cases f <;> first | rfl | exact absurd h (by decide)

/-! ### Reading an operand (R13, R139) -/

@[simp] theorem readOperand_some {α : Type} (v : α) : readOperand (some v) = .ok v := rfl

@[simp] theorem readOperand_none {α : Type} : readOperand (none : Option α) = .error .operandUnset := rfl

theorem readOperand_eq_ok {α : Type} {x : Option α} {v : α} : readOperand x = .ok v ↔ x = some v := by
  cases x <;> simp [readOperand]

/-! ### The end of a command (R140, R141, R8) -/

/-- Everything `complete` can do when it answers a next state. -/
theorem complete_next {i : Instr} {s t : State CHAR} {r : Except ErrorCode (Results CHAR)} (h : complete i s r = .next t) :
    OperandsInBounds i s ∧
      ((∃ e, r = .error e ∧ t = s.raise e) ∨ ∃ out, r = .ok out ∧ ResultsInBounds s out ∧ t = s.succeed out) := by
  unfold complete at h
  split at h
  next hf =>
    refine ⟨hf, ?_⟩
    cases r with
    | error e => exact .inl ⟨e, rfl, by cases h; rfl⟩
    | ok out =>
      dsimp only at h
      split at h
      next hr => exact .inr ⟨out, rfl, hr, by cases h; rfl⟩
      next => cases h
  next => cases h

theorem complete_error {i : Instr} {s : State CHAR} (h : OperandsInBounds i s) (e : ErrorCode) :
    complete i s (.error e) = .next (s.raise e) := by
  have : operandsFit i s = true := h
  simp [complete, this]

theorem complete_ok {i : Instr} {s : State CHAR} {out : Results CHAR} (h : OperandsInBounds i s) (hr : ResultsInBounds s out) :
    complete i s (.ok out) = .next (s.succeed out) := by
  have h1 : operandsFit i s = true := h
  have h2 : resultsFit s.params out = true := hr
  simp [complete, h1, h2]

/-- Without bounds nothing exceeds them (R8). -/
theorem natFits_unbounded {p : Params} (h : p.Unbounded) (n : Nat) : natFits p n = true := by
  simp [natFits, h.2]

theorem seqFits_unbounded {p : Params} (h : p.Unbounded) (n : Nat) : seqFits p n = true := by
  simp [seqFits, h.1]

theorem bitVectorFits_unbounded {p : Params} (h : p.Unbounded) (x : BitVector) : bitVectorFits p x = true := by
  simp [bitVectorFits, natFits_unbounded h, seqFits_unbounded h]

theorem tableFits_unbounded {p : Params} (h : p.Unbounded) (t : CodeTable CHAR) : tableFits p t = true := by
  have : t.codeWidth.all (natFits p) = true := by cases t.codeWidth <;> simp [natFits_unbounded h]
  simp [tableFits, this, seqFits_unbounded h, bitVectorFits_unbounded h]

theorem valueFits_unbounded {p : Params} (h : p.Unbounded) (v : RegValue CHAR) : valueFits p v = true := by
  cases v <;>
    simp [valueFits, natFits_unbounded h, seqFits_unbounded h, bitVectorFits_unbounded h, tableFits_unbounded h]

end Sys2Proof.Machine
end

