-- ==== Sys2Proof/Machine/AnyChar.lean ====
section
/-! DEFINITION. The whole machine over any type of symbols (spec 00_scope.md R6): `CHAR` is a type argument with decidable
equality and the characters of a `CharSet`. `exec` and `step` are this machine at Lean's `Char`
(`exec_eq_execWith`, `step_eq_stepWith` in Laws/Exec.lean). -/

namespace Sys2Proof.Machine

variable {CHAR : Type} [DecidableEq CHAR]

/-- The commands over `CHAR`. -/
def execWith (C : CharSet CHAR) (i : Instr) (s : State CHAR) : Host.Outcome (State CHAR) Fault Refusal :=
  match i with
  | .bvFromStr => bvFromStrWith C s
  | .bvFromInt => execBvFromInt s
  | .bvToStr => execBvToStr s
  | .bvToInt => execBvToInt s
  | .frmPack => execFrmPack s
  | .frmUnpack => execFrmUnpack s
  | .tblBuildFw => execTblBuildFw s
  | .tblBuildHuf => execTblBuildHuf s
  | .tblBuildLzw => execTblBuildLzw s
  | .tblSave => tblSaveWith C s
  | .tblLoad => tblLoadWith C s
  | .fwEncode => execFwEncode s
  | .fwDecode => execFwDecode s
  | .hufEncode => execHufEncode s
  | .hufDecode => execHufDecode s
  | .lzwEncode => execLzwEncode s
  | .lzwDecode => execLzwDecode s

/-- One step over `CHAR`. -/
def stepWith (C : CharSet CHAR) (s : State CHAR) : Host.Outcome (State CHAR) Fault Refusal := nextAction (execWith C) s

end Sys2Proof.Machine
end

