-- ==== Sys2Proof/Laws/Exec.lean ====
section
/-! SUPPORT. Every command is `complete` of what it computes (`resultOf`), so that a fact about all commands is a fact about
`complete` and one about `resultOf`. Then what one step does on each host action. -/

namespace Sys2Proof.Machine

/-- What each command computes from its operands, before it completes. -/
def resultOf {CHAR : Type} [DecidableEq CHAR] (C : CharSet CHAR) (s : State CHAR) : Instr → Except ErrorCode (Results CHAR)
  | .bvFromStr => bvFromStrResult C s.aSize s.aStr
  | .bvFromInt => bvFromIntResult s.aSize s.aInt
  | .bvToStr => bvToStrResult s.bv
  | .bvToInt => bvToIntResult s.bv
  | .frmPack => do
    let b ← readOperand s.aBits
    return { rBytes := some (pack b) }
  | .frmUnpack => do
    let f ← readOperand s.aBytes
    let b ← unpack f
    return { rBits := some b }
  | .tblBuildFw | .tblBuildLzw => do
    let t ← readOperand s.aText
    return { tbl := some (fixedWidthTable s.tieKey t) }
  | .tblBuildHuf => do
    let t ← readOperand s.aText
    return { tbl := some (huffmanTable s.tieKey t) }
  | .tblSave => do
    let t ← readOperand s.tbl
    return { rStr := some (serialize C t) }
  | .tblLoad => do
    let t ← readOperand s.aStr
    let x ← deserialize C t
    return { tbl := some x }
  | .fwEncode | .hufEncode => do
    let t ← readOperand s.tbl
    let text ← readOperand s.aText
    let b ← encodeConcat t text
    return encodeResults b
  | .lzwEncode => do
    let t ← readOperand s.tbl
    let text ← readOperand s.aText
    let b ← lzwEncode t text
    return encodeResults b
  | .fwDecode => do
    let t ← readOperand s.tbl
    let f ← readOperand s.aBytes
    let b ← unpack f
    return decodeResults b (fwDecode t b)
  | .hufDecode => do
    let t ← readOperand s.tbl
    let f ← readOperand s.aBytes
    let b ← unpack f
    return decodeResults b (hufDecode t b)
  | .lzwDecode => do
    let t ← readOperand s.tbl
    let f ← readOperand s.aBytes
    let b ← unpack f
    let text ← lzwDecode t b
    return decodeResults b text

/-- The commands over any symbols (R6): each completes what it computes. -/
theorem execWith_eq_complete {CHAR : Type} [DecidableEq CHAR] (C : CharSet CHAR) (i : Instr) (s : State CHAR) :
    execWith C i s = complete i s (resultOf C s i) := by
  cases i <;> rfl

/-- R6: `exec` is the machine over any symbols, at Lean's `Char`. -/
theorem exec_eq_execWith (i : Instr) (s : State) : exec i s = execWith charSet i s := by
  cases i <;> rfl

/-- R6: so is `step`. -/
theorem step_eq_stepWith (s : State) : step s = stepWith charSet s := by
  have : exec = execWith charSet := funext fun i => funext fun s => exec_eq_execWith i s
  rw [step, stepWith, this]

theorem exec_eq_complete (i : Instr) (s : State) : exec i s = complete i s (resultOf charSet s i) := by
  rw [exec_eq_execWith, execWith_eq_complete]

/-- A command that computes an error fails with it (R140). -/
theorem exec_fails {i : Instr} {s : State} {e : ErrorCode} (h : OperandsInBounds i s)
    (hr : resultOf charSet s i = .error e) : FailsWith i s e := by
  rw [FailsWith, exec_eq_complete, hr, complete_error h]
  rfl

/-- A command that computes results within bounds writes them (R141). -/
theorem exec_succeeds {i : Instr} {s : State} {out : Results} (h : OperandsInBounds i s)
    (hr : resultOf charSet s i = .ok out) (hb : ResultsInBounds s out) : exec i s = .next (s.succeed out) := by
  rw [exec_eq_complete, hr, complete_ok h hb]

/-- Everything a command can do when it answers a next state. -/
theorem exec_next {i : Instr} {s t : State} (h : exec i s = .next t) :
    OperandsInBounds i s ∧
      ((∃ e, resultOf charSet s i = .error e ∧ t = s.raise e) ∨
        ∃ out, resultOf charSet s i = .ok out ∧ ResultsInBounds s out ∧ t = s.succeed out) :=
  complete_next (exec_eq_complete i s ▸ h)

/-- A command answers a next state or refuses for its bounds (R8). -/
theorem exec_next_or_refused (i : Instr) (s : State) :
    exec i s = .refused .exceedsBounds ∨ ∃ t, exec i s = .next t := by
  rw [exec_eq_complete]
  unfold complete
  split
  · cases resultOf charSet s i with
    | error e => exact .inr ⟨_, rfl⟩
    | ok out =>
      dsimp only
      split
      · exact .inr ⟨_, rfl⟩
      · exact .inl rfl
  · exact .inl rfl

/-! ### One step, by the host's action -/

theorem step_of_pending {s : State} {a : HostAction} {rest : List (HostAction)} (h : s.pending = a :: rest) :
    step s = carryOut exec a (s.takeAction rest) := by
  simp only [step, nextAction, h]

theorem runCommand_ok {w : Word32} {i : Instr} (h : decode w = .ok i) (s : State) :
    runCommand exec w s = exec i (s.setCmd w) := by
  simp only [runCommand, h]

theorem runCommand_error {w : Word32} {e : DecodeError} (h : decode w = .error e) (s : State) :
    runCommand exec w s = .next ((s.setCmd w).raise .illegalCommand) := by
  simp only [runCommand, h]

/-- Everything a step can do when it answers a next state. -/
theorem step_next {s t : State} (h : step s = .next t) :
    (s.pending = [] ∧ t = s) ∨
      ∃ a rest, s.pending = a :: rest ∧
        ((∃ w i, decode w = .ok i ∧ exec i ((s.takeAction rest).setCmd w) = .next t) ∨
          (∃ w, t = ((s.takeAction rest).setCmd w).raise .illegalCommand) ∨
          (∃ id v r, a = .write id v ∧ (s.takeAction rest).hostSet r v = some t) ∨
          t = s.takeAction rest ∨ (∃ id, t = (s.takeAction rest).hostRead id) ∨
          (a = .reset ∧ t = (s.takeAction rest).resetRegisters)) := by
  cases hp : s.pending with
  | nil =>
    left
    simp only [step, nextAction, hp] at h
    exact ⟨rfl, (Host.Outcome.next.inj h).symm⟩
  | cons a rest =>
    right
    refine ⟨a, rest, rfl, ?_⟩
    rw [step_of_pending hp] at h
    cases a with
    | read id => exact .inr (.inr (.inr (.inr (.inl ⟨id, (Host.Outcome.next.inj h).symm⟩))))
    | reset => exact .inr (.inr (.inr (.inr (.inr ⟨rfl, (Host.Outcome.next.inj h).symm⟩))))
    | write id v =>
      simp only [carryOut, carryOutWrite] at h
      split at h
      · exact .inr (.inr (.inr (.inl (Host.Outcome.next.inj h).symm)))
      · split at h
        next w hw =>
          cases hd : decode w with
          | ok i => exact .inl ⟨w, i, hd, runCommand_ok hd _ ▸ h⟩
          | error e => exact .inr (.inl ⟨w, (Host.Outcome.next.inj (runCommand_error hd _ ▸ h)).symm⟩)
        next => cases h
      · split at h
        next hs => exact .inr (.inr (.inl ⟨id, v, _, rfl, hs.trans (congrArg some (Host.Outcome.next.inj h))⟩))
        next => cases h

/-- Everything a host write of a register other than `CMD` can do (R22, R23). -/
theorem hostSet_some {s t : State} {r : RegName} {v : RegValue} (h : s.hostSet r v = some t) :
    t = s ∨ (∃ n, t = { s with aSize := some n }) ∨ (∃ n, t = { s with aInt := some n }) ∨
      (∃ x, t = { s with aStr := some x }) ∨ (∃ x, t = { s with aBits := some x }) ∨
      (∃ x, t = { s with aBytes := some x }) ∨ ∃ x, t = { s with aText := some x } := by
  cases r <;> simp only [State.hostSet, Option.map_eq_some_iff, Option.some.injEq] at h
  all_goals first
    | exact .inl h.symm
    | obtain ⟨n, -, rfl⟩ := h
      first
        | exact .inr (.inl ⟨n, rfl⟩)
        | exact .inr (.inr (.inl ⟨n, rfl⟩))
        | exact .inr (.inr (.inr (.inl ⟨n, rfl⟩)))
        | exact .inr (.inr (.inr (.inr (.inl ⟨n, rfl⟩))))
        | exact .inr (.inr (.inr (.inr (.inr (.inl ⟨n, rfl⟩)))))
        | exact .inr (.inr (.inr (.inr (.inr (.inr ⟨n, rfl⟩)))))

/-- An id's register is the one whose id it is (R21). -/
theorem ofId_eq_some : ∀ id r, RegName.ofId id = some r → r.id = id := by
  have : ∀ id, (RegName.ofId id).all (fun r => r.id == id) = true := forall_opcode (by decide +kernel)
  intro id r h
  have := this id
  rw [h] at this
  simpa using this

end Sys2Proof.Machine
end

