-- ==== Sys2Proof/Laws/Huffman.lean ====
section
/-! SUPPORT. The Huffman strategy (R95 to R98): the merge loop keeps the symbols and ends in one root, and the paths to the
leaves of a tree are prefix-free. -/

namespace Sys2Proof.Machine

variable {CHAR : Type}

/-- The symbols at the leaves of a node, 0-child first. -/
def nodeSymbols : HuffNode CHAR → List CHAR
  | .leaf c _ => [c]
  | .inner _ z o => nodeSymbols z ++ nodeSymbols o

theorem insertNode_perm (m : HuffNode CHAR) (l : List (HuffNode CHAR)) : (insertNode m l).Perm (m :: l) := by
  unfold insertNode
  refine List.perm_middle.trans ?_
  rw [List.take_append_drop]

/-- What one merge does: it takes the last two nodes off and puts their parent in. -/
theorem mergeStep_concat (l : List (HuffNode CHAR)) (x y : HuffNode CHAR) :
    mergeStep (l ++ [x, y]) = insertNode (.inner (nodeFreq x + nodeFreq y) x y) l := by
  simp [mergeStep]

theorem exists_last_two {l : List (HuffNode CHAR)} (h : 1 < l.length) : ∃ k x y, l = k ++ [x, y] := by
  obtain ⟨k, y, rfl⟩ := (List.eq_nil_or_concat l).resolve_left (by rintro rfl; simp at h)
  rw [List.concat_eq_append, List.length_append, List.length_singleton] at h
  obtain ⟨k', x, rfl⟩ := (List.eq_nil_or_concat k).resolve_left (by rintro rfl; simp at h)
  exact ⟨k', x, y, by simp⟩

theorem length_mergeStep {l : List (HuffNode CHAR)} (h : 1 < l.length) : (mergeStep l).length + 1 = l.length := by
  obtain ⟨k, x, y, rfl⟩ := exists_last_two h
  rw [mergeStep_concat, (insertNode_perm _ _).length_eq]
  simp

theorem mergeStep_symbols {l : List (HuffNode CHAR)} (h : 1 < l.length) :
    ((mergeStep l).flatMap nodeSymbols).Perm (l.flatMap nodeSymbols) := by
  obtain ⟨k, x, y, rfl⟩ := exists_last_two h
  rw [mergeStep_concat]
  refine ((insertNode_perm _ _).flatMap_right _).trans ?_
  simp only [List.flatMap_cons, List.flatMap_append, List.flatMap_nil, List.append_nil, nodeSymbols]
  exact List.perm_append_comm

/-- R96's placement, on a list in descending order: after the nodes of higher frequency, before all others. -/
theorem insertNode_split {m : HuffNode CHAR} {l : List (HuffNode CHAR)}
    (h : l.Pairwise fun a b => nodeFreq b ≤ nodeFreq a) :
    ∃ before after, l = before ++ after ∧ (∀ n ∈ before, nodeFreq m < nodeFreq n) ∧
      (∀ n ∈ after, nodeFreq n ≤ nodeFreq m) ∧ insertNode m l = before ++ m :: after := by
  induction l with
  | nil => exact ⟨[], [], rfl, by simp, by simp, rfl⟩
  | cons x l ih =>
    obtain ⟨hx, hl⟩ := List.pairwise_cons.mp h
    by_cases hm : nodeFreq m < nodeFreq x
    · obtain ⟨before, after, rfl, h1, h2, h3⟩ := ih hl
      refine ⟨x :: before, after, rfl, fun n hn => ?_, h2, ?_⟩
      · rcases List.mem_cons.mp hn with rfl | hn
        · exact hm
        · exact h1 n hn
      · rw [List.cons_append, ← h3]
        simp [insertNode, hm]
    · have hz : ∀ z ∈ x :: l, ¬ nodeFreq m < nodeFreq z := by
        intro z hz
        rcases List.mem_cons.mp hz with rfl | hz
        · exact hm
        · have := hx z hz
          omega
      refine ⟨[], x :: l, rfl, by simp, fun n hn => not_lt.mp (hz n hn), ?_⟩
      have : (x :: l).countP (fun z => nodeFreq m < nodeFreq z) = 0 := by
        rw [List.countP_eq_zero]
        intro z h
        simpa using hz z h
      simp only [insertNode, this, List.take_zero, List.drop_zero]

/-- Descending frequencies stay descending (R95). -/
theorem insertNode_sorted {m : HuffNode CHAR} {l : List (HuffNode CHAR)}
    (h : l.Pairwise fun a b => nodeFreq b ≤ nodeFreq a) :
    (insertNode m l).Pairwise fun a b => nodeFreq b ≤ nodeFreq a := by
  obtain ⟨before, after, rfl, h1, h2, h3⟩ := insertNode_split (m := m) h
  obtain ⟨hb, ha, hba⟩ := List.pairwise_append.mp h
  rw [h3]
  refine List.pairwise_append.mpr ⟨hb, List.pairwise_cons.mpr ⟨h2, ha⟩, fun x hx y hy => ?_⟩
  rcases List.mem_cons.mp hy with rfl | hy
  · exact (h1 x hx).le
  · exact hba x hx y hy

/-- A merge keeps the sum of the frequencies. -/
theorem mergeStep_freq {l : List (HuffNode CHAR)} (h : 1 < l.length) :
    ((mergeStep l).map nodeFreq).sum = (l.map nodeFreq).sum := by
  obtain ⟨k, x, y, rfl⟩ := exists_last_two h
  rw [mergeStep_concat, ((insertNode_perm _ k).map nodeFreq).sum_eq]
  simp [nodeFreq]
  omega

/-- One turn of the merge loop (R96). -/
theorem mergeAll_step {l : List (HuffNode CHAR)} (h : 1 < l.length) (n : Nat) :
    mergeAll (n + 1) l = mergeAll n (mergeStep l) := by rw [mergeAll, if_pos h]

/-- The loop ends at one node. -/
theorem mergeAll_end {l : List (HuffNode CHAR)} (h : l.length ≤ 1) (n : Nat) : mergeAll n l = l := by
  cases n with
  | zero => rfl
  | succ n => rw [mergeAll, if_neg (by omega)]

theorem mergeAll_freq (n : Nat) (l : List (HuffNode CHAR)) :
    ((mergeAll n l).map nodeFreq).sum = (l.map nodeFreq).sum := by
  induction n generalizing l with
  | zero => rfl
  | succ n ih =>
    unfold mergeAll
    split
    next h => rw [ih, mergeStep_freq h]
    next => rfl

/-- The merge loop ends in one root that has the symbols of the whole list. -/
theorem mergeAll_root {n : Nat} {l : List (HuffNode CHAR)} (hl : l ≠ []) (hn : l.length ≤ n) :
    ∃ root, mergeAll n l = [root] ∧ (nodeSymbols root).Perm (l.flatMap nodeSymbols) := by
  induction n generalizing l with
  | zero => exact absurd (List.length_eq_zero_iff.mp (by omega)) hl
  | succ n ih =>
    unfold mergeAll
    by_cases h : 1 < l.length
    · have h1 := length_mergeStep h
      rw [if_pos h]
      obtain ⟨root, hr, hp⟩ := ih (l := mergeStep l) (by rintro h0; rw [h0] at h1; simp at h1; omega) (by omega)
      exact ⟨root, hr, hp.trans (mergeStep_symbols h)⟩
    · rw [if_neg h]
      obtain ⟨x, l', rfl⟩ := List.exists_cons_of_ne_nil hl
      obtain rfl : l' = [] := by simpa using h
      exact ⟨x, rfl, by simp⟩

/-! ### Codes (R97) -/

theorem assignCodes_symbols (n : HuffNode CHAR) (p : Bits) : (assignCodes n p).map (·.1) = nodeSymbols n := by
  induction n generalizing p with
  | leaf c f => rfl
  | inner f z o hz ho => simp [assignCodes, nodeSymbols, hz, ho]

/-- Every code under a node begins with the path to the node. -/
theorem beginning_of_mem_assignCodes {n : HuffNode CHAR} {p : Bits} {e : CHAR × Bits} (h : e ∈ assignCodes n p) :
    p <+: e.2 := by
  induction n generalizing p with
  | leaf c f =>
    rw [List.mem_singleton.mp h]
  | inner f z o hz ho =>
    rcases List.mem_append.mp h with h | h
    · exact (List.prefix_append p [false]).trans (hz h)
    · exact (List.prefix_append p [true]).trans (ho h)

/-- The codes of a tree: no code begins another. -/
theorem assignCodes_prefixFree (n : HuffNode CHAR) (p : Bits) :
    (assignCodes n p).Pairwise fun e f => ¬ e.2 <+: f.2 ∧ ¬ f.2 <+: e.2 := by
  induction n generalizing p with
  | leaf c f => exact List.pairwise_singleton _ _
  | inner f z o hz ho =>
    refine List.pairwise_append.mpr ⟨hz _, ho _, fun a ha b hb => ?_⟩
    have h1 := beginning_of_mem_assignCodes ha
    have h2 := beginning_of_mem_assignCodes hb
    have hne : ∀ q : Bits, p ++ [false] <+: q → p ++ [true] <+: q → False := by
      rintro q ⟨r, rfl⟩ ⟨s, hs⟩
      simp at hs
    exact ⟨fun h => hne _ (h1.trans h) h2, fun h => hne _ h1 (h2.trans h)⟩

theorem treeEntries_symbols (n : HuffNode CHAR) : (treeEntries n).map (·.1) = nodeSymbols n := by
  cases n with
  | leaf c f => rfl
  | inner f z o =>
    rw [← assignCodes_symbols _ []]
    simp [treeEntries, Function.comp_def]

/-- A code of an inner node is its path itself: no bit is padded or lost. -/
theorem treeEntries_inner (f : Nat) (z o : HuffNode CHAR) : treeEntries (.inner f z o) =
    (assignCodes (.inner f z o) []).map fun e => (e.1, { size := e.2.length, rep := e.2 }) := by
  have hp : ∀ q : Bits, bvOfBits q.length q = { size := q.length, rep := q } := fun q => by
    rw [bvOfBits, pad_of_length_le le_rfl]
  simp only [treeEntries, hp]

theorem mem_treeEntries_inner {f : Nat} {z o : HuffNode CHAR} {e : CHAR × BitVector} :
    e ∈ treeEntries (.inner f z o) ↔
      ∃ q, (e.1, q) ∈ assignCodes (.inner f z o) [] ∧ e.2 = { size := q.length, rep := q } := by
  rw [treeEntries_inner, List.mem_map]
  constructor
  · rintro ⟨⟨c, q⟩, h, rfl⟩; exact ⟨q, h, rfl⟩
  · rintro ⟨q, h, h2⟩; exact ⟨(e.1, q), h, by rw [← h2]⟩

/-- Every code of a tree has at least one bit, and its size is its length. -/
theorem length_of_mem_treeEntries {n : HuffNode CHAR} {e : CHAR × BitVector} (h : e ∈ treeEntries n) :
    1 ≤ e.2.rep.length ∧ e.2.size = e.2.rep.length := by
  cases n with
  | leaf c f =>
    rw [List.mem_singleton.mp h]
    exact ⟨le_rfl, rfl⟩
  | inner f z o =>
    obtain ⟨q, hq, he⟩ := mem_treeEntries_inner.mp h
    rw [he]
    refine ⟨?_, rfl⟩
    have : ∀ b, ([] : Bits) ++ [b] <+: q → 1 ≤ q.length := fun b h => by simpa using h.length_le
    rcases List.mem_append.mp hq with h | h
    · exact this _ (beginning_of_mem_assignCodes h)
    · exact this _ (beginning_of_mem_assignCodes h)

/-- Two different entries of a tree: neither code begins the other. -/
theorem treeEntries_prefixFree (n : HuffNode CHAR) :
    (treeEntries n).Pairwise fun e f => ¬ e.2.rep <+: f.2.rep ∧ ¬ f.2.rep <+: e.2.rep := by
  cases n with
  | leaf c f => exact List.pairwise_singleton _ _
  | inner f z o =>
    have hp : ∀ q : Bits, (bvOfBits q.length q).rep = q := fun q => pad_of_length_le le_rfl
    rw [treeEntries, List.pairwise_map]
    simpa only [hp] using assignCodes_prefixFree (.inner f z o) []

/-! ### The table (R98) -/

/-- A Huffman table is empty for the empty text, and otherwise the entries of one tree over the text's symbols. -/
theorem huffmanTable_cases [DecidableEq CHAR] (key : CHAR → Nat) (text : Text CHAR) :
    (text = [] ∧ huffmanTable key text = { codeWidth := none, entries := [] }) ∨
      ∃ root, huffmanTable key text = { codeWidth := none, entries := treeEntries root } ∧
        (nodeSymbols root).Perm (firstOccurrences text) := by
  by_cases h : startNodes key text = []
  · left
    have h1 : sortedFreq key text = [] := by simpa [startNodes] using h
    have h2 : text = [] := by
      cases text with
      | nil => rfl
      | cons c text =>
        have := (mem_sortedFreq_symbols (key := key) (c := c)).mpr (List.mem_cons_self (l := text))
        rw [h1] at this
        simp at this
    subst h2
    exact ⟨rfl, rfl⟩
  · right
    obtain ⟨root, hr, hp⟩ := mergeAll_root h le_rfl
    refine ⟨root, by simp only [huffmanTable, hr], hp.trans ?_⟩
    have : (startNodes key text).flatMap nodeSymbols = (sortedFreq key text).map (·.1) := by
      rw [startNodes, List.flatMap_map]
      induction sortedFreq key text with
      | nil => rfl
      | cons e l ih => rw [List.flatMap_cons, ih]; rfl
    rw [this, ← freqScan_symbols]
    exact (sortedFreq_perm key text).map _

theorem huffmanTable_symbols [DecidableEq CHAR] (key : CHAR → Nat) (text : Text CHAR) :
    ((huffmanTable key text).entries.map (·.1)).Perm (firstOccurrences text) := by
  rcases huffmanTable_cases key text with ⟨rfl, h⟩ | ⟨root, h, hp⟩ <;> rw [h]
  · exact List.Perm.refl _
  · simpa only [treeEntries_symbols] using hp

theorem nodup_huffmanTable_symbols [DecidableEq CHAR] (key : CHAR → Nat) (text : Text CHAR) :
    ((huffmanTable key text).entries.map (·.1)).Nodup :=
  (huffmanTable_symbols key text).nodup_iff.mpr (nodup_firstOccurrences text)

theorem hasSymbol_huffmanTable [DecidableEq CHAR] {key : CHAR → Nat} {text : Text CHAR} {c : CHAR} :
    hasSymbol (huffmanTable key text) c = true ↔ c ∈ text := by
  rw [hasSymbol_iff, (huffmanTable_symbols key text).mem_iff, mem_firstOccurrences]

theorem length_of_mem_huffmanTable [DecidableEq CHAR] {key : CHAR → Nat} {text : Text CHAR} {e : CHAR × BitVector}
    (h : e ∈ (huffmanTable key text).entries) : 1 ≤ e.2.rep.length ∧ e.2.size = e.2.rep.length := by
  rcases huffmanTable_cases key text with ⟨rfl, ht⟩ | ⟨root, ht, -⟩ <;> rw [ht] at h
  · cases h
  · exact length_of_mem_treeEntries h

/-! ### Reading prefix-free codes back (R114, R116) -/

/-- In a prefix-free table the code at the front of the payload is the shortest that matches. -/
theorem shortestCode_of_prefixFree {t : CodeTable CHAR}
    (hp : t.entries.Pairwise fun e f => ¬ e.2.rep <+: f.2.rep ∧ ¬ f.2.rep <+: e.2.rep) {c : CHAR} {x : BitVector}
    (hm : (c, x) ∈ t.entries) (hl : 1 ≤ x.rep.length) (rest : Bits) :
    shortestCode t (x.rep ++ rest) = some (c, x.rep.length) := by
  have hn : (t.entries.map (fun e => e.2.rep)).Nodup := by
    rw [List.Nodup, List.pairwise_map]
    exact hp.imp fun h he => h.1 (by rw [he])
  refine shortestCode_eq_some.mpr ⟨hl, by simp, ?_, fun m h1 h2 => ?_⟩
  · rw [List.take_left' rfl]
    exact invBits_of_mem hn hm
  · rw [invBits_eq_none]
    intro e he hr
    have hlen : e.2.rep.length = m := by rw [hr, List.length_take, List.length_append]; omega
    have hpre : e.2.rep <+: x.rep := by
      rw [hr, List.take_append_of_le_length (by omega)]
      exact List.take_prefix _ _
    have hne : e ≠ (c, x) := by
      rintro rfl
      simp only at hlen
      omega
    have hsym : ∀ a ∈ t.entries, ∀ b ∈ t.entries, a ≠ b → ¬ a.2.rep <+: b.2.rep :=
      fun a ha b hb hab => List.Pairwise.forall_of_forall_of_flip (R := fun a b => a ≠ b → ¬ a.2.rep <+: b.2.rep)
        (fun _ _ h => absurd rfl h) (hp.imp fun h _ => h.1) (hp.imp fun h _ => h.2) ha hb hab
    exact hsym e he (c, x) hm hne hpre

end Sys2Proof.Machine
end

