-- ==== Sys2Proof/Laws/Results.lean ====
section
/-! SUPPORT. What `resultOf` can be, said once for all commands: which registers its results are for, which errors it has,
and what it depends on. -/

namespace Sys2Proof.Machine

variable {CHAR : Type} {C : CharSet CHAR}

/-! ### Sequencing in `Except` -/

theorem bind_eq_ok {ε α β : Type} {x : Except ε α} {f : α → Except ε β} {r : β} :
    (x >>= f) = .ok r ↔ ∃ a, x = .ok a ∧ f a = .ok r := by
  cases x <;> simp [bind, Except.bind]

theorem bind_eq_error {ε α β : Type} {x : Except ε α} {f : α → Except ε β} {e : ε} :
    (x >>= f) = .error e ↔ x = .error e ∨ ∃ a, x = .ok a ∧ f a = .error e := by
  cases x <;> simp [bind, Except.bind]

theorem pure_eq_ok {ε α : Type} {a b : α} : (pure a : Except ε α) = .ok b ↔ a = b := by
  simp [pure, Except.pure]

theorem pure_ne_error {ε α : Type} {a : α} {e : ε} : (pure a : Except ε α) ≠ .error e := by
  simp [pure, Except.pure]

theorem readOperand_eq_error {α : Type} {x : Option α} {e : ErrorCode} :
    readOperand x = .error e ↔ x = none ∧ e = .operandUnset := by
  cases x <;> simp [readOperand, eq_comm]

/-! ### Errors of the functions the commands call -/

theorem parseEntries_eq_error [DecidableEq CHAR] {e : List (CHAR × BitVector)} {lines : List (Text CHAR)}
    {err : ErrorCode}
    (h : parseEntries C e lines = .error err) : err = .malformedBitLiteral ∨ err = .corruptCodeTable := by
  induction lines generalizing e with
  | nil => cases h
  | cons l lines ih =>
    match l, h with
    | [], h => exact .inr (Except.error.inj h).symm
    | [_], h => exact .inr (Except.error.inj h).symm
    | c :: sep :: s, h =>
      rw [parseEntries] at h
      split at h
      · exact .inr (Except.error.inj h).symm
      · split at h
        · exact .inr (Except.error.inj h).symm
        · split at h
          next hb => exact .inl ((Except.error.inj h).symm ▸ bvFromString_eq_error hb)
          next => exact ih h

theorem deserialize_eq_error [DecidableEq CHAR] {t : Text CHAR} {err : ErrorCode} (h : deserialize C t = .error err) :
    err = .malformedBitLiteral ∨ err = .corruptCodeTable := by
  unfold deserialize at h
  split at h
  · cases h
  · split at h <;> simp only [bind_eq_error, pure_ne_error, and_false, exists_false, or_false] at h
    · rcases h with h | ⟨_, _, h⟩
      · unfold parseSize at h
        split at h
        · cases h
        · exact .inr (Except.error.inj h).symm
      · exact parseEntries_eq_error h
    · exact parseEntries_eq_error h

theorem unpack_eq_error {f : Bytes} {e : ErrorCode} (h : unpack f = .error e) : e = .corruptFrame := by
  cases hw : wellFormedFrame f with
  | false => exact (Except.error.inj ((unpack_ill_formed hw).symm.trans h)).symm
  | true =>
    rcases wellFormedFrame_cases hw with ⟨t, body, rfl, h0⟩ | ⟨t, body, last, rfl, h1, h7⟩
    · cases (unpack_no_tail h0 body).symm.trans h
    · cases (unpack_tail h1 h7 body last).symm.trans h

theorem encodeConcat_eq_error [DecidableEq CHAR] {t : CodeTable CHAR} {text : Text CHAR} {e : ErrorCode}
    (h : encodeConcat t text = .error e) :
    e = .unknownSymbol := by
  unfold encodeConcat at h
  split at h
  · cases h
  · exact (Except.error.inj h).symm

theorem lzwScan_eq_error [DecidableEq CHAR] {d : List ((Text CHAR) × Nat)} {next w : Nat} {cur rest : Text CHAR}
    {e : ErrorCode}
    (h : lzwScan d next w cur rest = .error e) : e = .unknownSymbol := by
  induction rest generalizing d next w cur with
  | nil =>
    unfold lzwScan at h
    split at h
    · cases h
    · exact (Except.error.inj h).symm
  | cons c rest ih =>
    unfold lzwScan at h
    split at h
    · exact ih h
    · split at h
      · exact (Except.error.inj h).symm
      · split at h
        next hs => exact ih (hs.trans h)
        next => cases h

theorem lzwEncode_eq_error [DecidableEq CHAR] {t : CodeTable CHAR} {text : Text CHAR} {e : ErrorCode}
    (h : lzwEncode t text = .error e) :
    e = .unknownSymbol := by
  unfold lzwEncode at h
  split at h
  next e' hc =>
    cases h
    unfold lzwCodes at hc
    split at hc
    · split at hc
      · cases hc
      · exact lzwScan_eq_error hc
    · exact (Except.error.inj hc).symm
  next => cases h

theorem lzwReads_eq_error {f : Nat} {i : List (Nat × Text CHAR)} {next w : Nat} {conj : Text CHAR} {b : Bits}
    {e : ErrorCode}
    (h : lzwReads f i next w conj b = .error e) : e = .unrepresentableCode := by
  induction f generalizing i next w conj b with
  | zero => cases h
  | succ f ih =>
    unfold lzwReads at h
    split at h
    · cases h
    · split at h
      · exact (Except.error.inj h).symm
      · split at h
        next hs => exact ih (hs.trans h)
        next => cases h

theorem lzwDecode_eq_error {t : CodeTable CHAR} {b : Bits} {e : ErrorCode} (h : lzwDecode t b = .error e) :
    e = .unrepresentableCode := by
  unfold lzwDecode at h
  split at h
  next hs => exact (Except.error.inj h) ▸ lzwReads_eq_error hs
  next => cases h

/-! ### The results' registers -/

/-- The value staged for a register, if there is one. -/
def staged (out : Results CHAR) : RegName → Option (RegValue CHAR)
  | .bv => out.bv.map .bitVector
  | .tbl => out.tbl.map .codeTable
  | .rInt => out.rInt.map .nat
  | .rBits => out.rBits.map .bits
  | .rBytes => out.rBytes.map .bytes
  | .rText => out.rText.map .text
  | .rStr => out.rStr.map .text
  | _ => none

/-- After a success a register holds what was staged for it, or else what it held. -/
theorem read_succeed (s : State CHAR) (out : Results CHAR) {r : RegName} (h : r ≠ .status) :
    (s.succeed out).read r = (staged out r).or (s.read r) := by
  rcases out with ⟨_ | _, _ | _, _ | _, _ | _, _ | _, _ | _, _ | _⟩ <;> cases r <;> first | rfl | exact absurd rfl h

/-- After an error every register but `STATUS` holds what it held. -/
theorem read_raise (s : State CHAR) (e : ErrorCode) {r : RegName} (h : r ≠ .status) :
    (s.raise e).read r = s.read r := by
  cases r <;> first | rfl | exact absurd rfl h

/-- A command stages a value for each register of its row of R51, and for no other. -/
theorem resultOf_staged [DecidableEq CHAR] {s : State CHAR} {i : Instr} {out : Results CHAR}
    (h : resultOf C s i = .ok out) (r : RegName) :
    (staged out r).isSome = true ↔ r ∈ writesOf i := by
  cases i <;> simp only [resultOf, bvFromStrResult, bvFromIntResult, bvToStrResult, bvToIntResult, bind_eq_ok,
    pure_eq_ok] at h
  all_goals
    obtain ⟨_, _, _, _, _, _, _, _, rfl⟩ := h
    cases r <;> simp [staged, writesOf, encodeResults, decodeResults]

/-- Results within the bounds are within them register by register (R8). -/
theorem resultsFit_iff {p : Params} {out : Results CHAR} :
    resultsFit p out = true ↔ ∀ r v, staged out r = some v → valueFits p v = true := by
  constructor
  · intro h r v hv
    simp only [resultsFit, Bool.and_eq_true, Option.all_eq_true] at h
    obtain ⟨⟨⟨⟨⟨⟨h1, h2⟩, h3⟩, h4⟩, h5⟩, h6⟩, h7⟩ := h
    cases r <;> simp only [staged, Option.map_eq_some_iff, reduceCtorEq] at hv
    all_goals
      obtain ⟨x, hx, rfl⟩ := hv
      simp only [valueFits]
      first | exact h1 _ hx | exact h2 _ hx | exact h3 _ hx | exact h4 _ hx | exact h5 _ hx | exact h6 _ hx | exact h7 _ hx
  · intro h
    simp only [resultsFit, Bool.and_eq_true, Option.all_eq_true]
    refine ⟨⟨⟨⟨⟨⟨?_, ?_⟩, ?_⟩, ?_⟩, ?_⟩, ?_⟩, ?_⟩ <;> intro x hx
    · exact h .bv _ (by rw [staged, hx]; rfl)
    · exact h .tbl _ (by rw [staged, hx]; rfl)
    · exact h .rInt _ (by rw [staged, hx]; rfl)
    · exact h .rBits _ (by rw [staged, hx]; rfl)
    · exact h .rBytes _ (by rw [staged, hx]; rfl)
    · exact h .rText _ (by rw [staged, hx]; rfl)
    · exact h .rStr _ (by rw [staged, hx]; rfl)

/-- A command has no error but those R131 lists for it. -/
theorem resultOf_error [DecidableEq CHAR] {s : State CHAR} {i : Instr} {e : ErrorCode}
    (h : resultOf C s i = .error e) : e ∈ errorsOf i := by
  cases i <;>
    simp only [resultOf, bvFromStrResult, bvFromIntResult, bvToStrResult, bvToIntResult, bind_eq_error,
      pure_ne_error, and_false, exists_false, or_false, readOperand_eq_error] at h <;>
    simp only [errorsOf, List.mem_cons, List.not_mem_nil, or_false]
  case bvFromStr =>
    rcases h with h | ⟨_, _, h | ⟨_, _, h⟩⟩
    · exact .inr h.2
    · exact .inr h.2
    · exact .inl (bvFromString_eq_error h)
  case bvFromInt =>
    rcases h with h | ⟨_, _, h⟩ <;> exact h.2
  case bvToStr | bvToInt | frmPack | tblBuildFw | tblBuildHuf | tblBuildLzw | tblSave => exact h.2
  case frmUnpack =>
    rcases h with h | ⟨_, _, h⟩
    · exact .inr h.2
    · exact .inl (unpack_eq_error h)
  case tblLoad =>
    rcases h with h | ⟨_, _, h⟩
    · exact .inr (.inr h.2)
    · exact (deserialize_eq_error h).imp_right .inl
  case fwEncode | hufEncode =>
    rcases h with h | ⟨_, _, h | ⟨_, _, h⟩⟩
    · exact .inr h.2
    · exact .inr h.2
    · exact .inl (encodeConcat_eq_error h)
  case lzwEncode =>
    rcases h with h | ⟨_, _, h | ⟨_, _, h⟩⟩
    · exact .inr h.2
    · exact .inr h.2
    · exact .inl (lzwEncode_eq_error h)
  case fwDecode | hufDecode =>
    rcases h with h | ⟨_, _, h | ⟨_, _, h⟩⟩
    · exact .inr h.2
    · exact .inr h.2
    · exact .inl (unpack_eq_error h)
  case lzwDecode =>
    rcases h with h | ⟨_, _, h | ⟨_, _, h | ⟨_, _, h⟩⟩⟩
    · exact .inr (.inr h.2)
    · exact .inr (.inr h.2)
    · exact .inl (unpack_eq_error h)
    · exact .inr (.inl (lzwDecode_eq_error h))

/-- Two states that agree on a register agree on its field. -/
theorem read_eq_iff {s t : State CHAR} :
    (s.read .aSize = t.read .aSize ↔ s.aSize = t.aSize) ∧ (s.read .aInt = t.read .aInt ↔ s.aInt = t.aInt) ∧
    (s.read .aStr = t.read .aStr ↔ s.aStr = t.aStr) ∧ (s.read .aBits = t.read .aBits ↔ s.aBits = t.aBits) ∧
    (s.read .aBytes = t.read .aBytes ↔ s.aBytes = t.aBytes) ∧ (s.read .aText = t.read .aText ↔ s.aText = t.aText) ∧
    (s.read .bv = t.read .bv ↔ s.bv = t.bv) ∧ (s.read .tbl = t.read .tbl ↔ s.tbl = t.tbl) := by
  refine ⟨?_, ?_, ?_, ?_, ?_, ?_, ?_, ?_⟩ <;>
    exact Option.map_inj_right fun a b h => by injection h

/-- What a command computes depends only on the registers it reads and on the tie key (R43). -/
theorem resultOf_congr [DecidableEq CHAR] {s t : State CHAR} {i : Instr} (h : ∀ r ∈ readsOf i, s.read r = t.read r)
    (hk : s.tieKey = t.tieKey) :
    resultOf C s i = resultOf C t i := by
  obtain ⟨h1, h2, h3, h4, h5, h6, h7, h8⟩ := read_eq_iff (s := s) (t := t)
  cases i <;>
    simp only [readsOf, List.mem_cons, List.not_mem_nil, or_false, forall_eq_or_imp, forall_eq, h1, h2, h3, h4, h5, h6,
      h7, h8] at h <;>
    simp only [resultOf, bvFromStrResult, bvFromIntResult, bvToStrResult, bvToIntResult, h, hk]

/-- The operands are in bounds register by register (R8). -/
theorem operandsInBounds_iff {i : Instr} {s : State CHAR} :
    OperandsInBounds i s ↔ ∀ r ∈ readsOf i, ∀ v, s.read r = some v → valueFits s.params v = true := by
  simp [OperandsInBounds, operandsFit, Option.all_eq_true]

end Sys2Proof.Machine
end

