-- ==== Sys2Proof/Laws/Legal.lean ====
section
/-! SUPPORT. Every value a command computes is legal: BitVectors (R17), tables (R18) and frames (R77, R78). -/

namespace Sys2Proof.Machine

variable {CHAR : Type} {C : CharSet CHAR}

theorem bitVectorLegal_bvOfBits (n : Nat) (s : Bits) : BitVectorLegal (bvOfBits n s) := by
  simp only [BitVectorLegal, bvOfBits, pad, List.length_append, List.length_replicate]
  omega

theorem mem_rankCodes_legal {w k : Nat} {l : List (CHAR × Nat)} {e : CHAR × BitVector} (h : e ∈ rankCodes w k l) :
    BitVectorLegal e.2 := by
  induction l generalizing k with
  | nil => cases h
  | cons x l ih =>
    rcases List.mem_cons.mp h with rfl | h
    · exact bitVectorLegal_bvOfBits _ _
    · exact ih h

theorem tableLegal_fixedWidthTable [DecidableEq CHAR] (key : CHAR → Nat) (text : Text CHAR) :
    TableLegal (fixedWidthTable key text) :=
  ⟨nodup_fixedWidthTable_symbols key text, fun _ h => mem_rankCodes_legal h⟩

theorem tableLegal_huffmanTable [DecidableEq CHAR] (key : CHAR → Nat) (text : Text CHAR) :
    TableLegal (huffmanTable key text) :=
  ⟨nodup_huffmanTable_symbols key text, fun _ h => (length_of_mem_huffmanTable h).2.le⟩

/-- Parsing keeps the symbols distinct and the codes legal. -/
theorem parseEntries_legal [DecidableEq CHAR] {e e' : List (CHAR × BitVector)} {lines : List (Text CHAR)}
    (h : (e.map (·.1)).Nodup ∧ ∀ x ∈ e, BitVectorLegal x.2) (hp : parseEntries C e lines = .ok e') :
    (e'.map (·.1)).Nodup ∧ ∀ x ∈ e', BitVectorLegal x.2 := by
  induction lines generalizing e with
  | nil => exact Except.ok.inj hp ▸ h
  | cons l lines ih =>
    match l, hp with
    | c :: sep :: s, hp =>
      rw [parseEntries] at hp
      split at hp
      · cases hp
      · split at hp
        · cases hp
        next hc =>
          split at hp
          · cases hp
          next x hx =>
            refine ih ⟨?_, ?_⟩ hp
            · rw [List.map_append, List.nodup_append]
              refine ⟨h.1, by simp, fun a ha b hb hab => hc ?_⟩
              obtain ⟨y, hy, rfl⟩ := List.mem_map.mp ha
              exact List.any_eq_true.mpr ⟨y, hy, by simpa [← hab] using hb⟩
            · intro y hy
              rcases List.mem_append.mp hy with hy | hy
              · exact h.2 y hy
              · rw [List.mem_singleton.mp hy, bvFromString_eq_ok hx]
                exact bitVectorLegal_bvOfBits _ _

theorem tableLegal_deserialize [DecidableEq CHAR] {text : Text CHAR} {t : CodeTable CHAR}
    (h : deserialize C text = .ok t) : TableLegal t := by
  unfold deserialize at h
  split at h
  · rw [← Except.ok.inj h]
    exact ⟨List.nodup_nil, fun _ h => (nomatch h)⟩
  · split at h <;> simp only [bind_eq_ok, pure_eq_ok] at h
    · obtain ⟨w, -, e, he, rfl⟩ := h
      exact parseEntries_legal (e := []) (by simp) he
    · obtain ⟨e, he, rfl⟩ := h
      exact parseEntries_legal (e := []) (by simp) he

/-- R78: a packed frame is well formed. -/
theorem wellFormedFrame_pack (b : Bits) : wellFormedFrame (pack b) = true := by
  have h := toNat_tailByte b.length
  rw [pack_eq, wellFormedFrame, h]
  by_cases h0 : b.length % 8 = 0
  · simp [h0]
  · have h7 : b.length % 8 ≤ 7 := by omega
    simp [h7, Nat.pos_of_ne_zero h0]

/-- Whatever a command stages is legal. -/
theorem resultOf_legal [DecidableEq CHAR] {s : State CHAR} {i : Instr} {out : Results CHAR}
    (h : resultOf C s i = .ok out) :
    (∀ x, out.bv = some x → BitVectorLegal x) ∧ (∀ t, out.tbl = some t → TableLegal t) ∧
      ∀ f, out.rBytes = some f → wellFormedFrame f = true := by
  cases i <;> simp only [resultOf, bvFromStrResult, bvFromIntResult, bvToStrResult, bvToIntResult, bind_eq_ok,
    pure_eq_ok] at h
  case bvFromStr =>
    obtain ⟨_, _, _, _, x, hx, rfl⟩ := h
    refine ⟨fun y hy => ?_, fun _ h => (nomatch h), fun _ h => (nomatch h)⟩
    rw [← Option.some.inj hy, bvFromString_eq_ok hx]
    exact bitVectorLegal_bvOfBits _ _
  case bvFromInt =>
    obtain ⟨_, _, _, _, rfl⟩ := h
    exact ⟨fun y hy => Option.some.inj hy ▸ bitVectorLegal_bvOfBits _ _, fun _ h => (nomatch h), fun _ h => (nomatch h)⟩
  case bvToStr | bvToInt | tblSave =>
    obtain ⟨_, _, rfl⟩ := h
    exact ⟨fun _ h => (nomatch h), fun _ h => (nomatch h), fun _ h => (nomatch h)⟩
  case frmPack =>
    obtain ⟨b, _, rfl⟩ := h
    exact ⟨fun _ h => (nomatch h), fun _ h => (nomatch h), fun _ h => Option.some.inj h ▸ wellFormedFrame_pack _⟩
  case frmUnpack =>
    obtain ⟨_, _, _, _, rfl⟩ := h
    exact ⟨fun _ h => (nomatch h), fun _ h => (nomatch h), fun _ h => (nomatch h)⟩
  case tblBuildFw | tblBuildLzw =>
    obtain ⟨t, _, rfl⟩ := h
    exact ⟨fun _ h => (nomatch h), fun _ h => Option.some.inj h ▸ tableLegal_fixedWidthTable _ _, fun _ h => (nomatch h)⟩
  case tblBuildHuf =>
    obtain ⟨t, _, rfl⟩ := h
    exact ⟨fun _ h => (nomatch h), fun _ h => Option.some.inj h ▸ tableLegal_huffmanTable _ _, fun _ h => (nomatch h)⟩
  case tblLoad =>
    obtain ⟨_, _, t, ht, rfl⟩ := h
    exact ⟨fun _ h => (nomatch h), fun _ h => Option.some.inj h ▸ tableLegal_deserialize ht, fun _ h => (nomatch h)⟩
  case fwEncode | hufEncode | lzwEncode =>
    obtain ⟨_, _, _, _, b, _, rfl⟩ := h
    exact ⟨fun _ h => (nomatch h), fun _ h => (nomatch h), fun _ h => Option.some.inj h ▸ wellFormedFrame_pack _⟩
  case fwDecode | hufDecode =>
    obtain ⟨_, _, _, _, _, _, rfl⟩ := h
    exact ⟨fun _ h => (nomatch h), fun _ h => (nomatch h), fun _ h => (nomatch h)⟩
  case lzwDecode =>
    obtain ⟨_, _, _, _, _, _, _, _, rfl⟩ := h
    exact ⟨fun _ h => (nomatch h), fun _ h => (nomatch h), fun _ h => (nomatch h)⟩

end Sys2Proof.Machine
end

