-- ==== Sys2Proof/Laws/Lzw.lean ====
section
/-! SUPPORT. The LZW engines (R117 to R127): when the loops answer at all, what one turn of each loop does, and the
simulations that keep the decoder one registration behind the encoder, at the same width. -/

namespace Sys2Proof.Machine

variable {CHAR : Type}

theorem lookup_cons_self {α β : Type} [BEq α] [LawfulBEq α] (a : α) (b : β) (l : List (α × β)) :
    ((a, b) :: l).lookup a = some b := by
  simp

theorem lookup_cons_of_ne {α β : Type} [BEq α] [LawfulBEq α] {a k : α} (h : k ≠ a) (b : β) (l : List (α × β)) :
    ((a, b) :: l).lookup k = l.lookup k := by
  have : (k == a) = false := by simpa using h
  simp [List.lookup_cons, this]

theorem mem_of_lookup {α β : Type} [BEq α] [LawfulBEq α] {l : List (α × β)} {k : α} {o : β} (h : l.lookup k = some o) :
    (k, o) ∈ l := by
  induction l with
  | nil => cases h
  | cons x l ih =>
    obtain ⟨a, b⟩ := x
    by_cases e : k = a
    · subst e
      rw [lookup_cons_self] at h
      simp [Option.some.inj h]
    · rw [lookup_cons_of_ne e] at h
      exact List.mem_cons_of_mem _ (ih h)

theorem one_le_effWidth (w : Nat) : 1 ≤ effWidth w := le_max_right _ _

/-! ### The encoder always has an answer for known text (R120) -/

/-- The encoder's unreachable error: with `cur` and every symbol to come in the dictionary, the scan answers codes. -/
theorem lzwScan_ok [DecidableEq CHAR] {d : List (Text CHAR × Nat)} {next w : Nat} {cur rest : Text CHAR}
    (hc : (d.lookup cur).isSome = true)
    (hr : ∀ c ∈ rest, (d.lookup [c]).isSome = true) : ∃ codes, lzwScan d next w cur rest = .ok codes := by
  induction rest generalizing d next w cur with
  | nil =>
    obtain ⟨k, hk⟩ := Option.isSome_iff_exists.mp hc
    exact ⟨_, by rw [lzwScan, hk]⟩
  | cons c rest ih =>
    unfold lzwScan
    split
    next h => exact ih h fun x hx => hr x (List.mem_cons_of_mem _ hx)
    next h =>
      obtain ⟨k, hk⟩ := Option.isSome_iff_exists.mp hc
      have up : ∀ s, (d.lookup s).isSome = true → (((cur ++ [c], next) :: d).lookup s).isSome = true := by
        intro s hs
        by_cases e : s = cur ++ [c]
        · rw [e, lookup_cons_self]; rfl
        · rwa [lookup_cons_of_ne e]
      obtain ⟨codes, hcodes⟩ := ih (d := (cur ++ [c], next) :: d) (next := next + 1) (w := grow w next) (cur := [c])
        (up _ (hr c List.mem_cons_self)) fun x hx => up _ (hr x (List.mem_cons_of_mem _ hx))
      exact ⟨_, by rw [hk, hcodes]⟩

theorem seedDict_has [DecidableEq CHAR] {t : CodeTable CHAR} {c : CHAR} (h : hasSymbol t c = true) :
    ((seedDict t).lookup [c]).isSome = true := by
  rw [lookup_isSome_iff]
  obtain ⟨e, he, rfl⟩ := List.mem_map.mp (hasSymbol_iff.mp h)
  exact List.mem_map.mpr ⟨_, List.mem_map.mpr ⟨e, he, rfl⟩, rfl⟩

/-- What the encoder's seed binds (R117): one-character texts, to their codes' numbers. -/
theorem mem_seedDict_of_lookup [DecidableEq CHAR] {t : CodeTable CHAR} {o : Text CHAR} {k : Nat}
    (h : (seedDict t).lookup o = some k) : ∃ e ∈ t.entries, o = [e.1] ∧ val e.2.rep = k := by
  obtain ⟨e, he, hx⟩ := List.mem_map.mp (mem_of_lookup h)
  obtain ⟨h1, h2⟩ := Prod.mk.inj hx
  exact ⟨e, he, h1.symm, h2⟩

theorem seedDict_lookup_eq_none [DecidableEq CHAR] {t : CodeTable CHAR} {o : Text CHAR} (h : o.length ≠ 1) :
    (seedDict t).lookup o = none := by
  by_contra hn
  obtain ⟨k, hk⟩ := Option.ne_none_iff_exists'.mp hn
  obtain ⟨e, -, rfl, -⟩ := mem_seedDict_of_lookup hk
  exact h rfl

/-- `lzwCodes` answers codes exactly for text over the table's symbols. -/
theorem lzwCodes_ok [DecidableEq CHAR] {t : CodeTable CHAR} {text : Text CHAR} (h : ∀ c ∈ text, hasSymbol t c = true) :
    ∃ codes, lzwCodes t text = .ok codes := by
  unfold lzwCodes
  rw [if_pos (knownText_iff.mpr h)]
  cases text with
  | nil => exact ⟨[], rfl⟩
  | cons c rest =>
    exact lzwScan_ok (seedDict_has (h c List.mem_cons_self)) fun x hx =>
      seedDict_has (h x (List.mem_cons_of_mem _ hx))

theorem lzwEncode_of_codes [DecidableEq CHAR] {t : CodeTable CHAR} {text : Text CHAR} {codes : List (Nat × Nat)}
    (h : lzwCodes t text = .ok codes) :
    lzwEncode t text = .ok (codes.flatMap fun p => codeBits p.2 p.1) := by
  simp only [lzwEncode, h]

theorem lzwCodes_of_unknown [DecidableEq CHAR] {t : CodeTable CHAR} {text : Text CHAR}
    (h : ∃ c ∈ text, code t c = none) :
    lzwCodes t text = .error .unknownSymbol := by
  obtain ⟨c, hc, hn⟩ := h
  have : knownText t text = false := by
    rw [knownText, List.all_eq_false]
    exact ⟨c, hc, by simp [hasSymbol, hn]⟩
  simp [lzwCodes, this]

/-! ### The decoder after its first step (R124) -/

/-- The entries of the decoder's dictionary are never empty texts. -/
def NoEmptyEntry (i : List (Nat × Text CHAR)) : Prop := ∀ k o, i.lookup k = some o → o ≠ []

theorem noEmptyEntry_register {i : List (Nat × Text CHAR)} (h : NoEmptyEntry i) (next : Nat) (conj o : Text CHAR) :
    NoEmptyEntry (lzwRegister i next conj o) := by
  unfold lzwRegister
  split
  · exact h
  next hc =>
    intro k x hx
    by_cases e : k = next
    · rw [e, lookup_cons_self] at hx
      rw [← Option.some.inj hx]
      simp [hc]
    · rw [lookup_cons_of_ne e] at hx
      exact h k x hx

/-- With a conjecture, or a known code, a step has an output, and it is not empty. -/
theorem lzwOutput_ok {i : List (Nat × Text CHAR)} (h : NoEmptyEntry i) {conj : Text CHAR} {k : Nat}
    (hk : conj ≠ [] ∨ i.lookup k ≠ none) : ∃ o, lzwOutput i conj k = some o ∧ o ≠ [] := by
  unfold lzwOutput
  split
  next o ho => exact ⟨o, rfl, h k o ho⟩
  next hn =>
    have hc : conj ≠ [] := hk.resolve_right fun x => x hn
    exact ⟨_, if_neg hc, by simp [hc]⟩

/-- With a conjecture no later step fails. -/
theorem lzwReads_ok {f : Nat} {i : List (Nat × Text CHAR)} (h : NoEmptyEntry i) {next w : Nat} {conj : Text CHAR}
    (hc : conj ≠ []) (b : Bits) : ∃ reads, lzwReads f i next w conj b = .ok reads := by
  induction f generalizing i next w conj b with
  | zero => exact ⟨[], rfl⟩
  | succ f ih =>
    unfold lzwReads
    split
    · exact ⟨[], rfl⟩
    · obtain ⟨o, ho, hne⟩ := lzwOutput_ok h (conj := conj) (k := val (b.take (effWidth w))) (.inl hc)
      obtain ⟨reads, hr⟩ := ih (noEmptyEntry_register h next conj o) hne (next := lzwNext next conj)
        (w := grow w (lzwNext next conj)) (b.drop (effWidth w))
      exact ⟨{ code := val (b.take (effWidth w)), width := effWidth w, output := o } :: reads, by simp only [ho, hr]⟩

theorem mem_invNum_of_lookup {t : CodeTable CHAR} {k : Nat} {o : Text CHAR} (h : (invNum t).lookup k = some o) :
    ∃ e ∈ t.entries, o = [e.1] ∧ val e.2.rep = k := by
  obtain ⟨e, he, hx⟩ := List.mem_map.mp (List.mem_reverse.mp (mem_of_lookup h))
  obtain ⟨h1, h2⟩ := Prod.mk.inj hx
  exact ⟨e, he, h2.symm, h1⟩

theorem noEmptyEntry_invNum (t : CodeTable CHAR) : NoEmptyEntry (invNum t) := by
  intro k o h
  obtain ⟨e, -, rfl, -⟩ := mem_invNum_of_lookup h
  simp

theorem invNum_lookup_eq_none {t : CodeTable CHAR} {k : Nat} :
    (invNum t).lookup k = none ↔ ∀ e ∈ t.entries, val e.2.rep ≠ k := by
  have h := lookup_isSome_iff (l := invNum t) (a := k)
  rw [← Option.not_isSome_iff_eq_none, h]
  simp [invNum, toInteger]

/-! ### Growth and code fit (R118, R126) -/

theorem le_grow (w next : Nat) : w ≤ grow w next := by
  unfold grow; split <;> omega

/-- Where the counter fits the width, the next counter fits the grown width. -/
theorem grow_fits {w next : Nat} (h : next ≤ 2 ^ w) : next + 1 ≤ 2 ^ grow w next := by
  unfold grow
  split
  · rw [pow_succ]
    have := Nat.one_le_two_pow (n := w)
    omega
  · omega

theorem lt_effWidth {k next w : Nat} (hk : k < next) (h : next ≤ 2 ^ w) : k < 2 ^ effWidth w :=
  (hk.trans_le h).trans_le (Nat.pow_le_pow_right (by norm_num) (le_max_left _ _))

theorem effWidth_mono {v w : Nat} (h : v ≤ w) : effWidth v ≤ effWidth w := max_le_max_right _ h

theorem codeBits_eq {e k : Nat} (he : 1 ≤ e) (h : k < 2 ^ e) : codeBits e k = bitsOf e k := pad_bin he h

/-- Where the counter fits the width and the dictionary is below the counter, every emitted code fits its width. -/
theorem lzwScan_fits [DecidableEq CHAR] {d : List (Text CHAR × Nat)} {next w : Nat} {cur rest : Text CHAR}
    {codes : List (Nat × Nat)} (hd : ∀ s k, d.lookup s = some k → k < next) (hf : next ≤ 2 ^ w)
    (h : lzwScan d next w cur rest = .ok codes) : ∀ p ∈ codes, p.1 < 2 ^ p.2 := by
  induction rest generalizing d next w cur codes with
  | nil =>
    unfold lzwScan at h
    split at h
    next k hk =>
      rw [← Except.ok.inj h]
      intro p hp
      rw [List.mem_singleton.mp hp]
      exact lt_effWidth (hd _ _ hk) hf
    next => cases h
  | cons c rest ih =>
    unfold lzwScan at h
    split at h
    · exact ih hd hf h
    · split at h
      · cases h
      next k hk =>
        split at h
        · cases h
        next codes' hs =>
          rw [← Except.ok.inj h]
          have hd' : ∀ s k, ((cur ++ [c], next) :: d).lookup s = some k → k < next + 1 := by
            intro s k hl
            by_cases e : s = cur ++ [c]
            · rw [e, lookup_cons_self] at hl
              have := Option.some.inj hl
              omega
            · rw [lookup_cons_of_ne e] at hl
              have := hd s k hl
              omega
          intro p hp
          rcases List.mem_cons.mp hp with rfl | hp
          · exact lt_effWidth (hd _ _ hk) hf
          · exact ih hd' (grow_fits hf) hs p hp

/-! ### One turn of each loop (R120, R122) -/

/-- The end of the scan: the code for what remains. -/
theorem lzwScan_end [DecidableEq CHAR] {d : List (Text CHAR × Nat)} {cur : Text CHAR} {k : Nat}
    (hk : d.lookup cur = some k) (next w : Nat) : lzwScan d next w cur [] = .ok [(k, effWidth w)] := by
  rw [lzwScan, hk]

/-- The extension is in the dictionary: absorb. -/
theorem lzwScan_absorb [DecidableEq CHAR] {d : List (Text CHAR × Nat)} {cur : Text CHAR} {c : CHAR}
    (h : d.lookup (cur ++ [c]) ≠ none) (next w : Nat) (rest : Text CHAR) :
    lzwScan d next w cur (c :: rest) = lzwScan d next w (cur ++ [c]) rest := by
  rw [lzwScan, if_pos (Option.isSome_iff_ne_none.mpr h)]

/-- It is not: emit, grow, register, restart. -/
theorem lzwScan_emit [DecidableEq CHAR] {d : List (Text CHAR × Nat)} {cur : Text CHAR} {c : CHAR} {k : Nat}
    (hk : d.lookup cur = some k) (h : d.lookup (cur ++ [c]) = none) (next w : Nat) (rest : Text CHAR) :
    lzwScan d next w cur (c :: rest) =
      (lzwScan ((cur ++ [c], next) :: d) (next + 1) (grow w next) [c] rest).map ((k, effWidth w) :: ·) := by
  rw [lzwScan, if_neg (by simp [h]), hk]
  dsimp only
  cases lzwScan ((cur ++ [c], next) :: d) (next + 1) (grow w next) [c] rest <;> rfl

/-- Too few bits for a code: the decoder ends, with any fuel. -/
theorem lzwReads_end {w : Nat} {b : Bits} (h : b.length < effWidth w) (f : Nat) (i : List (Nat × Text CHAR))
    (next : Nat)
    (conj : Text CHAR) : lzwReads f i next w conj b = .ok [] := by
  cases f with
  | zero => rfl
  | succ f => rw [lzwReads, if_pos h]

@[simp] theorem lzwReads_nil (f : Nat) (i : List (Nat × Text CHAR)) (next w : Nat) (conj : Text CHAR) :
    lzwReads f i next w conj [] = .ok [] :=
  lzwReads_end (b := []) (one_le_effWidth w) f i next conj

/-- More fuel than bits changes nothing. -/
theorem lzwReads_fuel {f : Nat} {b : Bits} (h : b.length ≤ f) (i : List (Nat × Text CHAR)) (next w : Nat)
    (conj : Text CHAR) : lzwReads f i next w conj b = lzwReads b.length i next w conj b := by
  induction f using Nat.strong_induction_on generalizing b i next w conj with
  | _ f ih =>
    by_cases he : b.length < effWidth w
    · rw [lzwReads_end he, lzwReads_end he]
    · have h1 := one_le_effWidth w
      obtain ⟨f, rfl⟩ : ∃ g, f = g + 1 := ⟨f - 1, by omega⟩
      obtain ⟨n, hn⟩ : ∃ n, b.length = n + 1 := ⟨b.length - 1, by omega⟩
      have hd : (b.drop (effWidth w)).length ≤ n := by rw [List.length_drop]; omega
      rw [hn, lzwReads, lzwReads]
      simp only [ih f (by omega) (b := b.drop (effWidth w)) (by omega)]
      rcases Nat.lt_or_ge n (f + 1) with hlt | hge
      · simp only [ih n (by omega) hd]
      · omega

/-- One step of the decoder: its output, what it registers, the counter and the width after it (R122). -/
theorem lzwReads_step {i : List (Nat × Text CHAR)} {w : Nat} {conj o : Text CHAR} {b : Bits}
    (h : effWidth w ≤ b.length) (ho : lzwOutput i conj (val (b.take (effWidth w))) = some o) (next : Nat) :
    lzwReads b.length i next w conj b =
      (lzwReads (b.drop (effWidth w)).length (lzwRegister i next conj o) (lzwNext next conj)
        (grow w (lzwNext next conj)) o (b.drop (effWidth w))).map
          (LzwRead.mk (val (b.take (effWidth w))) (effWidth w) o :: ·) := by
  have h1 := one_le_effWidth w
  obtain ⟨n, hn⟩ : ∃ n, b.length = n + 1 := ⟨b.length - 1, by omega⟩
  rw [hn, lzwReads, if_neg (by omega), ho]
  dsimp only
  rw [lzwReads_fuel (f := n) (by rw [List.length_drop]; omega)]
  cases lzwReads (b.drop (effWidth w)).length (lzwRegister i next conj o) (lzwNext next conj)
    (grow w (lzwNext next conj)) o (b.drop (effWidth w)) <;> rfl

/-- The step that has no output fails (R124). -/
theorem lzwReads_fails {i : List (Nat × Text CHAR)} {w : Nat} {conj : Text CHAR} {b : Bits}
    (h : effWidth w ≤ b.length) (ho : lzwOutput i conj (val (b.take (effWidth w))) = none) (next : Nat) :
    lzwReads b.length i next w conj b = .error .unrepresentableCode := by
  have h1 := one_le_effWidth w
  obtain ⟨n, hn⟩ : ∃ n, b.length = n + 1 := ⟨b.length - 1, by omega⟩
  rw [hn, lzwReads, if_neg (by omega), ho]

/-- The step that reads a code which fits its width. -/
theorem lzwReads_code {i : List (Nat × Text CHAR)} {w k : Nat} {conj o : Text CHAR} (hk : k < 2 ^ effWidth w)
    (ho : lzwOutput i conj k = some o) (next : Nat) (b : Bits) :
    lzwReads (codeBits (effWidth w) k ++ b).length i next w conj (codeBits (effWidth w) k ++ b) =
      (lzwReads b.length (lzwRegister i next conj o) (lzwNext next conj) (grow w (lzwNext next conj)) o b).map
        (LzwRead.mk k (effWidth w) o :: ·) := by
  have hl := length_bitsOf (effWidth w) k
  have hv := val_bitsOf_of_lt hk
  rw [codeBits_eq (one_le_effWidth w) hk]
  have ht := List.take_left' (l₂ := b) hl
  have := lzwReads_step (i := i) (conj := conj) (o := o) (b := bitsOf (effWidth w) k ++ b) (w := w) (by simp)
    (by rw [ht, hv]; exact ho) next
  rwa [ht, hv, List.drop_left' hl] at this

/-! ### Lockstep, for every table (R125) -/

/-- No width of a scan is below the current one, and the widths never decrease. -/
theorem lzwScan_widths [DecidableEq CHAR] {d : List (Text CHAR × Nat)} {next w : Nat} {cur rest : Text CHAR}
    {codes : List (Nat × Nat)} (h : lzwScan d next w cur rest = .ok codes) :
    (∀ p ∈ codes, effWidth w ≤ p.2) ∧ (codes.map (·.2)).Pairwise (· ≤ ·) := by
  induction rest generalizing d next w cur codes with
  | nil =>
    unfold lzwScan at h
    split at h
    next k hk =>
      rw [← Except.ok.inj h]
      exact ⟨fun p hp => by rw [List.mem_singleton.mp hp], List.pairwise_singleton _ _⟩
    next => cases h
  | cons c rest ih =>
    unfold lzwScan at h
    split at h
    · exact ih h
    · split at h
      · cases h
      · split at h
        · cases h
        next codes' hs =>
          rw [← Except.ok.inj h]
          obtain ⟨h1, h2⟩ := ih hs
          have hle : ∀ p ∈ codes', effWidth w ≤ p.2 := fun p hp => (effWidth_mono (le_grow w next)).trans (h1 p hp)
          refine ⟨fun p hp => ?_, List.pairwise_cons.mpr ⟨fun v hv => ?_, h2⟩⟩
          · rcases List.mem_cons.mp hp with rfl | hp
            · exact le_rfl
            · exact hle p hp
          · obtain ⟨p, hp, rfl⟩ := List.mem_map.mp hv
            exact hle p hp

/-- Where every code fits its width, a decoder whose counter catches up with the encoder's in its next step reads back the
codes at their widths, whatever it puts out, if the first code has an output. -/
theorem lzwReads_codes_of_lzwScan [DecidableEq CHAR] {d : List (Text CHAR × Nat)} {next w next' : Nat}
    {i : List (Nat × Text CHAR)} {conj cur rest : Text CHAR} {codes : List (Nat × Nat)} (hi : NoEmptyEntry i)
    (hn : lzwNext next' conj = next) (h : lzwScan d next w cur rest = .ok codes) (hf : ∀ p ∈ codes, p.1 < 2 ^ p.2)
    (hfirst : conj = [] → ∀ p, codes.head? = some p → i.lookup p.1 ≠ none) :
    ∃ reads, lzwReads (codes.flatMap fun p => codeBits p.2 p.1).length i next' w conj
        (codes.flatMap fun p => codeBits p.2 p.1) = .ok reads ∧
      reads.map (fun r => (r.code, r.width)) = codes := by
  induction rest generalizing d next w next' i conj cur codes with
  | nil =>
    unfold lzwScan at h
    split at h
    next k _ =>
      obtain rfl := Except.ok.inj h
      obtain ⟨o, ho, hne⟩ := lzwOutput_ok hi (conj := conj) (k := k)
        (or_iff_not_imp_left.mpr fun hc => hfirst (not_not.mp hc) _ rfl)
      simp only [List.flatMap_cons, List.flatMap_nil]
      rw [lzwReads_code (hf (k, effWidth w) (by simp)) ho, lzwReads_nil]
      exact ⟨_, rfl, rfl⟩
    next => cases h
  | cons c rest ih =>
    unfold lzwScan at h
    split at h
    · exact ih hi hn h hf hfirst
    · split at h
      · cases h
      next k _ =>
        split at h
        · cases h
        next codes' hscan =>
          obtain rfl := Except.ok.inj h
          obtain ⟨o, ho, hne⟩ := lzwOutput_ok hi (conj := conj) (k := k)
            (or_iff_not_imp_left.mpr fun hc => hfirst (not_not.mp hc) _ rfl)
          obtain ⟨reads, h1, h2⟩ := ih (noEmptyEntry_register hi next' conj o) (next' := lzwNext next' conj)
            (conj := o) (by rw [lzwNext, if_neg hne, hn]) hscan (fun p hp => hf p (List.mem_cons_of_mem _ hp))
            fun hc => absurd hc hne
          rw [List.flatMap_cons, lzwReads_code (hf (k, effWidth w) (by simp)) ho, hn]
          rw [hn] at h1
          exact ⟨_, by rw [h1]; rfl, by simp [h2]⟩

/-- The first code of a text is its first symbol's, which the decoder's seed has. -/
theorem lzwCodes_head [DecidableEq CHAR] {t : CodeTable CHAR} {c : CHAR} {rest : Text CHAR} {codes : List (Nat × Nat)}
    (h : lzwScan (seedDict t) (tableSize t) (width t) [c] rest = .ok codes) {p : Nat × Nat}
    (hp : codes.head? = some p) : (invNum t).lookup p.1 ≠ none := by
  have hk : (seedDict t).lookup [c] = some p.1 := by
    cases rest with
    | nil =>
      unfold lzwScan at h
      split at h
      next k hk =>
        rw [← Except.ok.inj h] at hp
        rw [hk, ← Option.some.inj hp]
      next => cases h
    | cons c' rest =>
      have hn : (seedDict t).lookup ([c] ++ [c']) = none := seedDict_lookup_eq_none (by simp)
      unfold lzwScan at h
      rw [hn, if_neg (by simp)] at h
      split at h
      · cases h
      next k hk =>
        split at h
        · cases h
        next =>
          rw [← Except.ok.inj h] at hp
          rw [hk, ← Option.some.inj hp]
  obtain ⟨e, he, -, hx⟩ := mem_seedDict_of_lookup hk
  rw [Ne, invNum_lookup_eq_none]
  exact fun h => h e he hx

/-- R125: on every table whose emitted codes fit their widths, the decoder reads the codes at the widths they were emitted
at. -/
theorem lzwSteps_of_lzwCodes [DecidableEq CHAR] {t : CodeTable CHAR} {text : Text CHAR} {codes : List (Nat × Nat)}
    (h : lzwCodes t text = .ok codes) (hf : ∀ p ∈ codes, p.1 < 2 ^ p.2) :
    ∃ reads, lzwSteps t (codes.flatMap fun p => codeBits p.2 p.1) = .ok reads ∧
      reads.map (fun r => (r.code, r.width)) = codes := by
  unfold lzwCodes at h
  split at h
  · split at h
    · obtain rfl := Except.ok.inj h
      exact ⟨[], rfl, rfl⟩
    · exact lzwReads_codes_of_lzwScan (noEmptyEntry_invNum t) rfl h hf fun _ _ => lzwCodes_head h
  · cases h

/-! ### The simulation (R125, R127) -/

/-- The encoder (dictionary `d`, counter `next`) and the decoder (dictionary `i`, counter `next'`, conjecture `conj`) just
before the code of a text that begins with `c` is emitted and read: the decoder lacks exactly the entry the encoder made
last, which is the conjecture and `c`. -/
structure LzwSync [DecidableEq CHAR] (d : List (Text CHAR × Nat)) (next : Nat) (i : List (Nat × Text CHAR))
    (next' : Nat) (conj : Text CHAR) (c : CHAR) : Prop where
  below : ∀ s k, d.lookup s = some k → k < next
  inj : ∀ s s' k, d.lookup s = some k → d.lookup s' = some k → s = s'
  agree : ∀ k s, conj = [] ∨ k ≠ next' → (i.lookup k = some s ↔ d.lookup s = some k)
  start : conj = [] → next' = next
  lag : conj ≠ [] → next' + 1 = next ∧ i.lookup next' = none ∧ d.lookup (conj ++ [c]) = some next'

theorem LzwSync.next_eq [DecidableEq CHAR] {d : List (Text CHAR × Nat)} {next next' : Nat}
    {i : List (Nat × Text CHAR)} {conj : Text CHAR} {c : CHAR}
    (h : LzwSync d next i next' conj c) : lzwNext next' conj = next := by
  unfold lzwNext
  split
  next hc => exact h.start hc
  next hc => exact (h.lag hc).1

/-- The decoder's output is the text whose code the encoder emitted, whichever case of R122 applies. -/
theorem LzwSync.output [DecidableEq CHAR] {d : List (Text CHAR × Nat)} {next next' : Nat}
    {i : List (Nat × Text CHAR)} {conj tail : Text CHAR} {c : CHAR}
    (h : LzwSync d next i next' conj c) {k : Nat} (hk : d.lookup (c :: tail) = some k) :
    lzwOutput i conj k = some (c :: tail) := by
  unfold lzwOutput
  by_cases hc : conj = [] ∨ k ≠ next'
  · rw [(h.agree k _ hc).mpr hk]
  · rw [not_or, not_not] at hc
    obtain ⟨hne, rfl⟩ := hc
    obtain ⟨-, hn, hl⟩ := h.lag hne
    have he := h.inj _ _ _ hk hl
    rw [hn]
    obtain ⟨x, l, rfl⟩ := List.exists_cons_of_ne_nil hne
    have hx : c = x := by injection he
    simp only [reduceCtorEq, if_false, List.take_succ_cons, List.take_zero]
    rw [he, hx]

/-- Emitting and registering on both sides keeps them in step. -/
theorem LzwSync.register [DecidableEq CHAR] {d : List (Text CHAR × Nat)} {next next' : Nat}
    {i : List (Nat × Text CHAR)} {conj tail : Text CHAR}
    {c c' : CHAR} (h : LzwSync d next i next' conj c)
    (hn : d.lookup (c :: tail ++ [c']) = none) :
    LzwSync ((c :: tail ++ [c'], next) :: d) (next + 1) (lzwRegister i next' conj (c :: tail)) next (c :: tail) c' := by
  have hreg : ∀ k s, k ≠ next → ((lzwRegister i next' conj (c :: tail)).lookup k = some s ↔ d.lookup s = some k) := by
    intro k s hkn
    unfold lzwRegister
    split
    next hc => exact h.agree k s (.inl hc)
    next hc =>
      obtain ⟨h1, h2, h3⟩ := h.lag hc
      by_cases e : k = next'
      · subst e
        rw [lookup_cons_self]
        constructor
        · intro hs
          rw [← Option.some.inj hs]
          exact h3
        · intro hs
          rw [h.inj _ _ _ hs h3]
          rfl
      · rw [lookup_cons_of_ne e]
        exact h.agree k s (.inr e)
  constructor
  · intro s x hl
    by_cases e : s = c :: tail ++ [c']
    · rw [e, lookup_cons_self] at hl
      have := Option.some.inj hl
      omega
    · rw [lookup_cons_of_ne e] at hl
      have := h.below s x hl
      omega
  · intro s s' x h1 h2
    by_cases e : s = c :: tail ++ [c'] <;> by_cases e' : s' = c :: tail ++ [c']
    · rw [e, e']
    · rw [e, lookup_cons_self] at h1
      rw [lookup_cons_of_ne e'] at h2
      have := h.below _ _ h2
      have := Option.some.inj h1
      omega
    · rw [e', lookup_cons_self] at h2
      rw [lookup_cons_of_ne e] at h1
      have := h.below _ _ h1
      have := Option.some.inj h2
      omega
    · rw [lookup_cons_of_ne e] at h1
      rw [lookup_cons_of_ne e'] at h2
      exact h.inj _ _ _ h1 h2
  · intro x s hx
    have hx : x ≠ next := hx.resolve_left (by simp)
    rw [hreg x s hx]
    by_cases e : s = c :: tail ++ [c']
    · rw [e, lookup_cons_self, hn]
      simp [Ne.symm hx]
    · rw [lookup_cons_of_ne e]
  · intro hc
    simp at hc
  · intro _
    refine ⟨rfl, ?_, lookup_cons_self _ _ _⟩
    have hi : ∀ s, i.lookup next = some s → False := by
      intro s hs
      by_cases hc : conj = [] ∨ next ≠ next'
      · exact absurd (h.below _ _ ((h.agree _ _ hc).mp hs)) (lt_irrefl _)
      · rw [not_or, not_not] at hc
        have := (h.lag hc.1).1
        omega
    have hin : i.lookup next = none := Option.eq_none_iff_forall_ne_some.mpr fun s hs => hi s hs
    unfold lzwRegister
    split
    · exact hin
    next hc =>
      have := (h.lag hc).1
      rw [lookup_cons_of_ne (by omega)]
      exact hin

/-- The decoder reads back the codes the scan emitted, at the widths it emitted them, and its outputs join to the text. -/
theorem lzwReads_of_lzwScan [DecidableEq CHAR] {d : List (Text CHAR × Nat)} {next w next' : Nat}
    {i : List (Nat × Text CHAR)} {conj tail rest : Text CHAR} {c : CHAR} {codes : List (Nat × Nat)}
    (hs : LzwSync d next i next' conj c) (hf : next ≤ 2 ^ w) (h : lzwScan d next w (c :: tail) rest = .ok codes) :
    ∃ reads, lzwReads (codes.flatMap fun p => codeBits p.2 p.1).length i next' w conj
        (codes.flatMap fun p => codeBits p.2 p.1) = .ok reads ∧
      reads.map (fun r => (r.code, r.width)) = codes ∧ reads.flatMap (·.output) = c :: tail ++ rest := by
  induction rest generalizing d next w next' i conj c tail codes with
  | nil =>
    unfold lzwScan at h
    split at h
    next k hk =>
      obtain rfl := Except.ok.inj h
      simp only [List.flatMap_cons, List.flatMap_nil]
      rw [lzwReads_code (lt_effWidth (hs.below _ _ hk) hf) (hs.output hk), lzwReads_nil]
      exact ⟨_, rfl, rfl, by simp⟩
    next => cases h
  | cons c' rest ih =>
    unfold lzwScan at h
    split at h
    · rw [List.cons_append] at h
      obtain ⟨reads, h1, h2, h3⟩ := ih hs hf h
      exact ⟨reads, h1, h2, by rw [h3]; simp⟩
    next hnone =>
      split at h
      · cases h
      next k hk =>
        split at h
        · cases h
        next codes' hscan =>
          obtain rfl := Except.ok.inj h
          have hn : d.lookup (c :: tail ++ [c']) = none := Option.not_isSome_iff_eq_none.mp hnone
          obtain ⟨reads, h1, h2, h3⟩ := ih (hs.register hn) (grow_fits hf) hscan
          rw [List.flatMap_cons, lzwReads_code (lt_effWidth (hs.below _ _ hk) hf) (hs.output hk), hs.next_eq, h1]
          exact ⟨_, rfl, by simp [h2], by simp [h3]⟩

/-! ### The seed (R117) -/

/-- A table whose symbols and code numbers are distinct starts the two engines in step. -/
theorem LzwSync.seed [DecidableEq CHAR] {t : CodeTable CHAR} (hs : (t.entries.map (·.1)).Nodup)
    (hk : (t.entries.map (fun e => toInteger e.2)).Nodup) (hb : ∀ e ∈ t.entries, toInteger e.2 < tableSize t)
    (c : CHAR) : LzwSync (seedDict t) (tableSize t) (invNum t) (tableSize t) [] c := by
  have hd : ((seedDict t).map (·.1)).Nodup := by
    have : (seedDict t).map (·.1) = (t.entries.map (·.1)).map fun c => [c] := by
      simp [seedDict, Function.comp_def]
    rw [this]
    exact hs.map fun a b h => by injection h
  have hi : ((invNum t).map (·.1)).Nodup := by
    have : (invNum t).map (·.1) = (t.entries.map (fun e => toInteger e.2)).reverse := by
      simp [invNum, Function.comp_def]
    rw [this]
    exact List.nodup_reverse.mpr hk
  have hmem : ∀ s k, (seedDict t).lookup s = some k → ∃ e ∈ t.entries, s = [e.1] ∧ k = toInteger e.2 := by
    intro s k h
    obtain ⟨e, he, hx⟩ := List.mem_map.mp ((lookup_eq_some_iff_mem hd).mp h)
    obtain ⟨h1, h2⟩ := Prod.mk.inj hx
    exact ⟨e, he, h1.symm, h2.symm⟩
  constructor
  · intro s k h
    obtain ⟨e, he, -, rfl⟩ := hmem s k h
    exact hb e he
  · intro s s' k h1 h2
    obtain ⟨e, he, rfl, rfl⟩ := hmem s k h1
    obtain ⟨e', he', rfl, h⟩ := hmem s' _ h2
    rw [List.inj_on_of_nodup_map hk he he' h]
  · intro k s _
    rw [lookup_eq_some_iff_mem hd, lookup_eq_some_iff_mem hi]
    simp only [invNum, seedDict, List.mem_reverse, List.mem_map, Prod.mk.injEq]
    exact ⟨fun ⟨e, he, h1, h2⟩ => ⟨e, he, h2, h1⟩, fun ⟨e, he, h1, h2⟩ => ⟨e, he, h2, h1⟩⟩
  · intro _; rfl
  · intro h; exact absurd rfl h

theorem fixedWidthTable_numbers [DecidableEq CHAR] (key : CHAR → Nat) (text : Text CHAR) :
    (fixedWidthTable key text).entries.map (fun e => toInteger e.2) =
      List.range (tableSize (fixedWidthTable key text)) := by
  rw [tableSize_fixedWidthTable, List.range_eq_range']
  exact rankCodes_numbers _ _ _

theorem LzwSync.fixedWidthTable [DecidableEq CHAR] (key : CHAR → Nat) (text : Text CHAR) (c : CHAR) :
    LzwSync (seedDict (Machine.fixedWidthTable key text)) (tableSize (Machine.fixedWidthTable key text))
      (invNum (Machine.fixedWidthTable key text)) (tableSize (Machine.fixedWidthTable key text)) [] c := by
  have hn := fixedWidthTable_numbers key text
  refine LzwSync.seed (nodup_fixedWidthTable_symbols key text) (by rw [hn]; exact List.nodup_range) (fun e he => ?_) c
  have : toInteger e.2 ∈ (Machine.fixedWidthTable key text).entries.map (fun e => toInteger e.2) :=
    List.mem_map.mpr ⟨e, he, rfl⟩
  rw [hn] at this
  exact List.mem_range.mp this

theorem fixedWidthTable_fits [DecidableEq CHAR] (key : CHAR → Nat) (text : Text CHAR) :
    tableSize (fixedWidthTable key text) ≤ 2 ^ width (fixedWidthTable key text) := by
  rw [width_fixedWidthTable]
  exact le_two_pow_ceilLog2 _

end Sys2Proof.Machine
end

