-- ==== Sys2Proof/Laws/PerInstr.lean ====
section
/-! SUPPORT. The family of statements made for every command: its word (R49, R51, R52), from the encoder. -/

/-- The word of a command has its reserved bits clear, its opcode is assigned, and that opcode is the command's row of the
opcode map. -/
def Sys2Proof.Laws.Encoding.Statement (i : Sys2Proof.Instr) : Prop :=
  Sys2Proof.wellFormedWord (Sys2Proof.encode i) = true ∧
    (Sys2Proof.opcField (Sys2Proof.encode i), i) ∈ Sys2Proof.opcodeTable

namespace Sys2Proof.Laws.Encoding

theorem bvFromStr : Statement .bvFromStr := by unfold Statement; decide

theorem bvFromInt : Statement .bvFromInt := by unfold Statement; decide

theorem bvToStr : Statement .bvToStr := by unfold Statement; decide

theorem bvToInt : Statement .bvToInt := by unfold Statement; decide

theorem frmPack : Statement .frmPack := by unfold Statement; decide

theorem frmUnpack : Statement .frmUnpack := by unfold Statement; decide

theorem tblBuildFw : Statement .tblBuildFw := by unfold Statement; decide

theorem tblBuildHuf : Statement .tblBuildHuf := by unfold Statement; decide

theorem tblBuildLzw : Statement .tblBuildLzw := by unfold Statement; decide

theorem tblSave : Statement .tblSave := by unfold Statement; decide

theorem tblLoad : Statement .tblLoad := by unfold Statement; decide

theorem fwEncode : Statement .fwEncode := by unfold Statement; decide

theorem fwDecode : Statement .fwDecode := by unfold Statement; decide

theorem hufEncode : Statement .hufEncode := by unfold Statement; decide

theorem hufDecode : Statement .hufDecode := by unfold Statement; decide

theorem lzwEncode : Statement .lzwEncode := by unfold Statement; decide

theorem lzwDecode : Statement .lzwDecode := by unfold Statement; decide

end Sys2Proof.Laws.Encoding
end

