-- ==== Sys2Proof/Laws/TableText.lean ====
section
/-! SUPPORT. The table text (R58, R102, R104): decimal numerals and their value, lines and their pieces, entry lines. -/

namespace Sys2Proof.Machine

variable {CHAR : Type} {C : CharSet CHAR}

/-! ### Decimal numerals (R12) -/

@[simp] theorem digitOf_digit [DecidableEq CHAR] (d : Fin 10) : digitOf C (C.digit d) = some d := by
  unfold digitOf
  rw [List.find?_eq_some_iff_append]
  obtain ⟨l, r, h⟩ := List.append_of_mem (List.mem_finRange d)
  refine ⟨by simp, l, r, h, fun e he => ?_⟩
  have hn : (l ++ d :: r).Nodup := h ▸ List.nodup_finRange 10
  simpa using (List.nodup_append.mp hn).2.2 e he d List.mem_cons_self

/-- R104: the digits are exactly the ten characters. -/
theorem isDecDigit_iff [DecidableEq CHAR] {c : CHAR} : isDecDigit C c = true ↔ ∃ d, c = C.digit d := by
  constructor
  · intro h
    obtain ⟨d, hd⟩ := Option.isSome_iff_exists.mp h
    exact ⟨d, by simpa [eq_comm] using List.find?_some hd⟩
  · rintro ⟨d, rfl⟩
    simp [isDecDigit]

theorem decValue_digit [DecidableEq CHAR] (a : Text CHAR) (d : Fin 10) :
    decValue C (a ++ [C.digit d]) = 10 * decValue C a + d := by
  simp [decValue]

/-- With enough fuel the digits denote the number, are digits, and begin with `'0'` only for 0. -/
theorem decDigits_facts [DecidableEq CHAR] {f v : Nat} (h : v < f) :
    decValue C (decDigits C f v) = v ∧ (decDigits C f v).all (isDecDigit C) = true ∧ decDigits C f v ≠ [] ∧
      (v ≠ 0 → (decDigits C f v).head? ≠ some (C.digit 0)) := by
  have hd : ∀ d, isDecDigit C (C.digit d) = true := fun d => isDecDigit_iff.mpr ⟨d, rfl⟩
  induction f generalizing v with
  | zero => omega
  | succ f ih =>
    unfold decDigits
    split
    next hv =>
      refine ⟨?_, by simp [hd], by simp, fun hn => ?_⟩
      · simp [decValue, Nat.mod_eq_of_lt hv]
      · simpa [Fin.ext_iff, Nat.mod_eq_of_lt hv] using hn
    next hv =>
      obtain ⟨i1, i2, i3, i4⟩ := ih (v := v / 10) (by omega)
      refine ⟨?_, by simp [i2, hd], by simp, fun _ => ?_⟩
      · rw [decValue_digit, i1, Fin.val_ofNat]
        omega
      · obtain ⟨c, l, hl⟩ := List.exists_cons_of_ne_nil i3
        have := i4 (by omega)
        rw [hl] at this ⊢
        exact this

theorem decValue_dec [DecidableEq CHAR] (v : Nat) : decValue C (dec C v) = v := (decDigits_facts (Nat.lt_succ_self v)).1

theorem all_isDecDigit_dec [DecidableEq CHAR] (v : Nat) : (dec C v).all (isDecDigit C) = true :=
  (decDigits_facts (Nat.lt_succ_self v)).2.1

theorem dec_ne_nil [DecidableEq CHAR] (v : Nat) : dec C v ≠ [] := (decDigits_facts (Nat.lt_succ_self v)).2.2.1

theorem newline_not_mem_dec [DecidableEq CHAR] (v : Nat) : C.newline ∉ dec C v := fun h => by
  obtain ⟨d, hd⟩ := isDecDigit_iff.mp (List.all_eq_true.mp (all_isDecDigit_dec v) _ h)
  exact C.digit_ne_newline d hd.symm

theorem newline_not_mem_sizeMark : C.newline ∉ sizeMark C := by
  simp only [sizeMark, List.mem_cons, List.not_mem_nil, not_or, or_false]
  refine ⟨?_, ?_, ?_, ?_, C.colon_ne_newline.symm⟩ <;> exact (C.letter_ne_newline (by simp)).symm

theorem parseSize_dec [DecidableEq CHAR] (v : Nat) : parseSize C (dec C v) = .ok v := by
  rw [parseSize, if_pos ⟨dec_ne_nil v, all_isDecDigit_dec v⟩, decValue_dec]

/-! ### Lines (R104) -/

theorem splitLines_line [DecidableEq CHAR] {l : Text CHAR} (h : C.newline ∉ l) (t : Text CHAR) :
    splitLines C (l ++ C.newline :: t) = l :: splitLines C t := by
  induction l with
  | nil => simp [splitLines]
  | cons c l ih =>
    rw [List.mem_cons, not_or] at h
    rw [List.cons_append, splitLines, if_neg (Ne.symm h.1), ih h.2]

/-- Lines before a last piece that has no newline. -/
theorem splitLines_lines [DecidableEq CHAR] {ls : List (Text CHAR)} (h : ∀ l ∈ ls, C.newline ∉ l) (t : Text CHAR) :
    splitLines C (ls.flatMap (· ++ [C.newline]) ++ t) = ls ++ splitLines C t := by
  induction ls with
  | nil => rfl
  | cons l ls ih =>
    rw [List.flatMap_cons, List.append_assoc, List.append_assoc, List.singleton_append,
      splitLines_line (h l List.mem_cons_self), ih fun x hx => h x (List.mem_cons_of_mem _ hx)]
    rfl

theorem splitLines_last [DecidableEq CHAR] {l : Text CHAR} (h : C.newline ∉ l) : splitLines C l = [l] := by
  induction l with
  | nil => rfl
  | cons c l ih =>
    rw [List.mem_cons, not_or] at h
    rw [splitLines, if_neg (Ne.symm h.1), ih h.2]

/-- A text of newline-terminated lines has exactly those lines. -/
theorem tableLines_of_lines [DecidableEq CHAR] {ls : List (Text CHAR)} (h : ∀ l ∈ ls, C.newline ∉ l) :
    tableLines C (ls.flatMap (· ++ [C.newline])) = ls := by
  have hs := splitLines_lines h []
  rw [List.append_nil] at hs
  simp [tableLines, hs, splitLines]

/-- A last line with no newline after it counts. -/
theorem tableLines_of_lines_append [DecidableEq CHAR] {ls : List (Text CHAR)} (h : ∀ l ∈ ls, C.newline ∉ l)
    {l : Text CHAR} (hl : l ≠ []) (hn : C.newline ∉ l) :
    tableLines C (ls.flatMap (· ++ [C.newline]) ++ l) = ls ++ [l] := by
  simp [tableLines, splitLines_lines h, splitLines_last hn, hl]

/-! ### Entry lines (R104) -/

theorem newline_not_mem_chars (b : Bits) : C.newline ∉ chars C b := fun h => by
  rcases chars_are_bits C b _ h with h | h <;> exact C.digit_ne_newline _ h.symm

/-- Parsing the lines of entries with new symbols appends those entries, each at its rendering's length. -/
theorem parseEntries_of_entries [DecidableEq CHAR] {e l : List (CHAR × BitVector)} (h : ((e ++ l).map (·.1)).Nodup) :
    parseEntries C e (l.map fun x => x.1 :: C.colon :: chars C x.2.rep) =
      .ok (e ++ l.map fun x => (x.1, { size := x.2.rep.length, rep := x.2.rep })) := by
  induction l generalizing e with
  | nil => simp [parseEntries]
  | cons x l ih =>
    have hx : e.any (fun y => decide (y.1 = x.1)) = false := by
      rw [List.any_eq_false]
      intro y hy hyx
      rw [List.map_append, List.nodup_append] at h
      exact h.2.2 y.1 (List.mem_map_of_mem hy) x.1 (by simp) (by simpa using hyx)
    have hb : bvFromString C (chars C x.2.rep).length (chars C x.2.rep) = .ok { size := x.2.rep.length, rep := x.2.rep } := by
      rw [bvFromString_ok (chars_are_bits C _), bitsOfChars_chars, bvOfBits, length_chars, pad_of_length_le le_rfl]
    rw [List.map_cons, parseEntries, if_neg (by simp), hx, if_neg (by simp), hb]
    simp only []
    rw [ih (by simpa using h)]
    simp

end Sys2Proof.Machine
end

