-- ==== Sys2Proof/Tests/Slice0.lean ====
section
/-! SUPPORT. Small tests: the ill-formed words, the word of every command, one step of every command, and for every
statement with hypotheses a state that meets them. Expected values are those of spec/95_test_vectors.md and of the
examples of the command rules. -/

namespace Sys2Proof.Tests

open Sys2Proof Sys2Proof.Machine

/-- The next state of an outcome, if it has one. -/
def nextOf {CHAR : Type} (o : Host.Outcome (State CHAR) Fault Refusal) : Option (State CHAR) :=
  match o with
  | .next t => some t
  | .fault _ => none
  | .refused _ => none

/-- A bit-string from its digits. -/
def bits (l : List Nat) : Bits := l.map (· == 1)

/-- The machine after reset and the host's write of the word of `i`, just before `i` runs. -/
def started (i : Instr) : State := { State.reset with cmd := encode i }

/-- The machine after reset with the host's actions to come. -/
def hosted (l : List HostAction) : State := { State.reset with pending := l }

/-- `s` on an instance bounded by `n` on both bounds (R8). -/
def bounded (n : Nat) (s : State) : State :=
  { s with params := { tieOrder := .firstOccurrence, maxSeq := some n, maxNat := some n } }

/-! ### Well-formed words: ill-formed words for each check of R52 -/

theorem test_wf_reserved : wellFormedWord 0x00000101 = false ∧ wellFormedWord 0x80000001 = false := by decide

theorem test_wf_opcode : ∀ o ∈ [0x00, 0x05, 0x0F, 0x12, 0x1F, 0x23, 0x27, 0x2A, 0x2F, 0x32, 0x3F, 0x42, 0x4F, 0x52, 0xFF],
    wellFormedWord (BitVec.ofNat 32 o) = false := by decide

/-! ### Decoding: the word of every command, written out from R51, and illegal words of R52 -/

theorem test_decode_bvFromStr : decode 0x00000001 = .ok .bvFromStr := by decide

theorem test_decode_bvFromInt : decode 0x00000002 = .ok .bvFromInt := by decide

theorem test_decode_bvToStr : decode 0x00000003 = .ok .bvToStr := by decide

theorem test_decode_bvToInt : decode 0x00000004 = .ok .bvToInt := by decide

theorem test_decode_frmPack : decode 0x00000010 = .ok .frmPack := by decide

theorem test_decode_frmUnpack : decode 0x00000011 = .ok .frmUnpack := by decide

theorem test_decode_tblBuildFw : decode 0x00000020 = .ok .tblBuildFw := by decide

theorem test_decode_tblBuildHuf : decode 0x00000021 = .ok .tblBuildHuf := by decide

theorem test_decode_tblBuildLzw : decode 0x00000022 = .ok .tblBuildLzw := by decide

theorem test_decode_tblSave : decode 0x00000028 = .ok .tblSave := by decide

theorem test_decode_tblLoad : decode 0x00000029 = .ok .tblLoad := by decide

theorem test_decode_fwEncode : decode 0x00000030 = .ok .fwEncode := by decide

theorem test_decode_fwDecode : decode 0x00000031 = .ok .fwDecode := by decide

theorem test_decode_hufEncode : decode 0x00000040 = .ok .hufEncode := by decide

theorem test_decode_hufDecode : decode 0x00000041 = .ok .hufDecode := by decide

theorem test_decode_lzwEncode : decode 0x00000050 = .ok .lzwEncode := by decide

theorem test_decode_lzwDecode : decode 0x00000051 = .ok .lzwDecode := by decide

theorem test_decode_reserved : decode 0x00000101 = .error (.reservedBits 1) := by decide

theorem test_decode_zero : decode 0x00000000 = .error (.unassignedOpcode 0) := by decide

theorem test_decode_ff : decode 0x000000FF = .error (.unassignedOpcode 0xFF) := by decide

/-- R49: no bit of `RSV` may be set, the highest included; and a number of more than 32 bits is no word. -/
theorem test_decodeTableWord : decodeTableWord 32 0x51 = some .lzwDecode ∧ decodeTableWord 32 (0x51 + 2 ^ 31) = none ∧
    decodeTableWord 32 (0x51 + 2 ^ 32) = none := by decide

/-! ### One step of every command -/

/-- R70, 95_test_vectors.md section 2, row 1. -/
theorem test_bvFromStr_pads :
    let s : State := { started .bvFromStr with aSize := some 4, aStr := some ['1', '0', '1'] }
    nextOf (exec .bvFromStr s) = some { s with bv := some ⟨4, (bits [0, 1, 0, 1])⟩, status := 0x00010100 } := by
  decide

/-- R75, 95_test_vectors.md section 2, row 2. -/
theorem test_bvFromStr_overwide :
    let s : State := { started .bvFromStr with aSize := some 2, aStr := some ['0', '0', '0', '1'] }
    nextOf (exec .bvFromStr s) = some { s with bv := some ⟨2, (bits [0, 0, 0, 1])⟩, status := 0x00010100 } := by
  decide

/-- R71, 95_test_vectors.md section 2: one bit. -/
theorem test_bvFromInt_zero :
    let s : State := { started .bvFromInt with aSize := some 0, aInt := some 0 }
    nextOf (exec .bvFromInt s) = some { s with bv := some ⟨0, (bits [0])⟩, status := 0x00010200 } := by
  decide

/-- R75, 95_test_vectors.md section 2. -/
theorem test_bvFromInt_overwide :
    let s : State := { started .bvFromInt with aSize := some 2, aInt := some 256 }
    nextOf (exec .bvFromInt s) = some { s with bv := some ⟨2, (bits [1, 0, 0, 0, 0, 0, 0, 0, 0])⟩, status := 0x00010200 } := by
  decide

/-- R72, 95_test_vectors.md section 2, row 1. -/
theorem test_bvToStr :
    let s : State := { started .bvToStr with bv := some ⟨4, (bits [0, 1, 0, 1])⟩ }
    nextOf (exec .bvToStr s) = some { s with rBits := some (bits [0, 1, 0, 1]), status := 0x00010300 } := by
  decide

/-- R73, 95_test_vectors.md section 2, row 2. -/
theorem test_bvToInt_leading_zeros :
    let s : State := { started .bvToInt with bv := some ⟨2, (bits [0, 0, 0, 1])⟩ }
    nextOf (exec .bvToInt s) = some { s with rInt := some 1, status := 0x00010400 } := by
  decide

/-- R69, 95_test_vectors.md section 2, row 3. -/
theorem test_bvToInt_empty :
    let s : State := { started .bvToInt with bv := some ⟨0, (bits [])⟩ }
    nextOf (exec .bvToInt s) = some { s with rInt := some 0, status := 0x00010400 } := by
  decide

/-- R80, 95_test_vectors.md section 3. -/
theorem test_frmPack_partial :
    let s : State := { started .frmPack with aBits := some (bits [0, 0, 0, 0, 0, 0, 0, 1, 0, 1, 1, 0]) }
    nextOf (exec .frmPack s) = some { s with rBytes := some [4, 1, 6], status := 0x00011000 } := by
  decide

/-- R80, 95_test_vectors.md section 3. -/
theorem test_frmPack_nine :
    let s : State := { started .frmPack with aBits := some (bits [1, 1, 1, 1, 1, 1, 1, 1, 1]) }
    nextOf (exec .frmPack s) = some { s with rBytes := some [1, 255, 1], status := 0x00011000 } := by
  decide

/-- R81, 95_test_vectors.md section 3. -/
theorem test_frmUnpack_full :
    let s : State := { started .frmUnpack with aBytes := some [0, 255, 1] }
    nextOf (exec .frmUnpack s) = some { s with rBits := some (bits [1, 1, 1, 1, 1, 1, 1, 1, 0, 0, 0, 0, 0, 0, 0, 1]), status := 0x00011100 } := by
  decide

/-- R79, 95_test_vectors.md section 3: three bits, not two. -/
theorem test_frmUnpack_overwide :
    let s : State := { started .frmUnpack with aBytes := some [2, 7] }
    nextOf (exec .frmUnpack s) = some { s with rBits := some (bits [1, 1, 1]), status := 0x00011100 } := by
  decide

/-- R99, 95_test_vectors.md section 4. -/
theorem test_tblBuildFw :
    let s : State := { started .tblBuildFw with aText := some ['a', 'a', 'a', 'b', 'b', 'c'] }
    nextOf (exec .tblBuildFw s) = some { s with tbl := some ⟨some 2, [('a', ⟨2, (bits [0, 0])⟩), ('b', ⟨2, (bits [0, 1])⟩), ('c', ⟨2, (bits [1, 0])⟩)]⟩, status := 0x00012000 } := by
  decide

/-- R93 under FirstOccurrence, 95_test_vectors.md section 4. -/
theorem test_tblBuildFw_ties :
    let s : State := { started .tblBuildFw with aText := some ['h', 'e', 'l', 'l', 'o'] }
    nextOf (exec .tblBuildFw s) = some { s with tbl := some ⟨some 2, [('l', ⟨2, (bits [0, 0])⟩), ('h', ⟨2, (bits [0, 1])⟩), ('e', ⟨2, (bits [1, 0])⟩), ('o', ⟨2, (bits [1, 1])⟩)]⟩, status := 0x00012000 } := by
  decide

/-- R100, 95_test_vectors.md section 4: the merged node goes before its equals. -/
theorem test_tblBuildHuf :
    let s : State := { started .tblBuildHuf with aText := some ['a', 'a', 'a', 'b', 'b', 'c'] }
    nextOf (exec .tblBuildHuf s) = some { s with tbl := some ⟨none, [('b', ⟨2, (bits [0, 0])⟩), ('c', ⟨2, (bits [0, 1])⟩), ('a', ⟨1, (bits [1])⟩)]⟩, status := 0x00012100 } := by
  decide

/-- R97, 95_test_vectors.md section 4. -/
theorem test_tblBuildHuf_mississippi :
    let s : State := { started .tblBuildHuf with aText := some ['m', 'i', 's', 's', 'i', 's', 's', 'i', 'p', 'p', 'i'] }
    nextOf (exec .tblBuildHuf s) = some { s with tbl := some ⟨none, [('s', ⟨2, (bits [0, 0])⟩), ('p', ⟨3, (bits [0, 1, 0])⟩), ('m', ⟨3, (bits [0, 1, 1])⟩), ('i', ⟨1, (bits [1])⟩)]⟩, status := 0x00012100 } := by
  decide

/-- R101, 95_test_vectors.md section 4. -/
theorem test_tblBuildLzw :
    let s : State := { started .tblBuildLzw with aText := some ['a', 'b', 'a', 'b', 'a', 'b'] }
    nextOf (exec .tblBuildLzw s) = some { s with tbl := some ⟨some 1, [('a', ⟨1, (bits [0])⟩), ('b', ⟨1, (bits [1])⟩)]⟩, status := 0x00012200 } := by
  decide

/-- R94, 95_test_vectors.md section 4. -/
theorem test_tblBuildLzw_one :
    let s : State := { started .tblBuildLzw with aText := some ['a', 'a', 'a', 'a'] }
    nextOf (exec .tblBuildLzw s) = some { s with tbl := some ⟨some 0, [('a', ⟨0, (bits [0])⟩)]⟩, status := 0x00012200 } := by
  decide

/-- R103, 95_test_vectors.md section 4. -/
theorem test_tblSave_size :
    let s : State := { started .tblSave with tbl := some ⟨some 2, [('a', ⟨2, (bits [0, 0])⟩), ('b', ⟨2, (bits [0, 1])⟩), ('c', ⟨2, (bits [1, 0])⟩)]⟩ }
    nextOf (exec .tblSave s) = some { s with rStr := some ['s', 'i', 'z', 'e', ':', '2', '\n', 'a', ':', '0', '0', '\n', 'b', ':', '0', '1', '\n', 'c', ':', '1', '0', '\n'], status := 0x00012800 } := by
  decide

/-- R102, 95_test_vectors.md section 4: no size line. -/
theorem test_tblSave_huf :
    let s : State := { started .tblSave with tbl := some ⟨none, [('b', ⟨2, (bits [0, 0])⟩), ('c', ⟨2, (bits [0, 1])⟩), ('a', ⟨1, (bits [1])⟩)]⟩ }
    nextOf (exec .tblSave s) = some { s with rStr := some ['b', ':', '0', '0', '\n', 'c', ':', '0', '1', '\n', 'a', ':', '1', '\n'], status := 0x00012800 } := by
  decide

/-- R105, 95_test_vectors.md section 4. -/
theorem test_tblLoad_size :
    let s : State := { started .tblLoad with aStr := some ['s', 'i', 'z', 'e', ':', '2', '\n', 'a', ':', '0', '0', '\n', 'b', ':', '0', '1', '\n', 'c', ':', '1', '0', '\n'] }
    nextOf (exec .tblLoad s) = some { s with tbl := some ⟨some 2, [('a', ⟨2, (bits [0, 0])⟩), ('b', ⟨2, (bits [0, 1])⟩), ('c', ⟨2, (bits [1, 0])⟩)]⟩, status := 0x00012900 } := by
  decide

/-- R104, 95_test_vectors.md section 4: a size line stands only first. -/
theorem test_tblLoad_late_size :
    let s : State := { started .tblLoad with aStr := some ['a', ':', '0', '\n', 's', 'i', 'z', 'e', ':', '2', '\n'] }
    nextOf (exec .tblLoad s) = some { s with status := 0x00012904 } := by
  decide

/-- R109, 95_test_vectors.md section 5. -/
theorem test_fwEncode :
    let s : State := { started .fwEncode with tbl := some ⟨some 2, [('a', ⟨2, (bits [0, 0])⟩), ('b', ⟨2, (bits [0, 1])⟩), ('c', ⟨2, (bits [1, 0])⟩)]⟩, aText := some ['a', 'a', 'a', 'b', 'b', 'c'] }
    nextOf (exec .fwEncode s) = some { s with rBits := some (bits [0, 0, 0, 0, 0, 0, 0, 1, 0, 1, 1, 0]), rBytes := some [4, 1, 6], status := 0x00013000 } := by
  decide

/-- R109, 95_test_vectors.md section 5. -/
theorem test_fwEncode_unknown :
    let s : State := { started .fwEncode with tbl := some ⟨some 2, [('a', ⟨2, (bits [0, 0])⟩), ('b', ⟨2, (bits [0, 1])⟩), ('c', ⟨2, (bits [1, 0])⟩)]⟩, aText := some ['a', 'b', 'd'] }
    nextOf (exec .fwEncode s) = some { s with status := 0x00013002 } := by
  decide

/-- R110, 95_test_vectors.md section 5. -/
theorem test_fwDecode_slack :
    let s : State := { started .fwDecode with tbl := some ⟨some 2, [('a', ⟨2, (bits [0, 0])⟩), ('b', ⟨2, (bits [0, 1])⟩)]⟩, aBytes := some [5, 3] }
    nextOf (exec .fwDecode s) = some { s with rBits := some (bits [0, 0, 0, 1, 1]), rText := some ['a', 'b'], status := 0x00013100 } := by
  decide

/-- R108, 95_test_vectors.md section 5. -/
theorem test_fwDecode_zero_width :
    let s : State := { started .fwDecode with tbl := some ⟨some 0, [('a', ⟨0, (bits [0])⟩)]⟩, aBytes := some [4, 0] }
    nextOf (exec .fwDecode s) = some { s with rBits := some (bits [0, 0, 0, 0]), rText := some ['a', 'a', 'a', 'a'], status := 0x00013100 } := by
  decide

/-- R113, 95_test_vectors.md section 6. -/
theorem test_hufEncode :
    let s : State := { started .hufEncode with tbl := some ⟨none, [('b', ⟨2, (bits [0, 0])⟩), ('c', ⟨2, (bits [0, 1])⟩), ('a', ⟨1, (bits [1])⟩)]⟩, aText := some ['a', 'a', 'a', 'b', 'b', 'c'] }
    nextOf (exec .hufEncode s) = some { s with rBits := some (bits [1, 1, 1, 0, 0, 0, 0, 0, 1]), rBytes := some [1, 224, 1], status := 0x00014000 } := by
  decide

/-- R115, 95_test_vectors.md section 6. -/
theorem test_hufDecode_slack :
    let s : State := { started .hufDecode with tbl := some ⟨none, [('a', ⟨1, (bits [0])⟩), ('b', ⟨2, (bits [1, 0])⟩)]⟩, aBytes := some [4, 5] }
    nextOf (exec .hufDecode s) = some { s with rBits := some (bits [0, 1, 0, 1]), rText := some ['a', 'b'], status := 0x00014100 } := by
  decide

/-- R114, 95_test_vectors.md section 6. -/
theorem test_hufDecode_shortest :
    let s : State := { started .hufDecode with tbl := some ⟨none, [('a', ⟨1, (bits [0])⟩), ('b', ⟨2, (bits [0, 1])⟩)]⟩, aBytes := some [2, 1] }
    nextOf (exec .hufDecode s) = some { s with rBits := some (bits [0, 1]), rText := some ['a'], status := 0x00014100 } := by
  decide

/-- R121, 95_test_vectors.md section 7. -/
theorem test_lzwEncode :
    let s : State := { started .lzwEncode with tbl := some ⟨some 1, [('a', ⟨1, (bits [0])⟩), ('b', ⟨1, (bits [1])⟩)]⟩, aText := some ['a', 'b', 'a', 'b', 'a', 'b'] }
    nextOf (exec .lzwEncode s) = some { s with rBits := some (bits [0, 0, 1, 1, 0, 0, 1, 0]), rBytes := some [0, 50], status := 0x00015000 } := by
  decide

/-- R119, 95_test_vectors.md section 7. -/
theorem test_lzwEncode_one_symbol :
    let s : State := { started .lzwEncode with tbl := some ⟨some 0, [('a', ⟨0, (bits [0])⟩)]⟩, aText := some ['a', 'a', 'a', 'a'] }
    nextOf (exec .lzwEncode s) = some { s with rBits := some (bits [0, 1, 0, 0]), rBytes := some [4, 4], status := 0x00015000 } := by
  decide

/-- R124, 95_test_vectors.md section 7: case (b) for any unknown code. -/
theorem test_lzwDecode_foreign_code :
    let s : State := { started .lzwDecode with tbl := some ⟨some 1, [('a', ⟨1, (bits [0])⟩), ('b', ⟨1, (bits [1])⟩)]⟩, aBytes := some [3, 3] }
    nextOf (exec .lzwDecode s) = some { s with rBits := some (bits [0, 1, 1]), rText := some ['a', 'a', 'a'], status := 0x00015100 } := by
  decide

/-- R123, 95_test_vectors.md section 7. -/
theorem test_lzwDecode_first_unknown :
    let s : State := { started .lzwDecode with tbl := some ⟨some 0, [('a', ⟨0, (bits [0])⟩)]⟩, aBytes := some [1, 1] }
    nextOf (exec .lzwDecode s) = some { s with status := 0x00015105 } := by
  decide

/-! ### The first step after reset (R19, R27): a command placed as the host's next action runs -/

theorem test_first_step : nextOf (step (State.reset.withFetchWord 32 0x50)) =
    some { State.reset with cmd := 0x50, status := 0x00015007, hostActs := 1 } := by decide

theorem test_step_illegal : nextOf (step (hosted [.write 0x00 (.word 0x00000101)])) =
    some { State.reset with cmd := 0x101, status := 0x00010106, hostActs := 1 } := by decide

/-- 95_test_vectors.md P3, step 5: reset clears what the host and the core wrote. -/
theorem test_step_reset : nextOf (step { hosted [.reset] with aSize := some 4, cmd := 0x50, status := 0x00015107 }) =
    some { State.reset with hostActs := 1 } := by decide

/-! ### Refusals (notes/assumptions/3.md, 8.md) -/

theorem test_bounds_operand : exec .frmPack { bounded 2 (started .frmPack) with aBits := some [true, false, true] } =
    .refused .exceedsBounds := by rfl

theorem test_bounds_result : exec .frmPack { bounded 1 (started .frmPack) with aBits := some [true] } =
    .refused .exceedsBounds := by rfl

theorem test_ill_typed_write : step (hosted [.write 0x02 (.text ['4'])]) = .refused (.illTypedHostWrite 0x02) := by rfl

/-! ### Witnesses: for every statement with hypotheses, concrete values that meet them, clause by clause -/

theorem witness_StepRunsTheDecodedCommand : (hosted [.write 0x00 (.word 0x51), .read 0x01]).pending =
    .write 0x00 (.word 0x51) :: [.read 0x01] ∧ decode 0x51 = .ok .lzwDecode := by decide

theorem witness_IllegalWordOnlyWritesStatus : (hosted [.write 0x00 (.word 0x52)]).pending =
    .write 0x00 (.word 0x52) :: [] ∧ wellFormedWord 0x52 = false ∧ wellFormedWord 0x00000100 = false := by decide

theorem witness_IdleCoreKeepsEveryRegister : State.reset.pending = [] := by decide

/-- The first and last ids of every clause: 0x02 to 0x06 and 0x07 are operands, 0x01, 0x08, 0x0F and 0xFF are ignored. -/
theorem witness_HostWriteSetsOperandOrIsIgnored :
    (hosted [.write 0x02 (.nat 4)]).pending = [.write 0x02 (.nat 4)] ∧
    (hosted [.write 0x03 (.nat 0)]).pending = [.write 0x03 (.nat 0)] ∧
    (hosted [.write 0x04 (.text [])]).pending = [.write 0x04 (.text [])] ∧
    (hosted [.write 0x05 (.bits [])]).pending = [.write 0x05 (.bits [])] ∧
    (hosted [.write 0x06 (.bytes [8])]).pending = [.write 0x06 (.bytes [8])] ∧
    (hosted [.write 0x07 (.text ['a'])]).pending = [.write 0x07 (.text ['a'])] ∧
    ((0x01 : RegId) = 0x01 ∨ 0x08 ≤ (0x01 : RegId).toNat) ∧ (0x08 ≤ (0x08 : RegId).toNat) ∧
    (0x08 ≤ (0xFF : RegId).toNat) ∧ ¬ (0x08 ≤ (0x07 : RegId).toNat) := by decide

theorem test_host_writes : nextOf (step (hosted [.write 0x07 (.text ['a'])])) =
    some { State.reset with aText := some ['a'], hostActs := 1 } ∧
    nextOf (step (hosted [.write 0x08 (.nat 3)])) = some { State.reset with hostActs := 1 } ∧
    nextOf (step (hosted [.write 0xFF (.nat 3)])) = some { State.reset with hostActs := 1 } := by decide

theorem witness_HostReadReturnsTheRegister :
    (hosted [.read 0x00]).pending = [.read 0x00] ∧
    nextOf (step (hosted [.read 0x00])) =
      some { State.reset with hostActs := 1, readOut := some ⟨0x00, some (.word 0)⟩ } ∧
    nextOf (step { hosted [.read 0x0E] with rStr := some ['a'] }) =
      some { State.reset with hostActs := 1, rStr := some ['a'], readOut := some ⟨0x0E, some (.text ['a'])⟩ } ∧
    nextOf (step (hosted [.read 0x08])) =
      some { State.reset with hostActs := 1, readOut := some ⟨0x08, none⟩ } := by decide

theorem witness_ResetEventClearsEveryRegister : (hosted [.reset]).pending = .reset :: [] := by decide

theorem witness_EveryStepKeepsTheStateLegal : (hosted [.write 0x00 (.word 0x10)]).Legal ∧
    nextOf (step (hosted [.write 0x00 (.word 0x10)])) =
      some { State.reset with cmd := 0x10, status := 0x00011007, hostActs := 1 } :=
  ⟨by constructor <;> decide, by decide⟩

theorem witness_ErrorChangesOnlyStatus : nextOf (exec .frmPack (started .frmPack)) =
    some { started .frmPack with status := 0x00011007 } ∧ errField 0x00011007 ≠ 0 := by decide

theorem witness_SuccessChangesOnlyItsResults : errField 0x00011000 = 0 ∧
    nextOf (exec .frmPack { started .frmPack with aBits := some (bits [1, 0, 1]) }) =
      some { started .frmPack with aBits := some (bits [1, 0, 1]), rBytes := some [3, 5], status := 0x00011000 } := by
  decide

theorem witness_OperandUnsetExactlyWhenUnset : OperandsInBounds .fwEncode (started .fwEncode) ∧
    (∃ r ∈ readsOf .fwEncode, (started .fwEncode).read r = none) ∧
    OperandsInBounds .frmPack { started .frmPack with aBits := some [] } ∧
    ∀ r ∈ readsOf .frmPack, ({ started .frmPack with aBits := some [] } : State).read r ≠ none := by decide

theorem witness_CommandsRaiseOnlyTheirErrors :
    nextOf (exec .lzwDecode { started .lzwDecode with tbl := some ⟨some 0, []⟩, aBytes := some [1, 0] }) =
      some { started .lzwDecode with tbl := some ⟨some 0, []⟩, aBytes := some [1, 0], status := 0x00015105 } := by
  decide

/-- Two states that differ in a register the command does not read; and two under `Oracle` with one draw. -/
theorem witness_ResultsDependOnlyOnOperands :
    let s : State := { started .frmPack with aBits := some [true] }
    let t : State := { s with rInt := some 7, hostActs := 9 }
    let p : Params := { Params.default with tieOrder := .oracle }
    (∀ r ∈ readsOf .frmPack, s.read r = t.read r) ∧ s.params = t.params ∧ s.params.tieOrder ≠ .oracle ∧
      nextOf (exec .frmPack s) = some { s with rBytes := some [1, 1], status := 0x00011000 } ∧
      (∀ r ∈ readsOf .tblBuildFw, State.read { s with params := p, aText := some [] } r =
        State.read { s with params := p, aText := some [], rInt := some 7 } r) ∧
      nextOf (exec .tblBuildFw { started .tblBuildFw with params := p, aText := some [] }) =
        some { started .tblBuildFw with
          params := p, aText := some [], tbl := some ⟨some 0, []⟩, status := 0x00012000 } := by decide

theorem witness_OnlyResetUnsetsRegisters :
    (hosted [.write 0x02 (.nat 4)]).pending.head? ≠ some .reset ∧
    nextOf (step (hosted [.write 0x02 (.nat 4)])) = some { State.reset with aSize := some 4, hostActs := 1 } ∧
    nextOf (exec .bvToInt (started .bvToInt)) = some { started .bvToInt with status := 0x00010407 } ∧
    errField 0x00010407 ≠ 0 := by decide

theorem witness_ConfigurationIsFixed :
    nextOf (step (bounded 2 (hosted [.reset]))) = some (bounded 2 { State.reset with hostActs := 1 }) := by decide

theorem witness_UnboundedInstanceAlwaysSteps : (hosted [.write 0x00 (.word 0xFFFFFFFF)]).params.Unbounded ∧
    (∀ a, (hosted [.write 0x00 (.word 0xFFFFFFFF)]).pending.head? = some a → actionWellTyped a = true) ∧
    actionWellTyped (CHAR := Char) (.write 0x08 (.nat 1)) = true ∧
    actionWellTyped (CHAR := Char) (.write 0x02 (.text [])) = false :=
  ⟨by decide, fun a h => by obtain rfl := Option.some.inj h; decide, by decide, by decide⟩

/-- At the bound and just above it: an operand of two bits fits a bound of two, one of three does not. -/
theorem witness_BoundedInstanceRefusesBeyondBounds :
    (∃ r ∈ readsOf .frmPack, ∃ v ∈ (State.read { bounded 2 (started .frmPack) with aBits := some (bits [1, 0, 1]) } r),
      valueFits (bounded 2 State.reset).params v = false) ∧
    nextOf (exec .frmPack { bounded 2 (started .frmPack) with aBits := some (bits [1, 0]) }) =
      some { bounded 2 (started .frmPack) with
        aBits := some (bits [1, 0]), rBytes := some [2, 2], status := 0x00011000 } := by decide

/-- A result just above the bound, which the same command without bounds computes; and an error, which needs no room. -/
theorem witness_BoundedInstanceRefusesBeyondBounds_results :
    let s : State := { bounded 1 (started .frmPack) with aBits := some (bits [1]) }
    let u : State := { s with params := { s.params with maxSeq := none, maxNat := none } }
    OperandsInBounds .frmPack s ∧ nextOf (exec .frmPack u) = some { u with rBytes := some [1, 1], status := 0x00011000 } ∧
    errField 0x00011000 = 0 ∧ .rBytes ∈ writesOf .frmPack ∧
    valueFits (CHAR := Char) s.params (.bytes [1, 1]) = false ∧ nextOf (exec .frmPack s) = none ∧
    nextOf (exec .frmPack (bounded 1 (started .frmPack))) =
      some { bounded 1 (started .frmPack) with status := 0x00011007 } := by decide

theorem witness_NumeralPrimitivesAreExact : bin 1 = bits [1] ∧ val (bits [1]) = 1 ∧ bin 4 = bits [1, 0, 0] ∧
    pad 2 (bits [1]) = bits [0, 1] ∧ pad 1 (bits [1, 0]) = bits [1, 0] ∧
    [1, 2, 3, 4, 5].map ceilLog2 = [0, 1, 2, 2, 3] ∧ dec charSet 10 = ['1', '0'] ∧
    decValue charSet ['1', '0'] = 10 ∧ isDecDigit charSet '/' = false ∧ isDecDigit charSet ':' = false := by decide

theorem witness_RenderingPadsAndNeverTruncates :
    (∀ c ∈ ['1', '0'], c = charSet.digit 0 ∨ c = charSet.digit 1) ∧ 2 ≤ (bin 2).length ∧
    ['1', '0'].length ≤ 2 ∧ ¬ ['1', '0'].length ≤ 1 ∧ BitVectorLegal ⟨2, bits [0, 1]⟩ ∧ BitVectorLegal ⟨1, bits [0, 1]⟩ ∧
    bvFromString charSet 1 (chars charSet (bits [0, 1])) = .ok ⟨1, bits [0, 1]⟩ := by
  exact ⟨fun c hc => (List.mem_cons.mp hc).elim .inr fun h => .inl (List.mem_singleton.mp h), by decide⟩

theorem witness_BvFromStrBuildsThePaddedLiteral :
    let s : State := { started .bvFromStr with aSize := some 3, aStr := some ['1', '2'] }
    let t : State := { started .bvFromStr with aSize := some 3, aStr := some [] }
    OperandsInBounds .bvFromStr (started .bvFromStr) ∧ (started .bvFromStr).aSize = none ∧
      OperandsInBounds .bvFromStr s ∧ (∃ c ∈ ['1', '2'], c ≠ '0' ∧ c ≠ '1') ∧
      OperandsInBounds .bvFromStr t ∧ ResultsInBounds t { bv := some ⟨3, bits [0, 0, 0]⟩ } := by
  try dsimp only
  repeat' apply And.intro
  all_goals first | (simp; done) | decide

theorem witness_BvFromIntBuildsThePaddedNumeral :
    let t : State := { started .bvFromInt with aSize := some 0, aInt := some 0 }
    OperandsInBounds .bvFromInt (started .bvFromInt) ∧ (started .bvFromInt).aInt = none ∧
      OperandsInBounds .bvFromInt t ∧ ResultsInBounds t { bv := some ⟨0, bits [0]⟩ } := by decide

theorem witness_BvViewsReadTheRendering :
    let t : State := { started .bvToStr with bv := some ⟨0, []⟩ }
    OperandsInBounds .bvToStr (started .bvToStr) ∧ (started .bvToStr).bv = none ∧
      OperandsInBounds .bvToInt (started .bvToInt) ∧ OperandsInBounds .bvToStr t ∧
      ResultsInBounds t { rBits := some [] } ∧ OperandsInBounds .bvToInt t ∧
      ResultsInBounds t { rInt := some 0 } := by decide

theorem witness_FrmPackWritesTheFrame :
    let t : State := { started .frmPack with aBits := some [] }
    OperandsInBounds .frmPack (started .frmPack) ∧ (started .frmPack).aBits = none ∧
      OperandsInBounds .frmPack t ∧ ResultsInBounds t { rBytes := some (pack []) } := by decide

/-- Every clause, with tails 0, 1, 7 and 8, and no final byte. -/
theorem witness_FrmUnpackWritesThePayload :
    let s (f : Bytes) : State := { started .frmUnpack with aBytes := some f }
    OperandsInBounds .frmUnpack (started .frmUnpack) ∧ (started .frmUnpack).aBytes = none ∧
      OperandsInBounds .frmUnpack (s [8, 0]) ∧ wellFormedFrame [8, 0] = false ∧ wellFormedFrame [] = false ∧
      wellFormedFrame [1] = false ∧ OperandsInBounds .frmUnpack (s [0]) ∧
      ResultsInBounds (s [0]) { rBits := some [] } ∧
      OperandsInBounds .frmUnpack (s [7, 1]) ∧ ([7, 1] : Bytes) = 7 :: ([] ++ [1]) ∧
      ResultsInBounds (s [7, 1]) { rBits := some (bits [0, 0, 0, 0, 0, 0, 1]) } ∧
      nextOf (exec .frmUnpack (s [1, 255, 1])) =
        some { s [1, 255, 1] with rBits := some (List.replicate 9 true), status := 0x00011100 } := by decide

theorem witness_UnpackAcceptsExactlyWellFormedFrames : wellFormedFrame [0] = true ∧ wellFormedFrame [7, 0] = true ∧
    wellFormedFrame [8, 0] = false ∧ wellFormedFrame [7] = false ∧ wellFormedFrame [] = false := by decide

/-- Nine bits: one full group, and a tail of one bit. -/
theorem witness_FrameLayoutIsAsTabled :
    let b : Bits := List.replicate 9 true
    0 < b.length / 8 ∧ b.length % 8 > 0 ∧ pack b = [1, 255, 1] ∧ pack [] = [0] := by decide

/-- Around the final byte's limit: 3 and 4 with a tail of 2. -/
theorem witness_PackAndUnpackAreInverse : wellFormedFrame [2, 3] = true ∧ (3 : Byte).toNat < 2 ^ 2 ∧
    wellFormedFrame [2, 4] = true ∧ 2 ^ 2 ≤ (4 : Byte).toNat ∧ wellFormedFrame [0] = true := by decide

theorem witness_InverseViewsKeepTheLaterEntry :
    let t : CodeTable := ⟨none, [('a', ⟨1, bits [0]⟩), ('b', ⟨1, bits [0]⟩)]⟩
    (t.entries.map (·.1)).Nodup ∧ ('a', ⟨1, bits [0]⟩) ∈ t.entries ∧ invBits t (bits [0]) = some 'b' ∧
      (invNum t).lookup 0 = some ['b'] ∧ ['a', 'b'].length ≠ 1 ∧ ([] : Text).length ≠ 1 := by decide

theorem witness_FreqScanCountsEachSymbolOnce : ('b', 2) ∈ freqScan ['a', 'b', 'b'] := by decide

theorem witness_FirstOccurrenceOrderIsStable : State.reset.params.tieOrder = .firstOccurrence ∧
    sortedFreq (fun _ => 0) ['c', 'b', 'a', 'a'] = [('a', 2), ('c', 1), ('b', 1)] := by decide

/-- Both orders of a run of two equal counts. -/
theorem witness_OracleCoversEveryTieOrder :
    [('b', 1), ('a', 1)].Perm (freqScan ['a', 'b']) ∧ [('b', 1), ('a', 1)].Pairwise (fun x y => y.2 ≤ x.2) ∧
    [('a', 1), ('b', 1)].Perm (freqScan ['a', 'b']) := by decide

theorem witness_FixedWidthTableNumbersTheRanks :
    (sortedFreq (fun _ => 0) ['a', 'b', 'b']).length = 2 ∧ ceilLog2 2 = 1 ∧
    (sortedFreq (fun _ => 0) ['a', 'b', 'b'])[1]? = some ('a', 1) ∧
    (sortedFreq (fun _ => 0) ['a', 'a']).length = 1 ∧ (sortedFreq (fun _ => 0) ([] : Text)).length = 0 := by decide

/-- 42_codetable.md's trace for "aaabbc": the merge of `b` and `c` goes before `a`, of equal frequency; and texts of one and of
two symbols. -/
theorem witness_HuffmanTreeIsMergedAsWritten :
    [HuffNode.leaf 'a' 3].Pairwise (fun a b => nodeFreq b ≤ nodeFreq a) ∧
    mergeStep [.leaf 'a' 3, .leaf 'b' 2, .leaf 'c' 1] =
      [.inner 3 (.leaf 'b' 2) (.leaf 'c' 1), .leaf 'a' 3] ∧
    ['a', 'a'] ≠ [] ∧ sortedFreq (fun _ => 0) ['b', 'a', 'a'] = [('a', 2), ('b', 1)] := by decide

/-- Three symbols: 42_codetable.md's tree of "aaabbc"; a list of two nodes is merged, one of one node is not. -/
theorem witness_HuffmanTreeIsMergedAsWritten_loop :
    startNodes (fun _ => 0) ['a', 'a', 'a', 'b', 'b', 'c'] = [.leaf 'a' 3, .leaf 'b' 2, .leaf 'c' 1] ∧
    mergeAll 3 [.leaf 'a' 3, .leaf 'b' 2, .leaf 'c' 1] =
      [.inner 6 (.inner 3 (.leaf 'b' 2) (.leaf 'c' 1)) (.leaf 'a' 3)] ∧
    assignCodes (.inner 6 (.inner 3 (.leaf 'b' 2) (.leaf 'c' 1)) (.leaf 'a' 3)) [] =
      [('b', bits [0, 0]), ('c', bits [0, 1]), ('a', bits [1])] ∧
    1 < [HuffNode.leaf 'a' 1, .leaf 'b' 1].length ∧ [HuffNode.leaf 'a' 1].length ≤ 1 := by decide

theorem witness_HuffmanCodesArePrefixFree :
    ('b', ⟨2, bits [0, 0]⟩) ∈ (huffmanTable (fun _ => 0) ['a', 'b', 'c']).entries ∧
    ('a', ⟨1, bits [1]⟩) ∈ (huffmanTable (fun _ => 0) ['a', 'b', 'c']).entries := by decide

theorem witness_TblBuildFwAndLzwWriteTheRankTable :
    let s (i : Instr) : State := { started i with aText := some ['a', 'b'] }
    OperandsInBounds .tblBuildFw (started .tblBuildFw) ∧ (started .tblBuildFw).aText = none ∧
      OperandsInBounds .tblBuildFw (s .tblBuildFw) ∧ OperandsInBounds .tblBuildLzw (s .tblBuildLzw) ∧
      (s .tblBuildFw).params.tieOrder = .firstOccurrence ∧
      ResultsInBounds (s .tblBuildFw) { tbl := some (fixedWidthTable (fun _ => 0) ['a', 'b']) } ∧
      ResultsInBounds (s .tblBuildLzw) { tbl := some (fixedWidthTable (fun _ => 0) ['a', 'b']) } := by decide

theorem witness_TblBuildHufWritesTheHuffmanTable :
    let s : State := { started .tblBuildHuf with aText := some ['a', 'b'] }
    OperandsInBounds .tblBuildHuf (started .tblBuildHuf) ∧ (started .tblBuildHuf).aText = none ∧
      OperandsInBounds .tblBuildHuf s ∧ s.params.tieOrder = .firstOccurrence ∧
      ResultsInBounds s { tbl := some (huffmanTable (fun _ => 0) ['a', 'b']) } := by decide

/-- With a size line and without one. -/
theorem witness_TblSaveWritesTheTableText :
    let s (t : CodeTable) : State := { started .tblSave with tbl := some t }
    OperandsInBounds .tblSave (started .tblSave) ∧ (started .tblSave).tbl = none ∧
      OperandsInBounds .tblSave (s ⟨some 0, []⟩) ∧
      ResultsInBounds (s ⟨some 0, []⟩) { rStr := some ['s', 'i', 'z', 'e', ':', '0', '\n'] } ∧
      OperandsInBounds .tblSave (s ⟨none, []⟩) ∧ ResultsInBounds (s ⟨none, []⟩) { rStr := some [] } := by decide

theorem witness_TblLoadWritesTheParsedTable :
    let s (t : Text) : State := { started .tblLoad with aStr := some t }
    OperandsInBounds .tblLoad (started .tblLoad) ∧ (started .tblLoad).aStr = none ∧
      OperandsInBounds .tblLoad (s ['a', ':']) ∧ deserialize charSet ['a', ':'] = .ok ⟨none, [('a', ⟨0, []⟩)]⟩ ∧
      ResultsInBounds (s ['a', ':']) { tbl := some ⟨none, [('a', ⟨0, []⟩)]⟩ } ∧
      OperandsInBounds .tblLoad (s ['\n']) ∧ deserialize charSet ['\n'] = .error .corruptCodeTable ∧
      OperandsInBounds .tblLoad (s ['a', ':', '2']) ∧
      deserialize charSet ['a', ':', '2'] = .error .malformedBitLiteral := by decide

/-- No separator, a duplicate, a non-binary code, and a good line; lines of lengths 1 and 2. -/
theorem witness_DeserializeReadsLineByLine_entries : (['a'].length < 2 ∨ ['a'][1]? ≠ some ':') ∧
    (['a', '0'].length < 2 ∨ ['a', '0'][1]? ≠ some ':') ∧ ['a', ':'] = 'a' :: ':' :: [] ∧
    'a' ∈ [('a', (⟨0, []⟩ : BitVector))].map (·.1) ∧ 'b' ∉ [('a', (⟨0, []⟩ : BitVector))].map (·.1) ∧
    (∃ d ∈ ['0', '2'], d ≠ '0' ∧ d ≠ '1') ∧ ∀ d ∈ ['0', '1'], d = '0' ∨ d = '1' := by
  try dsimp only
  repeat' apply And.intro
  all_goals simp

/-- A text with no line, one with a final newline and one without; a good size line, an empty one, one with a letter; and
a first line that is no size line. -/
theorem witness_DeserializeReadsLineByLine_lines :
    tableLines charSet [] = [] ∧ tableLines charSet ['a', '\n'] = [['a']] ∧ tableLines charSet ['a', '\n', 'b'] = [['a'], ['b']] ∧
    tableLines charSet ['s', 'i', 'z', 'e', ':', '7', '\n'] = ['s', 'i', 'z', 'e', ':', '7'] :: [] ∧ isDecDigit charSet '7' = true ∧
    isDecDigit charSet 'x' = false ∧ isDecDigit charSet '/' = false ∧ isDecDigit charSet ':' = false ∧
    deserialize charSet ['s', 'i', 'z', 'e', ':', '\n'] = .error .corruptCodeTable ∧
    deserialize charSet ['s', 'i', 'z', 'e', ':', '1', '0', '\n'] = .ok ⟨some 10, []⟩ := by decide

theorem witness_LoadInvertsSave :
    let t : CodeTable := ⟨some 0, [('a', ⟨0, bits [0]⟩)]⟩
    (t.entries.map (·.1)).Nodup ∧ (∀ e ∈ t.entries, e.1 ≠ '\n') ∧
      deserialize charSet (serialize charSet t) = .ok ⟨some 0, [('a', ⟨1, bits [0]⟩)]⟩ := by decide

theorem witness_TableEncodersJoinTheCodes :
    let t : CodeTable := ⟨some 1, [('a', ⟨1, bits [0]⟩), ('b', ⟨1, bits [1]⟩)]⟩
    let s (i : Instr) (x : Text) : State := { started i with tbl := some t, aText := some x }
    OperandsInBounds .fwEncode (started .fwEncode) ∧ (started .fwEncode).tbl = none ∧
      OperandsInBounds .hufEncode (started .hufEncode) ∧ (started .hufEncode).aText = none ∧
      OperandsInBounds .fwEncode (s .fwEncode ['c']) ∧ (∃ c ∈ ['c'], code t c = none) ∧
      OperandsInBounds .hufEncode (s .hufEncode ['b', 'a']) ∧
      ['b', 'a'].map (code t) = [⟨1, bits [1]⟩, ⟨1, bits [0]⟩].map some ∧
      ResultsInBounds (s .hufEncode ['b', 'a']) { rBits := some (bits [1, 0]), rBytes := some (pack (bits [1, 0])) } ∧
      OperandsInBounds .fwEncode (s .fwEncode ['b', 'a']) := by
  try dsimp only
  repeat' apply And.intro
  all_goals first | (simp [Machine.code, List.lookup]; done) | decide

theorem witness_FwDecodeWritesPayloadAndText :
    let s (f : Bytes) : State := { started .fwDecode with tbl := some ⟨some 1, [('a', ⟨1, bits [0]⟩)]⟩, aBytes := some f }
    OperandsInBounds .fwDecode (started .fwDecode) ∧ (started .fwDecode).tbl = none ∧
      OperandsInBounds .fwDecode (s [9, 0]) ∧ wellFormedFrame [9, 0] = false ∧
      OperandsInBounds .fwDecode (s [1, 0]) ∧ unpack [1, 0] = .ok (bits [0]) ∧
      ResultsInBounds (s [1, 0]) { rBits := some (bits [0]), rText := some ['a'] } := by decide

theorem witness_HufDecodeWritesPayloadAndText :
    let s (f : Bytes) : State := { started .hufDecode with tbl := some ⟨none, [('a', ⟨1, bits [0]⟩)]⟩, aBytes := some f }
    OperandsInBounds .hufDecode (started .hufDecode) ∧ (started .hufDecode).aBytes = none ∧
      OperandsInBounds .hufDecode (s []) ∧ wellFormedFrame [] = false ∧
      OperandsInBounds .hufDecode (s [1, 0]) ∧ unpack [1, 0] = .ok (bits [0]) ∧
      ResultsInBounds (s [1, 0]) { rBits := some (bits [0]), rText := some ['a'] } := by decide

/-- A chunk that is a code, and a partial one that is none. -/
theorem witness_FwDecodeReadsByChunks :
    let t : CodeTable := ⟨some 2, [('a', ⟨2, bits [0, 0]⟩)]⟩
    invBits t ((bits [0, 0, 1]).take 2) = some 'a' ∧ invBits t ((bits [1]).take 2) = none ∧ bits [1] ≠ [] ∧
      max (width t) 1 = 2 ∧ max (width (⟨some 0, []⟩ : CodeTable)) 1 = 1 := by decide

theorem witness_HufDecodeTakesTheShortestCode :
    let t : CodeTable := ⟨none, [('a', ⟨0, []⟩), ('b', ⟨2, bits [1, 0]⟩)]⟩
    invBits t ((bits [1, 0]).take 2) = some 'b' ∧ invBits t ((bits [1, 0]).take 1) = none ∧
      (∀ n ∈ [1, 2], invBits t ((bits [0, 0]).take n) = none) := by decide

/-- Two symbols, and one. -/
theorem witness_FixedWidthStreamHasOneCodeLength :
    let t := fixedWidthTable (fun _ => 0) ['a', 'b']
    let u := fixedWidthTable (fun _ => 0) ['a']
    t.codeWidth = some 1 ∧ 2 ≤ t.entries.length ∧ encodeConcat t ['b', 'a'] = .ok (bits [1, 0]) ∧
      ['b', 'a'][1]? = some 'a' ∧ u.codeWidth = some 0 ∧ u.entries.length = 1 ∧
      encodeConcat u ['a', 'a'] = .ok (bits [0, 0]) := by decide

/-- The three round trips have texts over the table's symbols. -/
theorem witness_RoundTrips :
    (∀ c ∈ ['b', 'a'], hasSymbol (fixedWidthTable (fun _ => 0) ['a', 'b']) c = true) ∧
    (∀ c ∈ ['b', 'a'], hasSymbol (huffmanTable (fun _ => 0) ['a', 'b']) c = true) ∧
    hasSymbol (huffmanTable (fun _ => 0) ['a', 'b']) 'c' = false :=
  ⟨List.all_eq_true.mp (by decide), List.all_eq_true.mp (by decide), by decide⟩

theorem witness_LzwEncodeWritesPayloadAndFrame :
    let t : CodeTable := ⟨some 0, [('a', ⟨0, bits [0]⟩)]⟩
    let s (x : Text) : State := { started .lzwEncode with tbl := some t, aText := some x }
    OperandsInBounds .lzwEncode (started .lzwEncode) ∧ (started .lzwEncode).tbl = none ∧
      OperandsInBounds .lzwEncode (s ['b']) ∧ (∃ c ∈ ['b'], code t c = none) ∧
      OperandsInBounds .lzwEncode (s ['a']) ∧ (∀ c ∈ ['a'], code t c ≠ none) ∧
      ResultsInBounds (s ['a']) { rBits := some (bits [0]), rBytes := some (pack (bits [0])) } := by
  try dsimp only
  repeat' apply And.intro
  all_goals first | (simp [Machine.code, List.lookup]; done) | decide

theorem witness_LzwDecodeWritesPayloadAndText :
    let t : CodeTable := ⟨some 0, [('a', ⟨0, bits [0]⟩)]⟩
    let s (f : Bytes) : State := { started .lzwDecode with tbl := some t, aBytes := some f }
    OperandsInBounds .lzwDecode (started .lzwDecode) ∧ (started .lzwDecode).tbl = none ∧
      OperandsInBounds .lzwDecode (s [3]) ∧ wellFormedFrame [3] = false ∧
      OperandsInBounds .lzwDecode (s [1, 1]) ∧ unpack [1, 1] = .ok (bits [1]) ∧
      lzwDecode t (bits [1]) = .error .unrepresentableCode ∧
      OperandsInBounds .lzwDecode (s [2, 1]) ∧ unpack [2, 1] = .ok (bits [0, 1]) ∧
      lzwDecode t (bits [0, 1]) = .ok ['a', 'a', 'a'] ∧
      ResultsInBounds (s [2, 1]) { rBits := some (bits [0, 1]), rText := some ['a', 'a', 'a'] } := by decide

/-- The scan's turns on the seed of 95_test_vectors.md S3: the end, an extension that is new, and one that is not. -/
theorem witness_LzwEncodeWritesPayloadAndFrame_scan :
    let d : List (Text × Nat) := [(['a'], 0), (['b'], 1)]
    d.lookup ['a'] = some 0 ∧ d.lookup (['a'] ++ ['b']) = none ∧
      ((['a', 'b'], 2) :: d).lookup ['a'] = some 0 ∧ ((['a', 'b'], 2) :: d).lookup (['a'] ++ ['b']) ≠ none ∧
      2 ^ 1 ≤ 2 ∧ ¬ 2 ^ 2 ≤ 3 ∧ lzwScan d 2 1 ['a'] ['b', 'a', 'b'] = .ok [(0, 1), (1, 2), (2, 2)] := by decide

/-- Every case of a decoder step on that seed: no bit left, a known code without and with a conjecture, and an unknown code
without and with one, at the counter and beyond it (R124). -/
theorem witness_LzwDecodeWritesPayloadAndText_steps :
    let i : List (Nat × Text) := [(0, ['a']), (1, ['b'])]
    ([] : Bits).length < max 0 1 ∧ (bits [0]).length < max 2 1 ∧ max 2 1 ≤ (bits [0, 1]).length ∧
      i.lookup (val (bits [0, 1])) = some ['b'] ∧ i.lookup (val (bits [1, 0])) = none ∧
      i.lookup (val (bits [1, 1])) = none ∧
      lzwReads 2 i 2 2 [] (bits [0, 1]) = .ok [⟨1, 2, ['b']⟩] ∧
      lzwReads 2 i 2 2 ['a'] (bits [0, 1]) = .ok [⟨1, 2, ['b']⟩] ∧
      lzwReads 2 i 2 2 [] (bits [1, 1]) = .error .unrepresentableCode ∧
      lzwReads 4 i 2 2 ['a'] (bits [1, 1, 1, 0]) = .ok [⟨3, 2, ['a', 'a']⟩, ⟨2, 2, ['a', 'a']⟩] := by decide

/-- The empty seed: one bit is an unknown first code, no bit is no code (95_test_vectors.md section 7). -/
theorem witness_OnlyTheFirstCodeCanBeUnrepresentable :
    lzwDecode (⟨some 0, []⟩ : CodeTable) (bits [0]) = .error .unrepresentableCode ∧ lzwDecode (⟨some 0, []⟩ : CodeTable) [] = .ok [] := by decide

/-- For both statements on a built seed: 95_test_vectors.md S3's codes and widths. -/
theorem witness_LzwCodesFitTheirWidths :
    lzwCodes (fixedWidthTable (fun _ => 0) ['a', 'b']) ['a', 'b', 'a', 'b', 'a', 'b'] =
      .ok [(0, 1), (1, 2), (2, 2), (2, 3)] := by decide

/-- A loaded table that no strategy builds: its codes fit their widths, and both engines use width 2. -/
theorem witness_LzwEngineWidthsAreInLockstep :
    let t : CodeTable := ⟨some 2, [('a', ⟨2, bits [0, 0]⟩), ('b', ⟨2, bits [1, 1]⟩)]⟩
    lzwCodes t ['a', 'b'] = .ok [(0, 2), (3, 2)] ∧ (0 : Nat) < 2 ^ 2 ∧ (3 : Nat) < 2 ^ 2 ∧
      lzwSteps t (bits [0, 0, 1, 1]) = .ok [⟨0, 2, ['a']⟩, ⟨3, 2, ['b']⟩] := by decide

/-! ### Another type of symbols (R6): natural numbers, with ASCII's numbers for the characters of R6 -/

/-- The characters of R6 as numbers. -/
def asciiNumbers : CharSet Nat where
  digit d := 48 + d
  colon := 58
  newline := 10
  letterS := 115
  letterI := 105
  letterZ := 122
  letterE := 101
  distinct := by decide

/-- TBL_LOAD over numbers, of the text "size:1", newline, "a:0". -/
theorem test_anyChar_tblLoad :
    nextOf (stepWith asciiNumbers { State.initial with
      aStr := some [115, 105, 122, 101, 58, 49, 10, 97, 58, 48], pending := [.write 0x00 (.word 0x29)] }) =
    some { State.initial with
      aStr := some [115, 105, 122, 101, 58, 49, 10, 97, 58, 48], cmd := 0x29, status := 0x00012900, hostActs := 1,
      tbl := some ⟨some 1, [(97, ⟨1, bits [0]⟩)]⟩ } := by decide

end Sys2Proof.Tests
end

section
/-! The state after reset (R31). -/

namespace Sys2Proof.Machine

/-! ### The fields of `STATUS` (R20) in the word 0, written as `simp` writes that word -/

@[simp] theorem errField_zero : errField 0#32 = 0#4 := by decide
@[simp] theorem lastopField_zero : lastopField 0#32 = 0#8 := by decide
@[simp] theorem doneField_zero : doneField 0#32 = 0#1 := by decide

/-- Clearing the registers (R154) changes nothing right after reset (R31), so the laws of `resetRegisters` give the
value of each register there. -/
theorem State.reset_eq_resetRegisters : State.reset = State.reset.resetRegisters := rfl

/-- Settles O10, by the laws of `resetRegisters` for the registers and by the fields of the word 0 for `STATUS`. -/
theorem resetLeavesEveryRegisterUnset : Obligations.ResetLeavesEveryRegisterUnset := by
  unfold Obligations.ResetLeavesEveryRegisterUnset
  rw [State.reset_eq_resetRegisters]
  simp

end Sys2Proof.Machine
end

section
/-! Command words (R51, R53, R63): `decode` and `encode` are inverse to each other. -/

namespace Sys2Proof

/-- R63: a command's word is assembled to that command. -/
@[simp] theorem decode_encode (i : Instr) : decode (encode i) = .ok i := by
  cases i <;> decide

/-- R53: each command has exactly one word. A word that decodes has its reserved bits clear, so it is its opcode widened,
and the opcode table and `encode` agree on opcodes. -/
theorem decode_eq_ok_iff_eq_encode {w : Word32} {i : Instr} : decode w = .ok i ↔ w = encode i := by
  constructor
  · intro h
    obtain ⟨hrsv, hopc⟩ := decode_eq_ok.mp h
    calc w = (opcField w).setWidth 32 := word_of_clear_reserved hrsv
      _ = encode i := (encode_of_lookup _ _ hopc).symm
  · rintro rfl
    exact decode_encode i

/-- Settles O1: the two directions of `decode_eq_ok_iff_eq_encode`, and R51's list read off `encode`. -/
theorem commandWordsDecodeExactly : Obligations.CommandWordsDecodeExactly := by
  unfold Obligations.CommandWordsDecodeExactly
  exact ⟨fun _ _ => decode_eq_ok_iff_eq_encode, rfl⟩

end Sys2Proof
end

section
/-! The bytes of a packed frame (R56). -/

namespace Sys2Proof.Machine

theorem length_pack (b : Bits) :
    (pack b).length = 1 + b.length / 8 + (if b.length % 8 > 0 then 1 else 0) := by
  rw [pack_eq, List.length_cons, List.length_append, length_fullBytes]
  split <;> simp <;> omega

theorem getElem?_pack_zero (b : Bits) : (pack b)[0]? = some (BitVec.ofNat 8 (b.length % 8)) := by
  rw [pack_eq, List.getElem?_cons_zero]

theorem getElem?_pack_group {b : Bits} {k : Nat} (hk : k < b.length / 8) :
    (pack b)[1 + k]? = some (byteOfGroup 8 ((b.drop (8 * k)).take 8)) := by
  rw [pack_eq, Nat.add_comm, List.getElem?_cons_succ, List.getElem?_append_left (by simpa using hk),
    getElem?_fullBytes b hk]

theorem getElem?_pack_tail {b : Bits} (h : b.length % 8 > 0) :
    (pack b)[1 + b.length / 8]? = some (byteOfGroup (b.length % 8) (b.drop (8 * (b.length / 8)))) := by
  rw [pack_eq, Nat.add_comm, List.getElem?_cons_succ, List.getElem?_append_right (by simp), if_pos h]
  simp

/-- Settles O30: the frame's bytes one by one, then the payload's length from the frame's. -/
theorem frameLayoutIsAsTabled : Obligations.FrameLayoutIsAsTabled := by
  unfold Obligations.FrameLayoutIsAsTabled
  rintro b n tail g rfl rfl rfl
  refine ⟨length_pack b, ⟨_, getElem?_pack_zero b, toNat_tailByte _⟩, ?group, ?tail, ?recovered⟩
  case group =>
    exact fun k hk => ⟨_, getElem?_pack_group hk, toNat_byteOfGroup (List.length_take_le _ _)⟩
  case tail =>
    have hlen : (b.drop (8 * (b.length / 8))).length ≤ 8 := by rw [List.length_drop]; omega
    exact fun ht => ⟨_, getElem?_pack_tail ht, toNat_byteOfGroup hlen⟩
  case recovered =>
    rw [length_pack]
    split_ifs <;> omega

end Sys2Proof.Machine
end

section
/-! The code stream of a fixed-width table (R55): every code of such a table has one length, so the codes of a text lie at
the multiples of that length. -/

namespace Sys2Proof.Machine

variable {CHAR : Type}

/-! ### Joining bit-strings of one length -/

theorem length_flatMap_of_uniform {α : Type} {f : α → Bits} {w : Nat} {l : List α} (h : ∀ a ∈ l, (f a).length = w) :
    (l.flatMap f).length = l.length * w := by
  rw [List.length_flatMap, List.map_congr_left h, List.map_const', List.sum_replicate_nat]

theorem drop_take_flatMap_of_uniform {α : Type} {f : α → Bits} {w : Nat} {l : List α}
    (h : ∀ a ∈ l, (f a).length = w) {k : Nat} {a : α} (hk : l[k]? = some a) :
    ((l.flatMap f).drop (k * w)).take w = f a := by
  induction l generalizing k with
  | nil => simp at hk
  | cons x l ih =>
    have hx : (f x).length = w := h x List.mem_cons_self
    cases k with
    | zero =>
      obtain rfl : x = a := by simpa using hk
      simp [List.take_left' hx]
    | succ k =>
      rw [List.flatMap_cons, Nat.succ_mul, Nat.add_comm, ← List.drop_drop, List.drop_left' hx]
      exact ih (fun a ha => h a (List.mem_cons_of_mem _ ha)) hk

/-! ### The codes of a fixed-width table -/

/-- The declared width of a table is its effective width (R90). -/
theorem width_of_codeWidth {t : CodeTable CHAR} {w : Nat} (h : t.codeWidth = some w) : width t = w := by
  rw [width, h]

/-- Two or more symbols need a width of at least 1. -/
theorem one_le_ceilLog2 {n : Nat} (h : 2 ≤ n) : 1 ≤ ceilLog2 n := by
  by_contra hc
  have : n ≤ 2 ^ 0 := ceilLog2_le_iff.mp (by omega)
  omega

section FixedWidth

variable [DecidableEq CHAR] {key : CHAR → Nat} {s : Text CHAR}

/-- A known symbol's code is a numeral at the effective chunk width, below the number of symbols. -/
theorem codeRep_fixedWidthTable {c : CHAR} (h : hasSymbol (fixedWidthTable key s) c = true) :
    ∃ i, i < tableSize (fixedWidthTable key s) ∧
      codeRep (fixedWidthTable key s) c = bitsOf (max (width (fixedWidthTable key s)) 1) i := by
  obtain ⟨x, hx, -, hrep⟩ := entry_of_hasSymbol (nodup_fixedWidthTable_symbols key s) h
  rw [hrep]
  exact rep_of_mem_fixedWidthTable hx

/-- With two or more symbols the chunk width is the declared one. -/
theorem length_codeRep_fixedWidthTable (h2 : 2 ≤ tableSize (fixedWidthTable key s)) {c : CHAR}
    (h : hasSymbol (fixedWidthTable key s) c = true) :
    (codeRep (fixedWidthTable key s) c).length = width (fixedWidthTable key s) := by
  obtain ⟨i, -, hi⟩ := codeRep_fixedWidthTable h
  have hw : 1 ≤ width (fixedWidthTable key s) := width_fixedWidthTable key s ▸ one_le_ceilLog2 h2
  rw [hi, length_bitsOf, max_eq_left hw]

/-- The width of a table of one symbol is 0 (R94). -/
theorem width_fixedWidthTable_of_one (h1 : tableSize (fixedWidthTable key s) = 1) :
    width (fixedWidthTable key s) = 0 := by
  rw [width_fixedWidthTable, h1]
  rfl

/-- The only symbol of a table has the code 0, of one bit: the numeral of rank 0 at the chunk width (D9). -/
theorem codeRep_fixedWidthTable_of_one (h1 : tableSize (fixedWidthTable key s) = 1) {c : CHAR}
    (h : hasSymbol (fixedWidthTable key s) c = true) : codeRep (fixedWidthTable key s) c = [false] := by
  obtain ⟨i, hlt, hi⟩ := codeRep_fixedWidthTable h
  obtain rfl : i = 0 := by omega
  rw [hi, width_fixedWidthTable_of_one h1]
  rfl

end FixedWidth

/-- Settles O51: the payload joins the codes, all of the declared width where there are two symbols or more, and all the
one bit 0 where there is one. -/
theorem fixedWidthStreamHasOneCodeLength : Obligations.FixedWidthStreamHasOneCodeLength := by
  unfold Obligations.FixedWidthStreamHasOneCodeLength
  rintro CHAR _ key s text t w b rfl hw hb
  obtain rfl := width_of_codeWidth hw
  obtain ⟨hknown, rfl⟩ := encodeConcat_eq_ok hb
  refine ⟨fun h2 => ?two, fun h1 => ?one⟩
  case two =>
    have hlen := fun c hc => length_codeRep_fixedWidthTable h2 (hknown c hc)
    refine ⟨length_flatMap_of_uniform hlen, fun k c hk => ?_⟩
    obtain ⟨x, -, hx, hrep⟩ :=
      entry_of_hasSymbol (nodup_fixedWidthTable_symbols key s) (hknown c (List.mem_of_getElem? hk))
    exact ⟨x, hx, (drop_take_flatMap_of_uniform hlen hk).trans hrep⟩
  case one =>
    have hzero := fun c hc => codeRep_fixedWidthTable_of_one h1 (hknown c hc)
    refine ⟨width_fixedWidthTable_of_one h1, ?_⟩
    calc text.flatMap (codeRep (fixedWidthTable key s)) = text.flatMap fun _ => [false] := List.flatMap_congr hzero
      _ = List.replicate text.length false := by rw [← List.map_eq_flatMap, List.map_const']

end Sys2Proof.Machine
end

section
/-! The BitVector unit (spec 40_bitvector.md): what its renderings are (R66 to R76), and what its four commands compute and
write (R70 to R73). -/

namespace Sys2Proof.Machine

variable {CHAR : Type}

/-! ### Renderings (R66, R67, R74, R75) -/

@[simp] theorem toBitString_bvOfBits (n : Nat) (b : Bits) : toBitString (bvOfBits n b) = pad n b := rfl

/-- Settles O23: both constructions render by `pad`, so its length, value and two cases give R74 and R75; R76 is
`bitVectorLaws`. -/
theorem renderingPadsAndNeverTruncates : Obligations.RenderingPadsAndNeverTruncates := by
  unfold Obligations.RenderingPadsAndNeverTruncates
  refine ⟨fun size v => ⟨?length, toInteger_bvFromInt size v, pad_of_length_le⟩,
    fun CHAR _ C => ⟨fun size s hs => ⟨bvOfBits size (bitsOfChars C s), bvFromString_ok hs, rfl, ?literalLength, ?padded,
      ?whole, toInteger_bvOfBits size _⟩, bitVectorLaws C, bvFromString_chars_bin, fun _ => rfl⟩⟩
  case length => rw [toBitString_bvFromInt, length_pad]
  case literalLength => rw [toBitString_bvOfBits, length_pad, length_bitsOfChars]
  case padded =>
    intro _
    rw [toBitString_bvOfBits, pad, length_bitsOfChars, bitsOfChars]
  case whole =>
    intro hle
    exact pad_of_length_le (by rwa [length_bitsOfChars])

/-! ### What the commands compute (R70 to R73) -/

/-- A command that starts by reading two operands fails when either is unset (R139). -/
theorem bind_readOperand_two_unset {α β γ : Type} {a : Option α} {b : Option β} (h : a = none ∨ b = none)
    (f : α → β → Except ErrorCode γ) :
    (do let x ← readOperand a; let y ← readOperand b; f x y) = .error .operandUnset := by
  rcases h with rfl | rfl
  · rfl
  · cases a <;> rfl

theorem bvFromStrResult_unset [DecidableEq CHAR] {C : CharSet CHAR} {aSize : Option Nat} {aStr : Option (Text CHAR)}
    (h : aSize = none ∨ aStr = none) : bvFromStrResult C aSize aStr = .error .operandUnset :=
  bind_readOperand_two_unset h _

theorem bvFromStrResult_error [DecidableEq CHAR] {C : CharSet CHAR} {n : Nat} {t : Text CHAR} {e : ErrorCode}
    (h : bvFromString C n t = .error e) : bvFromStrResult C (some n) (some t) = .error e :=
  bind_eq_error.mpr (.inr ⟨n, rfl, bind_eq_error.mpr (.inr ⟨t, rfl, bind_eq_error.mpr (.inl h)⟩)⟩)

theorem bvFromStrResult_ok [DecidableEq CHAR] {C : CharSet CHAR} {n : Nat} {t : Text CHAR} {x : BitVector}
    (h : bvFromString C n t = .ok x) : bvFromStrResult C (some n) (some t) = .ok { bv := some x } :=
  bind_eq_ok.mpr ⟨n, rfl, bind_eq_ok.mpr ⟨t, rfl, bind_eq_ok.mpr ⟨x, h, rfl⟩⟩⟩

theorem bvFromIntResult_unset {aSize aInt : Option Nat} (h : aSize = none ∨ aInt = none) :
    bvFromIntResult (CHAR := CHAR) aSize aInt = .error .operandUnset :=
  bind_readOperand_two_unset h _

theorem bvFromIntResult_some (n v : Nat) :
    bvFromIntResult (CHAR := CHAR) (some n) (some v) = .ok { bv := some (bvFromInt n v) } := rfl

theorem bvToStrResult_none : bvToStrResult (CHAR := CHAR) none = .error .operandUnset := rfl

theorem bvToStrResult_some (x : BitVector) :
    bvToStrResult (CHAR := CHAR) (some x) = .ok { rBits := some x.rep } := rfl

theorem bvToIntResult_none : bvToIntResult (CHAR := CHAR) none = .error .operandUnset := rfl

theorem bvToIntResult_some (x : BitVector) :
    bvToIntResult (CHAR := CHAR) (some x) = .ok { rInt := some (val x.rep) } := rfl

/-! ### The commands -/

/-- A literal in the host interface's characters (R66): its bits are where it has `'1'`. -/
theorem bitsOfChars_charSet (t : Text) : bitsOfChars charSet t = t.map (· == '1') := rfl

/-- Settles O24, by the three things `bvFromStrResult` can be: an unset operand, a malformed literal, a BitVector. -/
theorem bvFromStrBuildsThePaddedLiteral : Obligations.BvFromStrBuildsThePaddedLiteral := by
  unfold Obligations.BvFromStrBuildsThePaddedLiteral
  refine ⟨rfl, fun s hs => ⟨fun hunset => exec_fails hs (bvFromStrResult_unset hunset), fun n t hn ht => ?_⟩⟩
  have hr : resultOf charSet s .bvFromStr = bvFromStrResult charSet (some n) (some t) := by rw [resultOf, hn, ht]
  refine ⟨fun hbad => exec_fails hs ?malformed, fun hgood x hx hb => exec_succeeds hs ?built hb⟩
  case malformed => exact hr.trans (bvFromStrResult_error (bvFromString_error hbad))
  case built =>
    have hx : x = bvOfBits n (bitsOfChars charSet t) := by
      rw [hx, bvOfBits, pad, length_bitsOfChars, bitsOfChars_charSet]
    exact hr.trans (bvFromStrResult_ok (hx ▸ bvFromString_ok hgood))

/-- Settles O25: `bvFromInt` is the padded numeral by definition. -/
theorem bvFromIntBuildsThePaddedNumeral : Obligations.BvFromIntBuildsThePaddedNumeral := by
  unfold Obligations.BvFromIntBuildsThePaddedNumeral
  refine ⟨rfl, fun s hs => ⟨fun hunset => exec_fails hs (bvFromIntResult_unset hunset), ?built⟩⟩
  rintro n v hn hv x rfl hb
  exact exec_succeeds hs (by rw [resultOf, hn, hv, bvFromIntResult_some, bvFromInt, bvOfBits, pad]) hb

/-- Settles O26: each view fails on an unset `BV`, and else stages its one result. -/
theorem bvViewsReadTheRendering : Obligations.BvViewsReadTheRendering := by
  unfold Obligations.BvViewsReadTheRendering
  refine ⟨rfl, rfl, fun s hs => ⟨fun hnone => ?strUnset, fun x hx hb => ?str⟩,
    fun s hs => ⟨fun hnone => ?intUnset, fun x hx hb => ?int⟩⟩
  case strUnset => exact exec_fails hs (by rw [resultOf, hnone, bvToStrResult_none])
  case str => exact exec_succeeds hs (by rw [resultOf, hx, bvToStrResult_some]) hb
  case intUnset => exact exec_fails hs (by rw [resultOf, hnone, bvToIntResult_none])
  case int => exact exec_succeeds hs (by rw [resultOf, hx, bvToIntResult_some]) hb

end Sys2Proof.Machine
end

section
/-! The ByteFramer unit (spec 41_byteframer.md): which frames `unpack` takes (R77, R79), and what its two commands compute
and write (R80, R81). -/

namespace Sys2Proof.Machine

variable {CHAR : Type} [DecidableEq CHAR]

/-! ### The frames `unpack` takes -/

/-- R77's three conditions. -/
theorem wellFormedFrame_iff {f : Bytes} :
    wellFormedFrame f = true ↔ 1 ≤ f.length ∧ (f.headD 0).toNat ≤ 7 ∧ (f.headD 0 = 0 ∨ 2 ≤ f.length) := by
  cases f with
  | nil => simp [wellFormedFrame]
  | cons t rest => simp [wellFormedFrame, ← BitVec.toNat_inj, Nat.succ_le_iff]

/-- R79 has bits for each of the two shapes of a well-formed frame. -/
theorem exists_unpack_of_wellFormedFrame {f : Bytes} (h : wellFormedFrame f = true) : ∃ b, unpack f = .ok b := by
  rcases wellFormedFrame_cases h with ⟨t, body, rfl, h0⟩ | ⟨t, body, last, rfl, h1, h7⟩
  · exact ⟨_, unpack_no_tail h0 body⟩
  · exact ⟨_, unpack_tail h1 h7 body last⟩

/-- Settles O29: R77's conditions are `wellFormedFrame`, and `unpack` tells its frames from the others. -/
theorem unpackAcceptsExactlyWellFormedFrames : Obligations.UnpackAcceptsExactlyWellFormedFrames := by
  unfold Obligations.UnpackAcceptsExactlyWellFormedFrames
  exact fun _ => ⟨wellFormedFrame_iff, exists_unpack_of_wellFormedFrame, unpack_ill_formed⟩

/-! ### What the commands compute (R80, R81) -/

section Results

variable {C : CharSet CHAR} {s : State CHAR}

theorem resultOf_frmPack_unset (h : s.aBits = none) : resultOf C s .frmPack = .error .operandUnset := by
  rw [resultOf, h]
  rfl

theorem resultOf_frmPack {b : Bits} (h : s.aBits = some b) :
    resultOf C s .frmPack = .ok { rBytes := some (pack b) } := by
  rw [resultOf, h]
  rfl

theorem resultOf_frmUnpack_unset (h : s.aBytes = none) : resultOf C s .frmUnpack = .error .operandUnset := by
  rw [resultOf, h]
  rfl

theorem resultOf_frmUnpack_error {f : Bytes} {e : ErrorCode} (h : s.aBytes = some f) (hu : unpack f = .error e) :
    resultOf C s .frmUnpack = .error e :=
  bind_eq_error.mpr (.inr ⟨f, readOperand_eq_ok.mpr h, bind_eq_error.mpr (.inl hu)⟩)

theorem resultOf_frmUnpack_ok {f : Bytes} {p : Bits} (h : s.aBytes = some f) (hu : unpack f = .ok p) :
    resultOf C s .frmUnpack = .ok { rBits := some p } :=
  bind_eq_ok.mpr ⟨f, readOperand_eq_ok.mpr h, bind_eq_ok.mpr ⟨p, hu, rfl⟩⟩

end Results

/-- R79: a byte's bits are its numeral, padded to the width. -/
theorem byteBits_eq_pad (width : Nat) : byteBits width = fun x => pad width (bin x.toNat) := rfl

/-! ### The commands -/

/-- Settles O27: `A_BITS` is unset, or its frame is the one result. -/
theorem frmPackWritesTheFrame : Obligations.FrmPackWritesTheFrame := by
  unfold Obligations.FrmPackWritesTheFrame
  exact ⟨rfl, fun s hs => ⟨fun hnone => exec_fails hs (resultOf_frmPack_unset hnone),
    fun b hb hfit => exec_succeeds hs (resultOf_frmPack hb) hfit⟩⟩

/-- Settles O28: `A_BYTES` is unset, or `unpack` decides by the shape of the frame: ill formed, without a tail, with one. -/
theorem frmUnpackWritesThePayload : Obligations.FrmUnpackWritesThePayload := by
  unfold Obligations.FrmUnpackWritesThePayload
  refine ⟨rfl, fun s hs => ⟨fun hnone => exec_fails hs (resultOf_frmUnpack_unset hnone), ?illFormed, ?noTail, ?tail⟩⟩
  case illFormed =>
    exact fun f hf hbad => exec_fails hs (resultOf_frmUnpack_error hf (unpack_ill_formed hbad))
  case noTail =>
    rintro body p hf rfl hfit
    have hu := unpack_no_tail (t := 0) rfl body
    rw [byteBits_eq_pad] at hu
    exact exec_succeeds hs (resultOf_frmUnpack_ok hf hu) hfit
  case tail =>
    rintro tail body last p hf h1 h7 rfl hfit
    have hu := unpack_tail h1 h7 body last
    simp only [byteBits_eq_pad] at hu
    exact exec_succeeds hs (resultOf_frmUnpack_ok hf hu) hfit

end Sys2Proof.Machine
end

section
/-! The frequency scan (R91, R92) and the fixed-width table (R94). -/

namespace Sys2Proof.Machine

variable {CHAR : Type} [DecidableEq CHAR]

/-! ### The frequency scan (R91, R92) -/

/-- The scan's entries stand in the order of first occurrence. -/
theorem pairwise_freqScan (text : Text CHAR) :
    (freqScan text).Pairwise fun x y => text.idxOf x.1 < text.idxOf y.1 :=
  List.pairwise_map.mpr (pairwise_firstOccurrences text)

theorem one_le_of_mem_freqScan {text : Text CHAR} {e : CHAR × Nat} (h : e ∈ freqScan text) : 1 ≤ e.2 := by
  obtain ⟨c, k⟩ := e
  obtain ⟨hc, rfl⟩ := mem_freqScan.mp h
  exact List.count_pos_iff.mpr hc

/-- The distinct characters in another order: `dedup` keeps last occurrences. -/
theorem firstOccurrences_perm_dedup (text : Text CHAR) : (firstOccurrences text).Perm text.dedup :=
  (List.perm_ext_iff_of_nodup (nodup_firstOccurrences text) text.nodup_dedup).mpr fun _ =>
    mem_firstOccurrences.trans List.mem_dedup.symm

/-- R92: each position is counted for exactly one symbol. -/
theorem sum_freqScan (text : Text CHAR) : ((freqScan text).map (·.2)).sum = text.length :=
  calc ((freqScan text).map (·.2)).sum
      _ = ((firstOccurrences text).map fun c => text.count c).sum := by rw [freqScan, List.map_map]; rfl
      _ = (text.dedup.map fun c => text.count c).sum := ((firstOccurrences_perm_dedup text).map _).sum_eq
      _ = text.length := List.sum_map_count_dedup_eq_length text

/-- Settles O33, from the laws of `firstOccurrences` and the sum of the counts. -/
theorem freqScanCountsEachSymbolOnce : Obligations.FreqScanCountsEachSymbolOnce := by
  unfold Obligations.FreqScanCountsEachSymbolOnce
  intro CHAR _ text
  refine ⟨fun _ _ => mem_freqScan, ?nodup, pairwise_freqScan text, ?empty, fun _ => one_le_of_mem_freqScan,
    sum_freqScan text⟩
  case nodup => exact freqScan_symbols text ▸ nodup_firstOccurrences text
  case empty =>
    rintro rfl
    rfl

/-! ### An entry's symbol and code (R84) -/

theorem hasSymbol_of_mem {t : CodeTable CHAR} {e : CHAR × BitVector} (h : e ∈ t.entries) : hasSymbol t e.1 = true :=
  hasSymbol_iff.mpr (List.mem_map_of_mem h)

theorem codeRep_of_mem {t : CodeTable CHAR} (hn : (t.entries.map (·.1)).Nodup) {e : CHAR × BitVector}
    (h : e ∈ t.entries) : codeRep t e.1 = e.2.rep := by
  rw [codeRep, (code_eq_some_iff hn).mpr h]
  rfl

/-! ### The fixed-width table (R94) -/

section RankTable

variable {key : CHAR → Nat} {text : Text CHAR}

theorem codeWidth_fixedWidthTable :
    (fixedWidthTable key text).codeWidth = some (ceilLog2 (sortedFreq key text).length) := rfl

/-- The entry of rank `i` has the `i`-th symbol and the numeral of `i`. -/
theorem getElem?_fixedWidthTable (i : Nat) :
    (fixedWidthTable key text).entries[i]? =
      (sortedFreq key text)[i]?.map fun e => (e.1, bvFromInt (ceilLog2 (sortedFreq key text).length) i) := by
  rw [fixedWidthTable, getElem?_rankCodes, Nat.zero_add]

/-- With two or more symbols every code has exactly the declared width: each rank fits it. -/
theorem length_rep_fixedWidthTable (h2 : 2 ≤ tableSize (fixedWidthTable key text)) {e : CHAR × BitVector}
    (h : e ∈ (fixedWidthTable key text).entries) : e.2.rep.length = width (fixedWidthTable key text) := by
  rw [← codeRep_of_mem (nodup_fixedWidthTable_symbols key text) h]
  exact length_codeRep_fixedWidthTable h2 (hasSymbol_of_mem h)

/-- The only symbol has rank 0, whose numeral is one bit, though the declared width is 0 (D9). -/
theorem rep_fixedWidthTable_of_one (h1 : tableSize (fixedWidthTable key text) = 1) {e : CHAR × BitVector}
    (h : e ∈ (fixedWidthTable key text).entries) : e.2.rep = [false] := by
  rw [← codeRep_of_mem (nodup_fixedWidthTable_symbols key text) h]
  exact codeRep_fixedWidthTable_of_one h1 (hasSymbol_of_mem h)

end RankTable

/-- Settles O36: the entries by `getElem?_fixedWidthTable`, and the lengths of the codes by the number of symbols. -/
theorem fixedWidthTableNumbersTheRanks : Obligations.FixedWidthTableNumbersTheRanks := by
  unfold Obligations.FixedWidthTableNumbersTheRanks
  rintro CHAR _ key text n w rfl rfl
  have hsize := tableSize_fixedWidthTable key text
  have hwidth := width_of_codeWidth (codeWidth_fixedWidthTable (key := key) (text := text))
  refine ⟨codeWidth_fixedWidthTable, hsize, fun i c k hi => ?rank, fun h2 e he => ?two, fun h1 => ?one, ?empty⟩
  case rank =>
    rw [getElem?_fixedWidthTable, hi]
    rfl
  case two => exact hwidth ▸ length_rep_fixedWidthTable (hsize ▸ h2) he
  case one =>
    rw [← hsize] at h1
    exact ⟨hwidth ▸ width_fixedWidthTable_of_one h1, fun e he => rep_fixedWidthTable_of_one h1 he⟩
  case empty =>
    rintro rfl
    rfl

end Sys2Proof.Machine
end

section
/-! The table commands (R99 to R105): what each computes from its one operand, and what it writes. -/

namespace Sys2Proof.Machine

variable {CHAR : Type}

/-- R7: under `FirstOccurrence` no key tells two symbols apart. -/
theorem State.tieKey_of_firstOccurrence {s : State CHAR} (h : s.params.tieOrder = .firstOccurrence) :
    s.tieKey = fun _ => 0 := by
  rw [State.tieKey, h]

/-! ### What the commands compute -/

section Results

variable [DecidableEq CHAR] {C : CharSet CHAR} {s : State CHAR}

/-- R99, R101: the two commands compute one table. -/
theorem resultOf_rankTable {i : Instr} (hi : i = .tblBuildFw ∨ i = .tblBuildLzw) {t : Text CHAR}
    (h : s.aText = some t) : resultOf C s i = .ok { tbl := some (fixedWidthTable s.tieKey t) } := by
  rcases hi with rfl | rfl <;> rw [resultOf, h] <;> rfl

theorem resultOf_rankTable_unset {i : Instr} (hi : i = .tblBuildFw ∨ i = .tblBuildLzw) (h : s.aText = none) :
    resultOf C s i = .error .operandUnset := by
  rcases hi with rfl | rfl <;> rw [resultOf, h] <;> rfl

theorem resultOf_tblBuildHuf {t : Text CHAR} (h : s.aText = some t) :
    resultOf C s .tblBuildHuf = .ok { tbl := some (huffmanTable s.tieKey t) } := by
  rw [resultOf, h]
  rfl

theorem resultOf_tblBuildHuf_unset (h : s.aText = none) : resultOf C s .tblBuildHuf = .error .operandUnset := by
  rw [resultOf, h]
  rfl

theorem resultOf_tblSave {t : CodeTable CHAR} (h : s.tbl = some t) :
    resultOf C s .tblSave = .ok { rStr := some (serialize C t) } := by
  rw [resultOf, h]
  rfl

theorem resultOf_tblSave_unset (h : s.tbl = none) : resultOf C s .tblSave = .error .operandUnset := by
  rw [resultOf, h]
  rfl

theorem resultOf_tblLoad_ok {text : Text CHAR} {t : CodeTable CHAR} (h : s.aStr = some text)
    (hd : deserialize C text = .ok t) : resultOf C s .tblLoad = .ok { tbl := some t } :=
  bind_eq_ok.mpr ⟨text, readOperand_eq_ok.mpr h, bind_eq_ok.mpr ⟨t, hd, rfl⟩⟩

theorem resultOf_tblLoad_error {text : Text CHAR} {e : ErrorCode} (h : s.aStr = some text)
    (hd : deserialize C text = .error e) : resultOf C s .tblLoad = .error e :=
  bind_eq_error.mpr (.inr ⟨text, readOperand_eq_ok.mpr h, bind_eq_error.mpr (.inl hd)⟩)

theorem resultOf_tblLoad_unset (h : s.aStr = none) : resultOf C s .tblLoad = .error .operandUnset := by
  rw [resultOf, h]
  rfl

end Results

/-! ### The table text (R102) -/

theorem serialize_of_codeWidth {C : CharSet CHAR} {t : CodeTable CHAR} {w : Nat} (h : t.codeWidth = some w) :
    serialize C t = sizeMark C ++ dec C w ++ [C.newline] ++ t.entries.flatMap (entryLine C) := by
  rw [serialize, h]

theorem serialize_of_no_codeWidth {C : CharSet CHAR} {t : CodeTable CHAR} (h : t.codeWidth = none) :
    serialize C t = t.entries.flatMap (entryLine C) := by
  rw [serialize, h, List.nil_append]

/-- An entry's line in the host interface's characters. -/
theorem entryLine_charSet :
    entryLine charSet = fun e => [e.1, ':'] ++ e.2.rep.map (fun b => if b then '1' else '0') ++ ['\n'] := rfl

/-! ### The commands -/

/-- Settles O40: `A_TEXT` is unset, or the fixed-width table in the order of `tieKey` is the one result. -/
theorem tblBuildFwAndLzwWriteTheRankTable : Obligations.TblBuildFwAndLzwWriteTheRankTable := by
  unfold Obligations.TblBuildFwAndLzwWriteTheRankTable
  refine ⟨rfl, rfl, fun i s hi hs => ⟨fun hnone => exec_fails hs (resultOf_rankTable_unset hi hnone), ?built⟩⟩
  rintro t key ht rfl
  exact ⟨State.tieKey_of_firstOccurrence, fun hfit => exec_succeeds hs (resultOf_rankTable hi ht) hfit⟩

/-- Settles O41: `A_TEXT` is unset, or the Huffman table in the order of `tieKey` is the one result. -/
theorem tblBuildHufWritesTheHuffmanTable : Obligations.TblBuildHufWritesTheHuffmanTable := by
  unfold Obligations.TblBuildHufWritesTheHuffmanTable
  refine ⟨rfl, fun s hs => ⟨fun hnone => exec_fails hs (resultOf_tblBuildHuf_unset hnone), ?built⟩⟩
  rintro t key ht rfl
  exact ⟨State.tieKey_of_firstOccurrence, fun hfit => exec_succeeds hs (resultOf_tblBuildHuf ht) hfit⟩

/-- Settles O42: `TBL` is unset, or the one result is its text, with or without the size line. -/
theorem tblSaveWritesTheTableText : Obligations.TblSaveWritesTheTableText := by
  unfold Obligations.TblSaveWritesTheTableText
  refine ⟨rfl, fun s hs => ⟨fun hnone => exec_fails hs (resultOf_tblSave_unset hnone), ?saved⟩⟩
  rintro t body out ht rfl hsized hplain hfit
  have hout : serialize charSet t = out := by
    cases hw : t.codeWidth with
    | some w => exact (serialize_of_codeWidth hw).trans (hsized w hw).symm
    | none => exact (serialize_of_no_codeWidth hw).trans (hplain hw).symm
  exact exec_succeeds hs (hout ▸ resultOf_tblSave ht) hfit

/-- Settles O43: `A_STR` is unset, or `deserialize` decides between its table and its error. -/
theorem tblLoadWritesTheParsedTable : Obligations.TblLoadWritesTheParsedTable := by
  unfold Obligations.TblLoadWritesTheParsedTable
  refine ⟨rfl, fun s hs => ⟨fun hnone => exec_fails hs (resultOf_tblLoad_unset hnone), fun text ht => ⟨?loaded, ?bad⟩⟩⟩
  case loaded => exact fun t hd hfit => exec_succeeds hs (resultOf_tblLoad_ok ht hd) hfit
  case bad => exact fun e hd => ⟨(deserialize_eq_error hd).symm, exec_fails hs (resultOf_tblLoad_error ht hd)⟩

end Sys2Proof.Machine
end

section
/-! The fixed-width decoder (R108), and the commands of the table codecs: FW_ENCODE and HUF_ENCODE (R109, R113), which
compute one thing, and FW_DECODE (R110). -/

namespace Sys2Proof.Machine

variable {CHAR : Type}

/-! ### The fixed-width decoder (R108) -/

@[simp] theorem fwDecode_nil (t : CodeTable CHAR) : fwDecode t [] = [] := rfl

/-- One turn of the decoder: the first chunk's symbol, if it is a code, then the rest. -/
theorem fwDecode_of_ne_nil (t : CodeTable CHAR) {b : Bits} (hb : b ≠ []) :
    fwDecode t b =
      (invBits t (b.take (max (width t) 1))).toList ++ fwDecode t (b.drop (max (width t) 1)) := by
  rw [fwDecode, chunksOf_cons (le_max_right _ _) hb, List.filterMap_cons, ← fwDecode]
  cases invBits t (b.take (max (width t) 1)) <;> rfl

/-- Settles O49: the chunk of `fwDecode_of_ne_nil` is a code or is dropped. -/
theorem fwDecodeReadsByChunks : Obligations.FwDecodeReadsByChunks := by
  unfold Obligations.FwDecodeReadsByChunks
  rintro CHAR t b e rfl
  refine ⟨fwDecode_nil t, fun hb c hcode => ?emitted, fun hb hnone => ?dropped⟩
  case emitted => rw [fwDecode_of_ne_nil t hb, hcode, Option.toList_some, List.singleton_append]
  case dropped => rw [fwDecode_of_ne_nil t hb, hnone, Option.toList_none, List.nil_append]

/-! ### What the commands compute -/

/-- R107: a text whose characters all have codes is encoded to the codes' renderings, joined. -/
theorem encodeConcat_of_codes [DecidableEq CHAR] {t : CodeTable CHAR} {text : Text CHAR} {codes : List BitVector}
    (h : text.map (code t) = codes.map some) : encodeConcat t text = .ok (codes.flatMap (·.rep)) := by
  have hknown : ∀ c ∈ text, hasSymbol t c = true := by
    intro c hc
    obtain ⟨x, -, hx⟩ := List.mem_map.mp (h ▸ List.mem_map_of_mem hc)
    rw [hasSymbol, ← hx, Option.isSome_some]
  rw [encodeConcat_of_known hknown]
  congr 1
  calc text.flatMap (codeRep t)
      _ = (text.map (code t)).flatMap fun x => (x.map toBitString).getD [] := by rw [List.flatMap_map]; rfl
      _ = codes.flatMap (·.rep) := by rw [h, List.flatMap_map]; rfl

section Results

variable [DecidableEq CHAR] {C : CharSet CHAR} {s : State CHAR}

theorem resultOf_tableEncode_unset {i : Instr} (hi : i = .fwEncode ∨ i = .hufEncode)
    (h : s.tbl = none ∨ s.aText = none) : resultOf C s i = .error .operandUnset := by
  rcases hi with rfl | rfl <;> exact bind_readOperand_two_unset h _

/-- R107, R112: the two encoders compute one thing. -/
theorem resultOf_tableEncode {i : Instr} (hi : i = .fwEncode ∨ i = .hufEncode) {t : CodeTable CHAR} {text : Text CHAR}
    (ht : s.tbl = some t) (hx : s.aText = some text) :
    resultOf C s i = (encodeConcat t text).map encodeResults := by
  rcases hi with rfl | rfl <;> rw [resultOf, ht, hx] <;> rfl

theorem resultOf_fwDecode_unset (h : s.tbl = none ∨ s.aBytes = none) :
    resultOf C s .fwDecode = .error .operandUnset :=
  bind_readOperand_two_unset h _

theorem resultOf_fwDecode {t : CodeTable CHAR} {f : Bytes} (ht : s.tbl = some t) (hf : s.aBytes = some f) :
    resultOf C s .fwDecode = (unpack f).map fun p => decodeResults p (fwDecode t p) := by
  rw [resultOf, ht, hf]
  rfl

end Results

/-! ### The commands -/

/-- Settles O46: an operand is unset, or `encodeConcat` decides by whether every character has a code. -/
theorem tableEncodersJoinTheCodes : Obligations.TableEncodersJoinTheCodes := by
  unfold Obligations.TableEncodersJoinTheCodes
  refine ⟨rfl, rfl, fun i s hi hs => ⟨fun hunset => exec_fails hs (resultOf_tableEncode_unset hi hunset),
    fun t text ht hx => ?_⟩⟩
  have hr := resultOf_tableEncode (C := charSet) hi ht hx
  refine ⟨fun hunknown => exec_fails hs ?unknown, ?joined⟩
  case unknown =>
    rw [hr, encodeConcat_of_unknown hunknown]
    rfl
  case joined =>
    rintro codes p hcodes rfl hfit
    rw [encodeConcat_of_codes hcodes] at hr
    exact exec_succeeds hs hr hfit

/-- Settles O47: an operand is unset, or `unpack` decides by whether the frame is well formed. -/
theorem fwDecodeWritesPayloadAndText : Obligations.FwDecodeWritesPayloadAndText := by
  unfold Obligations.FwDecodeWritesPayloadAndText
  refine ⟨rfl, fun s hs => ⟨fun hunset => exec_fails hs (resultOf_fwDecode_unset hunset), fun t f ht hf => ?_⟩⟩
  have hr := resultOf_fwDecode (C := charSet) ht hf
  refine ⟨fun hbad => exec_fails hs ?illFormed, fun p hp hfit => ?decoded⟩
  case illFormed =>
    rw [hr, unpack_ill_formed hbad]
    rfl
  case decoded =>
    rw [hp] at hr
    exact exec_succeeds hs hr hfit

end Sys2Proof.Machine
end

section
/-! The Huffman decoder (R114) and the command HUF_DECODE (R115). -/

namespace Sys2Proof.Machine

variable {CHAR : Type}

/-! ### The prefix scan (R114) -/

/-- One turn of the decoder: the shortest code's symbol, then what stands after that code. -/
theorem hufDecode_of_shortestCode_eq_some {t : CodeTable CHAR} {b : Bits} {c : CHAR} {n : Nat}
    (h : shortestCode t b = some (c, n)) : hufDecode t b = c :: hufDecode t (b.drop n) :=
  prefixScan_step h

theorem hufDecode_of_shortestCode_eq_none {t : CodeTable CHAR} {b : Bits} (h : shortestCode t b = none) :
    hufDecode t b = [] :=
  prefixScan_end h

/-- Settles O50: the least matching length is the one `shortestCode` finds, and it finds none where none matches. -/
theorem hufDecodeTakesTheShortestCode : Obligations.HufDecodeTakesTheShortestCode := by
  unfold Obligations.HufDecodeTakesTheShortestCode
  refine fun CHAR t b => ⟨fun n c h1 hle hcode hleast => ?emitted, fun hnone => ?ended⟩
  case emitted =>
    exact hufDecode_of_shortestCode_eq_some (shortestCode_eq_some.mpr ⟨h1, hle, hcode, hleast⟩)
  case ended => exact hufDecode_of_shortestCode_eq_none (shortestCode_eq_none.mpr hnone)

/-! ### What the command computes -/

section Results

variable [DecidableEq CHAR] {C : CharSet CHAR} {s : State CHAR}

theorem resultOf_hufDecode_unset (h : s.tbl = none ∨ s.aBytes = none) :
    resultOf C s .hufDecode = .error .operandUnset :=
  bind_readOperand_two_unset h _

theorem resultOf_hufDecode {t : CodeTable CHAR} {f : Bytes} (ht : s.tbl = some t) (hf : s.aBytes = some f) :
    resultOf C s .hufDecode = (unpack f).map fun p => decodeResults p (hufDecode t p) := by
  rw [resultOf, ht, hf]
  rfl

end Results

/-! ### The command -/

/-- Settles O48: an operand is unset, or `unpack` decides by whether the frame is well formed. -/
theorem hufDecodeWritesPayloadAndText : Obligations.HufDecodeWritesPayloadAndText := by
  unfold Obligations.HufDecodeWritesPayloadAndText
  refine ⟨rfl, fun s hs => ⟨fun hunset => exec_fails hs (resultOf_hufDecode_unset hunset), fun t f ht hf => ?_⟩⟩
  have hr := resultOf_hufDecode (C := charSet) ht hf
  refine ⟨fun hbad => exec_fails hs ?illFormed, fun p hp hfit => ?decoded⟩
  case illFormed =>
    rw [hr, unpack_ill_formed hbad]
    rfl
  case decoded =>
    rw [hp] at hr
    exact exec_succeeds hs hr hfit

end Sys2Proof.Machine
end

section
/-! The LZW engines (spec 45_lzw.md R117 to R124): what they answer and the cases of a decoder's step; then the commands
LZW_ENCODE and LZW_DECODE (R121, R123). -/

namespace Sys2Proof.Machine

variable {CHAR : Type}

/-! ### The encoder (R118 to R120) -/

/-- R119: a code's bits are its numeral, padded to the width. -/
theorem codeBits_eq_pad (e k : Nat) : codeBits e k = pad e (bin k) := toBitString_bvFromInt e k

section Encoder

variable [DecidableEq CHAR] {t : CodeTable CHAR} {text : Text CHAR}

/-- R84: the characters that have codes are the table's symbols. -/
theorem hasSymbol_of_code_ne_none (h : ∀ c ∈ text, code t c ≠ none) : ∀ c ∈ text, hasSymbol t c = true :=
  fun c hc => Option.isSome_iff_ne_none.mpr (h c hc)

theorem lzwEncode_eq_map (t : CodeTable CHAR) (text : Text CHAR) :
    lzwEncode t text = (lzwCodes t text).map fun codes => codes.flatMap fun p => pad p.2 (bin p.1) := by
  simp only [lzwEncode, codeBits_eq_pad]
  cases lzwCodes t text <;> rfl

theorem lzwEncode_of_unknown (h : ∃ c ∈ text, code t c = none) : lzwEncode t text = .error .unknownSymbol := by
  rw [lzwEncode_eq_map, lzwCodes_of_unknown h]
  rfl

theorem exists_lzwEncode (h : ∀ c ∈ text, code t c ≠ none) : ∃ p, lzwEncode t text = .ok p := by
  obtain ⟨codes, hcodes⟩ := lzwCodes_ok (hasSymbol_of_code_ne_none h)
  exact ⟨_, lzwEncode_of_codes hcodes⟩

theorem lzwCodes_nil (t : CodeTable CHAR) : lzwCodes t [] = .ok [] := rfl

theorem lzwCodes_cons {c : CHAR} {rest : Text CHAR} (h : ∀ x ∈ c :: rest, hasSymbol t x = true) :
    lzwCodes t (c :: rest) = lzwScan (seedDict t) (tableSize t) (width t) [c] rest := by
  rw [lzwCodes, if_pos (knownText_iff.mpr h)]

end Encoder

/-! ### The decoder (R118, R119, R122) -/

theorem lzwDecode_eq_map (t : CodeTable CHAR) (b : Bits) :
    lzwDecode t b = (lzwSteps t b).map fun reads => reads.flatMap (·.output) := by
  rw [lzwDecode]
  cases lzwSteps t b <;> rfl

section Step

variable {i : List (Nat × Text CHAR)} {k : Nat} {conj o : Text CHAR}

/-- Case (a): a known code. -/
theorem lzwOutput_of_known (h : i.lookup k = some o) : lzwOutput i conj k = some o := by
  rw [lzwOutput, h]

/-- Case (b): any other code, with a conjecture. -/
theorem lzwOutput_of_unknown (h : i.lookup k = none) (hc : conj ≠ []) :
    lzwOutput i conj k = some (conj ++ conj.take 1) := by
  rw [lzwOutput, h]
  exact if_neg hc

theorem lzwOutput_of_unknown_nil (h : i.lookup k = none) : lzwOutput i [] k = none := by
  rw [lzwOutput, h]
  rfl

theorem lzwRegister_nil (i : List (Nat × Text CHAR)) (next : Nat) (o : Text CHAR) : lzwRegister i next [] o = i := rfl

theorem lzwNext_nil (next : Nat) : lzwNext (CHAR := CHAR) next [] = next := rfl

theorem lzwRegister_of_ne_nil (hc : conj ≠ []) (i : List (Nat × Text CHAR)) (next : Nat) (o : Text CHAR) :
    lzwRegister i next conj o = (next, conj ++ o.take 1) :: i := if_neg hc

theorem lzwNext_of_ne_nil (hc : conj ≠ []) (next : Nat) : lzwNext next conj = next + 1 := if_neg hc

/-- In case (b) the text a step registers is its output. -/
theorem append_take_one_of_conjecture (hc : conj ≠ []) (ho : o = conj ++ conj.take 1) : conj ++ o.take 1 = o := by
  rw [ho, List.take_append_of_le_length (List.length_pos_iff.mpr hc)]

variable {w : Nat} {b : Bits}

/-- The first step registers nothing and leaves the counter. -/
theorem lzwReads_step_nil (h : effWidth w ≤ b.length) (ho : lzwOutput i [] (val (b.take (effWidth w))) = some o)
    (next : Nat) :
    lzwReads b.length i next w [] b =
      (lzwReads (b.drop (effWidth w)).length i next (grow w next) o (b.drop (effWidth w))).map
        (LzwRead.mk (val (b.take (effWidth w))) (effWidth w) o :: ·) := by
  rw [lzwReads_step h ho, lzwRegister_nil, lzwNext_nil]

/-- A step with a conjecture registers at the counter, and the width grows by the counter after that. -/
theorem lzwReads_step_of_ne_nil (h : effWidth w ≤ b.length)
    (ho : lzwOutput i conj (val (b.take (effWidth w))) = some o) (hc : conj ≠ []) (next : Nat) :
    lzwReads b.length i next w conj b =
      (lzwReads (b.drop (effWidth w)).length ((next, conj ++ o.take 1) :: i) (next + 1) (grow w (next + 1)) o
        (b.drop (effWidth w))).map (LzwRead.mk (val (b.take (effWidth w))) (effWidth w) o :: ·) := by
  rw [lzwReads_step h ho, lzwRegister_of_ne_nil hc, lzwNext_of_ne_nil hc]

end Step

/-! ### What the commands compute -/

section Results

variable [DecidableEq CHAR] {C : CharSet CHAR} {s : State CHAR}

theorem resultOf_lzwEncode_unset (h : s.tbl = none ∨ s.aText = none) :
    resultOf C s .lzwEncode = .error .operandUnset :=
  bind_readOperand_two_unset h _

theorem resultOf_lzwEncode {t : CodeTable CHAR} {text : Text CHAR} (ht : s.tbl = some t) (hx : s.aText = some text) :
    resultOf C s .lzwEncode = (lzwEncode t text).map encodeResults := by
  rw [resultOf, ht, hx]
  rfl

theorem resultOf_lzwDecode_unset (h : s.tbl = none ∨ s.aBytes = none) :
    resultOf C s .lzwDecode = .error .operandUnset :=
  bind_readOperand_two_unset h _

theorem resultOf_lzwDecode {t : CodeTable CHAR} {f : Bytes} (ht : s.tbl = some t) (hf : s.aBytes = some f) :
    resultOf C s .lzwDecode = (unpack f).bind fun p => (lzwDecode t p).map (decodeResults p) := by
  rw [resultOf, ht, hf]
  rfl

theorem resultOf_lzwDecode_ill_formed {t : CodeTable CHAR} {f : Bytes} (ht : s.tbl = some t) (hf : s.aBytes = some f)
    (h : wellFormedFrame f = false) : resultOf C s .lzwDecode = .error .corruptFrame := by
  rw [resultOf_lzwDecode ht hf, unpack_ill_formed h]
  rfl

theorem resultOf_lzwDecode_unpacked {t : CodeTable CHAR} {f : Bytes} {p : Bits} (ht : s.tbl = some t)
    (hf : s.aBytes = some f) (hp : unpack f = .ok p) :
    resultOf C s .lzwDecode = (lzwDecode t p).map (decodeResults p) := by
  rw [resultOf_lzwDecode ht hf, hp]
  rfl

end Results

/-! ### The commands -/

/-- Settles O54: an operand is unset, or `lzwEncode` decides by whether every character has a code; then the seed of the
scan, and its three turns. -/
theorem lzwEncodeWritesPayloadAndFrame : Obligations.LzwEncodeWritesPayloadAndFrame := by
  unfold Obligations.LzwEncodeWritesPayloadAndFrame
  refine ⟨rfl, fun s hs => ⟨fun hunset => exec_fails hs (resultOf_lzwEncode_unset hunset),
    fun t text ht hx => ?command⟩,
    fun CHAR _ t text hcodes => ⟨lzwEncode_eq_map t text, ?empty, ?start⟩,
    fun CHAR _ d next w k cur hk => ⟨lzwScan_end hk next w, fun c rest => ⟨fun h => lzwScan_absorb h next w rest,
      fun h => lzwScan_emit hk h next w rest⟩⟩⟩
  case command =>
    have hr := resultOf_lzwEncode (C := charSet) ht hx
    refine ⟨fun hunknown => exec_fails hs ?unknown, fun hknown => ?encoded⟩
    case unknown =>
      rw [hr, lzwEncode_of_unknown hunknown]
      rfl
    case encoded =>
      obtain ⟨p, hp⟩ := exists_lzwEncode hknown
      rw [hp] at hr
      exact ⟨p, hp, fun hfit => exec_succeeds hs hr hfit⟩
  case empty =>
    rintro rfl
    exact lzwCodes_nil t
  case start =>
    rintro c rest rfl
    exact lzwCodes_cons (hasSymbol_of_code_ne_none hcodes)

/-- Settles O55: an operand is unset, or `unpack` decides by the frame and then `lzwDecode` by the payload; then a step of
the loop, by whether its code is known and whether there is a conjecture. -/
theorem lzwDecodeWritesPayloadAndText : Obligations.LzwDecodeWritesPayloadAndText := by
  unfold Obligations.LzwDecodeWritesPayloadAndText
  refine ⟨rfl, fun s hs => ⟨fun hunset => exec_fails hs (resultOf_lzwDecode_unset hunset),
    fun t f ht hf => ?command⟩,
    fun CHAR t b => ⟨lzwDecode_eq_map t b, rfl⟩, ?loop⟩
  case command =>
    refine ⟨fun hbad => exec_fails hs (resultOf_lzwDecode_ill_formed ht hf hbad), fun p hp => ?payload⟩
    have hr := resultOf_lzwDecode_unpacked (C := charSet) ht hf hp
    refine ⟨fun e he => exec_fails hs ?unrepresentable, fun text htext hfit => exec_succeeds hs ?decoded hfit⟩
    case unrepresentable =>
      obtain rfl := lzwDecode_eq_error he
      rw [hr, he]
      rfl
    case decoded =>
      rw [hr, htext]
      rfl
  case loop =>
    rintro CHAR i next w _ _ conj b rfl rfl
    refine ⟨fun hend f => lzwReads_end hend f i next conj, fun hle => ⟨?first, ?known, ?fails, ?unknown⟩⟩
    case first =>
      rintro o ho rfl
      exact lzwReads_step_nil hle (lzwOutput_of_known ho) next
    case known => exact fun o ho hc => lzwReads_step_of_ne_nil hle (lzwOutput_of_known ho) hc next
    case fails =>
      rintro hnone rfl
      exact lzwReads_fails hle (lzwOutput_of_unknown_nil hnone) next
    case unknown =>
      intro o hnone hc ho
      have hout := lzwOutput_of_unknown hnone hc
      rw [← ho] at hout
      have hstep := lzwReads_step_of_ne_nil hle hout hc next
      rwa [append_take_one_of_conjecture hc ho] at hstep

end Sys2Proof.Machine
end

section
/-! Errors (spec 60_exceptions.md R139, R140), and the idle core (R153). A command's error shows in `ERR`, so what a failed
command does, and which error it has, is read off `resultOf`. -/

namespace Sys2Proof.Machine

/-! ### The idle core (R153) -/

/-- Settles O6: with no pending action `nextAction` answers the state it was given. -/
theorem idleCoreKeepsEveryRegister : Obligations.IdleCoreKeepsEveryRegister := by
  unfold Obligations.IdleCoreKeepsEveryRegister
  intro s hidle
  rw [step, nextAction, hidle]

/-! ### Failed commands (R140) -/

/-- Only a raised error leaves an `ERR` other than 0: a success writes 0 there. -/
theorem exec_raises_of_errField_ne_zero {i : Instr} {s t : State} (h : exec i s = .next t)
    (herr : errField t.status ≠ 0) : ∃ e, resultOf charSet s i = .error e ∧ t = s.raise e := by
  obtain ⟨-, hraised | ⟨out, -, -, rfl⟩⟩ := exec_next h
  · exact hraised
  · exact absurd (errField_statusWord 0 _) herr

/-- Settles O13: the next state is the one `raise` makes, whose `STATUS` has the error's code in `ERR`. -/
theorem errorChangesOnlyStatus : Obligations.ErrorChangesOnlyStatus := by
  unfold Obligations.ErrorChangesOnlyStatus
  intro i s t h herr
  obtain ⟨e, -, rfl⟩ := exec_raises_of_errField_ne_zero h herr
  rw [State.raise_status, errField_statusWord]
  rfl

/-- With operands in bounds a command fails with exactly the error it computes, since codes tell errors apart (R131). -/
theorem failsWith_iff {i : Instr} {s : State} {e : ErrorCode} (hs : OperandsInBounds i s) :
    FailsWith i s e ↔ resultOf charSet s i = .error e := by
  refine ⟨fun h => ?computed, exec_fails hs⟩
  have herr : errField (statusWord e.code (opcField s.cmd)) ≠ 0 := by simpa using e.code_ne_zero
  obtain ⟨e', hr, hraise⟩ := exec_raises_of_errField_ne_zero h herr
  have hcode : e.code = e'.code := by simpa using congrArg (fun t => errField t.status) hraise
  rwa [ErrorCode.code_injective hcode]

/-! ### Unset operands (R139, R142) -/

section Operands

variable {α β γ : Type} {a : Option α} {b : Option β}

/-- A computation that cannot have the error still cannot when its value is only packed into results. -/
theorem bind_pure_ne_error {ε : Type} {x : Except ε α} {e : ε} (hx : x ≠ .error e) (f : α → γ) :
    (do let v ← x; return f v) ≠ .error e := by
  intro h
  obtain hfail | ⟨_, _, hpure⟩ := bind_eq_error.mp h
  · exact hx hfail
  · exact pure_ne_error hpure

/-- A command that reads one operand and has no OperandUnset of its own raises it exactly if the operand is unset. -/
theorem bind_readOperand_eq_unset {f : α → Except ErrorCode γ} (hf : ∀ x, f x ≠ .error .operandUnset) :
    (do let x ← readOperand a; f x) = .error .operandUnset ↔ a = none := by
  cases a with
  | none => exact iff_of_true rfl rfl
  | some x => exact iff_of_false (hf x) (Option.some_ne_none x)

/-- The same for two operands. -/
theorem bind_readOperand_two_eq_unset {f : α → β → Except ErrorCode γ} (hf : ∀ x y, f x y ≠ .error .operandUnset) :
    (do let x ← readOperand a; let y ← readOperand b; f x y) = .error .operandUnset ↔ a = none ∨ b = none := by
  refine ⟨fun h => ?unset, fun h => bind_readOperand_two_unset h f⟩
  cases a with
  | none => exact .inl rfl
  | some x => exact .inr ((bind_readOperand_eq_unset (hf x)).mp h)

end Operands

/-- R139: every command reads its operands first, and what it does with them has no OperandUnset of its own. -/
theorem resultOf_eq_unset_iff {CHAR : Type} [DecidableEq CHAR] {C : CharSet CHAR} {i : Instr} {s : State CHAR} :
    resultOf C s i = .error .operandUnset ↔ ∃ r ∈ readsOf i, s.read r = none := by
  have hunpack (f : Bytes) : unpack f ≠ .error .operandUnset := fun h => nomatch unpack_eq_error h
  cases i <;> simp only [readsOf, List.mem_cons, List.not_mem_nil, or_false, exists_eq_or_imp, exists_eq_left,
    State.read, Option.map_eq_none_iff]
  case bvToStr | bvToInt | frmPack | tblBuildFw | tblBuildHuf | tblBuildLzw | tblSave =>
    exact bind_readOperand_eq_unset fun _ => pure_ne_error
  case bvFromInt => exact bind_readOperand_two_eq_unset fun _ _ => pure_ne_error
  case bvFromStr =>
    refine bind_readOperand_two_eq_unset fun _ _ => bind_pure_ne_error ?_ _
    exact fun h => nomatch bvFromString_eq_error h
  case frmUnpack => exact bind_readOperand_eq_unset fun f => bind_pure_ne_error (hunpack f) _
  case tblLoad =>
    refine bind_readOperand_eq_unset fun _ => bind_pure_ne_error ?_ _
    exact fun h => nomatch deserialize_eq_error h
  case fwEncode | hufEncode =>
    refine bind_readOperand_two_eq_unset fun _ _ => bind_pure_ne_error ?_ _
    exact fun h => nomatch encodeConcat_eq_error h
  case lzwEncode =>
    refine bind_readOperand_two_eq_unset fun _ _ => bind_pure_ne_error ?_ _
    exact fun h => nomatch lzwEncode_eq_error h
  case fwDecode | hufDecode => exact bind_readOperand_two_eq_unset fun _ f => bind_pure_ne_error (hunpack f) _
  case lzwDecode =>
    refine bind_readOperand_two_eq_unset fun _ f hfail => ?_
    obtain hframe | ⟨p, -, hcodes⟩ := bind_eq_error.mp hfail
    · exact hunpack f hframe
    · refine bind_pure_ne_error ?_ _ hcodes
      exact fun h => nomatch lzwDecode_eq_error h

/-- Settles O15: a failure with OperandUnset is a computed one, and that is an unset operand. -/
theorem operandUnsetExactlyWhenUnset : Obligations.OperandUnsetExactlyWhenUnset := by
  unfold Obligations.OperandUnsetExactlyWhenUnset
  intro i s hs
  rw [failsWith_iff hs, resultOf_eq_unset_iff]

end Sys2Proof.Machine
end

section
/-! Hazards (spec 70_reset_and_hazards.md R155): what no step but reset takes away. Each operation a step is made of keeps
`DONE` and unsets no register, and so does the step. -/

namespace Sys2Proof.Machine

variable {CHAR : Type}

/-- What only reset may undo (R155): from `s` to `t`, `DONE` stays 1 and no register returns to unset. -/
structure State.Retains (s t : State CHAR) : Prop where
  keepsDone : doneField s.status = 1 → doneField t.status = 1
  keepsSet : ∀ r, (s.read r).isSome = true → (t.read r).isSome = true

theorem State.Retains.refl (s : State CHAR) : s.Retains s := ⟨id, fun _ => id⟩

theorem State.Retains.trans {s t u : State CHAR} (hst : s.Retains t) (htu : t.Retains u) : s.Retains u :=
  ⟨htu.keepsDone ∘ hst.keepsDone, fun r => htu.keepsSet r ∘ hst.keepsSet r⟩

/-! ### The operations of a step -/

section Operations

variable (s : State CHAR)

theorem State.retains_takeAction (rest : List (HostAction CHAR)) : s.Retains (s.takeAction rest) :=
  ⟨id, fun r hset => by cases r <;> exact hset⟩

theorem State.retains_hostRead (id : RegId) : s.Retains (s.hostRead id) :=
  ⟨fun hdone => hdone, fun r hset => by cases r <;> exact hset⟩

/-- `CMD` changes, and a word is never unset (R21). -/
theorem State.retains_setCmd (w : Word32) : s.Retains (s.setCmd w) :=
  ⟨id, fun r hset => by cases r <;> exact hset⟩

/-- A failed command writes `DONE` (R28). -/
theorem State.retains_raise (e : ErrorCode) : s.Retains (s.raise e) where
  keepsDone _ := by rw [State.raise_status, doneField_statusWord]
  keepsSet r hset := by
    by_cases hr : r = .status
    · rw [hr]; rfl
    · rwa [read_raise s e hr]

/-- A success writes `DONE` (R28), and a staged value only replaces a register's value (R141). -/
theorem State.retains_succeed (out : Results CHAR) : s.Retains (s.succeed out) where
  keepsDone _ := by rw [State.succeed_status, doneField_statusWord]
  keepsSet r hset := by
    by_cases hr : r = .status
    · rw [hr]; rfl
    · rw [read_succeed s out hr, Option.isSome_or, hset, Bool.or_true]

end Operations

/-- A host write gives one `A_*` register a value or is ignored (R22, R23). -/
theorem State.retains_hostSet {s t : State} {r : RegName} {v : RegValue} (h : s.hostSet r v = some t) : s.Retains t := by
  obtain rfl | ⟨_, rfl⟩ | ⟨_, rfl⟩ | ⟨_, rfl⟩ | ⟨_, rfl⟩ | ⟨_, rfl⟩ | ⟨_, rfl⟩ := hostSet_some h
  · exact .refl _
  all_goals exact ⟨id, fun q hset => by cases q <;> first | exact hset | rfl⟩

/-! ### Commands and steps -/

theorem retains_of_exec {i : Instr} {s t : State} (h : exec i s = .next t) : s.Retains t := by
  obtain ⟨-, ⟨e, -, rfl⟩ | ⟨out, -, -, rfl⟩⟩ := exec_next h
  · exact s.retains_raise e
  · exact s.retains_succeed out

/-- R155: a step that is not reset takes the action from the list and then carries it out, and both retain. -/
theorem retains_of_step {s t : State} (hreset : s.pending.head? ≠ some .reset) (h : step s = .next t) : s.Retains t := by
  obtain ⟨-, rfl⟩ | ⟨a, rest, hpending, haction⟩ := step_next h
  · exact .refl _
  refine (s.retains_takeAction rest).trans ?_
  obtain ⟨w, i, -, hexec⟩ | ⟨w, rfl⟩ | ⟨regId, v, r, -, hwrite⟩ | rfl | ⟨regId, rfl⟩ | ⟨rfl, -⟩ := haction
  · exact (State.retains_setCmd _ w).trans (retains_of_exec hexec)
  · exact (State.retains_setCmd _ w).trans (State.retains_raise _ .illegalCommand)
  · exact State.retains_hostSet hwrite
  · exact .refl _
  · exact State.retains_hostRead _ regId
  · exact absurd (congrArg List.head? hpending) hreset

/-- Settles O18: the first part is `retains_of_step`; a failed command only raises its error, and that leaves every
register but `STATUS`. -/
theorem onlyResetUnsetsRegisters : Obligations.OnlyResetUnsetsRegisters := by
  unfold Obligations.OnlyResetUnsetsRegisters
  constructor
  · intro s t hreset h
    have hretains := retains_of_step hreset h
    exact ⟨hretains.keepsDone, hretains.keepsSet⟩
  · intro i s t h herr r hr
    obtain ⟨e, -, rfl⟩ := exec_raises_of_errField_ne_zero h herr
    exact read_raise s e hr

end Sys2Proof.Machine
end

section
/-! The machine's invariant (spec 10_state.md R17, R18, R20; 41_byteframer.md R78): `State.Legal` holds after reset and every
step keeps it. A command reports in `STATUS` and stages legal values; no other action touches what the invariant speaks of
but reset. -/

namespace Sys2Proof.Machine

variable {CHAR : Type}

/-! ### The fields of the word 0 (R20) that the invariant reads -/

@[simp] theorem statusLowReserved_zero : statusLowReserved 0#32 = 0#4 := by decide
@[simp] theorem statusHighReserved_zero : statusHighReserved 0#32 = 0#15 := by decide

/-! ### Values and the status word -/

/-- The part of the invariant about the values held (R17, R18, R78), which a write of `CMD` does not disturb. -/
structure State.ValuesLegal (s : State CHAR) : Prop where
  bv : ∀ x, s.bv = some x → BitVectorLegal x
  tbl : ∀ t, s.tbl = some t → TableLegal t
  rBytes : ∀ f, s.rBytes = some f → wellFormedFrame f = true

/-- A command that has reported its error code, with legal values in the registers, leaves a legal state (R20). -/
theorem State.ValuesLegal.legal_setStatus {s : State CHAR} (h : s.ValuesLegal) {err : BitVec 4} (herr : err.toNat ≤ 7) :
    (s.setStatus err).Legal where
  reservedZero := by simp
  errDefined := by simpa using herr
  lastopIsCmd _ := by simp
  beforeAnyCommand hdone := by simp at hdone
  bvLegal := h.bv
  tblLegal := h.tbl
  rBytesWellFormed := h.rBytes

/-- R141: a register holds its staged value afterwards, or else what it held. -/
theorem forall_or_eq_some {α : Type} {p : α → Prop} {a b : Option α} (ha : ∀ x, a = some x → p x)
    (hb : ∀ x, b = some x → p x) : ∀ x, a.or b = some x → p x := by
  cases a with
  | none => exact hb
  | some y => exact ha

/-- Committing what a command computed keeps the values legal. -/
theorem State.ValuesLegal.commit [DecidableEq CHAR] {C : CharSet CHAR} {s : State CHAR} (h : s.ValuesLegal) {i : Instr}
    {out : Results CHAR} (hout : resultOf C s i = .ok out) : (s.commit out).ValuesLegal := by
  obtain ⟨hbv, htbl, hframe⟩ := resultOf_legal hout
  exact ⟨forall_or_eq_some hbv h.bv, forall_or_eq_some htbl h.tbl, forall_or_eq_some hframe h.rBytes⟩

/-- Every command ends in a legal state, whatever `CMD` and `STATUS` were. -/
theorem legal_of_exec {i : Instr} {s t : State} (hs : s.ValuesLegal) (h : exec i s = .next t) : t.Legal := by
  obtain ⟨-, ⟨e, -, rfl⟩ | ⟨out, hout, -, rfl⟩⟩ := exec_next h
  · exact hs.legal_setStatus e.code_le
  · exact (hs.commit hout).legal_setStatus (by decide)

/-! ### The other actions -/

/-- The invariant does not speak of the operands, the configuration or the model's own fields. -/
theorem State.Legal.withOperands {s : State CHAR} (h : s.Legal) (aSize aInt : Option Nat) (aStr aText : Option (Text CHAR))
    (aBits : Option Bits) (aBytes : Option Bytes) (params : Params) (pending : List (HostAction CHAR))
    (readOut : Option (HostRead CHAR)) (hostActs : Nat) :
    { s with aSize := aSize, aInt := aInt, aStr := aStr, aText := aText, aBits := aBits, aBytes := aBytes,
             params := params, pending := pending, readOut := readOut, hostActs := hostActs : State CHAR }.Legal :=
  ⟨h.reservedZero, h.errDefined, h.lastopIsCmd, h.beforeAnyCommand, h.bvLegal, h.tblLegal, h.rBytesWellFormed⟩

theorem State.Legal.hostSet {s t : State} (h : s.Legal) {r : RegName} {v : RegValue} (ht : s.hostSet r v = some t) :
    t.Legal := by
  obtain rfl | ⟨_, rfl⟩ | ⟨_, rfl⟩ | ⟨_, rfl⟩ | ⟨_, rfl⟩ | ⟨_, rfl⟩ | ⟨_, rfl⟩ := hostSet_some ht <;>
    exact h.withOperands ..

/-- R31: with every register clear the invariant holds. -/
theorem State.legal_resetRegisters (s : State CHAR) : s.resetRegisters.Legal where
  reservedZero := by simp
  errDefined := by simp
  lastopIsCmd hdone := by simp at hdone
  beforeAnyCommand _ := by simp [State.NoResults]
  bvLegal _ h := nomatch h
  tblLegal _ h := nomatch h
  rBytesWellFormed _ h := nomatch h

/-- Settles O11: the state after reset is one whose registers are clear. -/
theorem resetStateIsLegal : Obligations.ResetStateIsLegal := by
  unfold Obligations.ResetStateIsLegal
  rw [State.reset_eq_resetRegisters]
  exact State.legal_resetRegisters _

/-- Settles O12: the action is taken from the list, which the invariant does not see, and is then a command, legal or not,
or one that leaves `CMD`, `STATUS` and the results, or reset. -/
theorem everyStepKeepsTheStateLegal : Obligations.EveryStepKeepsTheStateLegal := by
  unfold Obligations.EveryStepKeepsTheStateLegal
  intro s t hs h
  obtain ⟨-, rfl⟩ | ⟨a, rest, -, haction⟩ := step_next h
  · exact hs
  have htaken : (s.takeAction rest).Legal := hs.withOperands ..
  have hvalues (w : Word32) : ((s.takeAction rest).setCmd w).ValuesLegal := ⟨hs.bvLegal, hs.tblLegal, hs.rBytesWellFormed⟩
  obtain ⟨w, i, -, hexec⟩ | ⟨w, rfl⟩ | ⟨regId, v, r, -, hwrite⟩ | rfl | ⟨regId, rfl⟩ | ⟨-, rfl⟩ := haction
  · exact legal_of_exec (hvalues w) hexec
  · exact (hvalues w).legal_setStatus (ErrorCode.code_le .illegalCommand)
  · exact htaken.hostSet hwrite
  · exact htaken
  · exact htaken.withOperands ..
  · exact State.legal_resetRegisters _

end Sys2Proof.Machine
end

section
/-! Words and host actions: the words that decode (spec 30_encoding.md R50 to R52), and what one step does on each action of
the host (10_state.md R19 to R24, 60_exceptions.md R138, 70_reset_and_hazards.md R154). -/

namespace Sys2Proof

/-- Settles O2: both sides ask for a clear reserved field, and an opcode is in the opcode map exactly if it is assigned. -/
theorem legalWordsAreThoseNotReserved : Obligations.LegalWordsAreThoseNotReserved := by
  unfold Obligations.LegalWordsAreThoseNotReserved
  intro w
  calc (∃ i, decode w = .ok i)
      _ ↔ rsvField w = 0 ∧ (opcodeTable.lookup (opcField w)).isSome = true := by
        simp only [decode_eq_ok, exists_and_left, Option.isSome_iff_exists]
      _ ↔ wellFormedWord w = true := by
        rw [lookup_isSome_eq_assigned, wellFormedWord, Bool.and_eq_true, reservedClear, beq_iff_eq]

/-- R52: a word called illegal does not decode. -/
theorem exists_decode_error {w : Word32} (h : wellFormedWord w = false) : ∃ e, decode w = .error e := by
  cases hd : decode w with
  | error e => exact ⟨e, rfl⟩
  | ok i => exact absurd ((legalWordsAreThoseNotReserved w).mp ⟨i, hd⟩) (by simp [h])

/-- Settles O3: a legal word is a command's own word; the two illegal words are looked up. -/
theorem sampleWordsDecodeAsListed : Obligations.SampleWordsDecodeAsListed := by
  unfold Obligations.SampleWordsDecodeAsListed
  exact ⟨decode_encode .bvFromStr, decode_encode .frmUnpack, decode_encode .tblSave, decode_encode .fwDecode,
    decode_encode .hufDecode, decode_encode .lzwEncode, by decide, by decide⟩

end Sys2Proof

namespace Sys2Proof.Machine

variable {s : State} {rest : List HostAction}

/-! ### A write of `CMD` (R19) -/

/-- A write of `CMD` runs the word. -/
theorem step_of_write_cmd {w : Word32} (h : s.pending = .write 0x00 (.word w) :: rest) :
    step s = runCommand exec w (s.takeAction rest) := step_of_pending h

/-- Settles O4: the step runs the word, and the word decodes. -/
theorem stepRunsTheDecodedCommand : Obligations.StepRunsTheDecodedCommand := by
  unfold Obligations.StepRunsTheDecodedCommand
  intro s w rest i h hd
  rw [step_of_write_cmd h, runCommand_ok hd]
  rfl

/-- Settles O5: the step runs the word, which does not decode and so raises IllegalCommand. -/
theorem illegalWordOnlyWritesStatus : Obligations.IllegalWordOnlyWritesStatus := by
  unfold Obligations.IllegalWordOnlyWritesStatus
  intro s w rest h hw
  obtain ⟨e, he⟩ := exists_decode_error hw
  rw [step_of_write_cmd h, runCommand_error he]
  rfl

/-! ### Other writes (R20, R22, R23) -/

/-- A write of a register other than `CMD` is `hostSet`. -/
theorem carryOutWrite_of_hostSet {id : RegId} {r : RegName} {v : RegValue} {s t : State}
    (hid : RegName.ofId id = some r) (hr : r ≠ .cmd) (ht : s.hostSet r v = some t) :
    carryOutWrite exec id v s = .next t := by
  rw [carryOutWrite, hid]
  cases r with
  | cmd => exact absurd rfl hr
  | status | aSize | aInt | aStr | aBits | aBytes | aText | bv | tbl | rInt | rBits | rBytes | rText | rStr =>
    dsimp only
    rw [ht]

theorem step_of_write_register {id : RegId} {r : RegName} {v : RegValue} {t : State}
    (h : s.pending = .write id v :: rest) (hid : RegName.ofId id = some r) (hr : r ≠ .cmd)
    (ht : (s.takeAction rest).hostSet r v = some t) : step s = .next t := by
  rw [step_of_pending h]
  exact carryOutWrite_of_hostSet hid hr ht

/-- The ids that R20 and R23 leave to the core: `STATUS`, the result registers, and the ids that name no register. -/
theorem not_hostWritable_of_ofId {id : RegId} {r : RegName} (hid : id = 0x01 ∨ 0x08 ≤ id.toNat)
    (hr : RegName.ofId id = some r) : hostWritable r = false := by
  obtain rfl := ofId_eq_some id r hr
  cases r with
  | status | bv | tbl | rInt | rBits | rBytes | rText | rStr => rfl
  | cmd | aSize | aInt | aStr | aBits | aBytes | aText => exact absurd hid (by decide)

/-- R20, R23: such a register ignores a write, whatever the value. -/
theorem hostSet_of_not_hostWritable {r : RegName} (hr : hostWritable r = false) (s : State) (v : RegValue) :
    s.hostSet r v = some s := by
  cases r with
  | status | bv | tbl | rInt | rBits | rBytes | rText | rStr => rfl
  | cmd | aSize | aInt | aStr | aBits | aBytes | aText => cases hr

theorem step_of_ignored_write {id : RegId} {v : RegValue} (h : s.pending = .write id v :: rest)
    (hid : id = 0x01 ∨ 0x08 ≤ id.toNat) : step s = .next (s.takeAction rest) := by
  cases hr : RegName.ofId id with
  | none => rw [step_of_pending h, carryOut, carryOutWrite, hr]
  | some r =>
    have hnot := not_hostWritable_of_ofId hid hr
    exact step_of_write_register h hr (by rintro rfl; cases hnot) (hostSet_of_not_hostWritable hnot _ v)

/-- Settles O7: the id names an operand register, which takes the value, or one that ignores the write. -/
theorem hostWriteSetsOperandOrIsIgnored : Obligations.HostWriteSetsOperandOrIsIgnored := by
  unfold Obligations.HostWriteSetsOperandOrIsIgnored
  rintro s id v rest _ h rfl
  refine ⟨?_, ?_, ?_, ?_, ?_, ?_, step_of_ignored_write h⟩ <;> rintro x rfl rfl <;>
    exact step_of_write_register h rfl nofun rfl

/-! ### Reads and reset (R24, R154) -/

theorem step_of_read {id : RegId} (h : s.pending = .read id :: rest) :
    step s = .next ((s.takeAction rest).hostRead id) := step_of_pending h

/-- R21, R24: the value of the register an id names. -/
theorem State.readId_id (s : State) (r : RegName) : s.readId r.id = s.read r := by
  cases r <;> rfl

/-- Settles O8: the read returns `readId`, which at a register's id is that register. -/
theorem hostReadReturnsTheRegister : Obligations.HostReadReturnsTheRegister := by
  unfold Obligations.HostReadReturnsTheRegister
  intro s id rest h
  have named (r : RegName) (hid : id = r.id) : (s.takeAction rest).readId id = s.read r := by
    rw [hid, State.readId_id]
    cases r <;> rfl
  exact ⟨_, step_of_read h, named .cmd, named .status, named .aSize, named .aInt, named .aStr, named .aBits,
    named .aBytes, named .aText, named .bv, named .tbl, named .rInt, named .rBits, named .rBytes, named .rText,
    named .rStr⟩

/-- Settles O9: the reset event clears the registers of the state the action was taken from. -/
theorem resetEventClearsEveryRegister : Obligations.ResetEventClearsEveryRegister := by
  unfold Obligations.ResetEventClearsEveryRegister
  intro s rest h
  exact step_of_pending h

end Sys2Proof.Machine
end

section
/-! Commands as a whole (spec 60_exceptions.md R131, R140 to R144): what a command that completes writes, which errors it
can report, and what its outcome depends on. -/

namespace Sys2Proof.Machine

variable {CHAR : Type}

/-! ### What a command reports (R140, R141) -/

theorem State.errField_raise (s : State CHAR) (e : ErrorCode) : errField (s.raise e).status = e.code :=
  errField_statusWord _ _

theorem State.errField_succeed (s : State CHAR) (out : Results CHAR) : errField (s.succeed out).status = 0 :=
  errField_statusWord _ _

theorem State.errField_raise_ne_zero (s : State CHAR) (e : ErrorCode) : errField (s.raise e).status ≠ 0 :=
  s.errField_raise e ▸ e.code_ne_zero

/-! ### Completed commands (R141) -/

/-- Only a success leaves 0 in `ERR`: an error's code is not 0. -/
theorem exec_commits_of_errField_eq_zero {i : Instr} {s t : State} (h : exec i s = .next t)
    (herr : errField t.status = 0) :
    ∃ out, resultOf charSet s i = .ok out ∧ ResultsInBounds s out ∧ t = s.succeed out := by
  obtain ⟨-, ⟨e, -, rfl⟩ | hcommitted⟩ := exec_next h
  · exact absurd herr (s.errField_raise_ne_zero e)
  · exact hcommitted

/-- `STATUS` is no result register (R51). -/
theorem ne_status_of_staged {out : Results CHAR} {r : RegName} (h : (staged out r).isSome = true) : r ≠ .status := by
  rintro rfl
  cases h

/-- A staged register holds its staged value after a success. -/
theorem read_succeed_of_staged (s : State CHAR) {out : Results CHAR} {r : RegName} (h : (staged out r).isSome = true) :
    (s.succeed out).read r = staged out r := by
  rw [read_succeed s out (ne_status_of_staged h), Option.or_of_isSome h]

/-- A register for which nothing is staged keeps its value. -/
theorem read_succeed_of_not_staged (s : State CHAR) {out : Results CHAR} {r : RegName} (hr : r ≠ .status)
    (h : ¬ (staged out r).isSome = true) : (s.succeed out).read r = s.read r := by
  rw [read_succeed s out hr, Option.not_isSome_iff_eq_none.mp h, Option.none_or]

/-- Settles O14: the registers of the row are those for which a value is staged, and only these and `STATUS` change. -/
theorem successChangesOnlyItsResults : Obligations.SuccessChangesOnlyItsResults := by
  unfold Obligations.SuccessChangesOnlyItsResults
  intro i s t h herr
  obtain ⟨out, hout, -, rfl⟩ := exec_commits_of_errField_eq_zero h herr
  have hrow := resultOf_staged hout
  refine ⟨rfl, fun r hr => ?written, fun r hr hne => ?kept, rfl, rfl, rfl, rfl⟩
  case written =>
    have hset := (hrow r).mpr hr
    rwa [read_succeed_of_staged s hset]
  case kept => exact read_succeed_of_not_staged s hne (mt (hrow r).mp hr)

/-! ### The errors of a command (R131) -/

/-- Settles O16: a success reports 0, and an error the command computes is in its list. -/
theorem commandsRaiseOnlyTheirErrors : Obligations.CommandsRaiseOnlyTheirErrors := by
  unfold Obligations.CommandsRaiseOnlyTheirErrors
  intro i s t h
  obtain ⟨-, ⟨e, hraised, rfl⟩ | ⟨out, -, -, rfl⟩⟩ := exec_next h
  · exact .inr ⟨e, resultOf_error hraised, s.errField_raise e⟩
  · exact .inl (s.errField_succeed out)

/-! ### What an outcome depends on (R43, R144) -/

/-- R7: the tie key is fixed by the configuration and, under `Oracle`, by the draw's number. -/
theorem State.tieKey_congr {s t : State CHAR} (hp : s.params = t.params)
    (hdraw : s.params.tieOrder = .oracle → s.hostActs = t.hostActs) : s.tieKey = t.tieKey := by
  rw [State.tieKey, State.tieKey, ← hp]
  cases htie : s.params.tieOrder with
  | firstOccurrence => rfl
  | oracle => rw [hdraw htie]

theorem OperandsInBounds.congr {i : Instr} {s t : State CHAR} (hs : OperandsInBounds i s)
    (hreads : ∀ r ∈ readsOf i, s.read r = t.read r) (hp : s.params = t.params) : OperandsInBounds i t := by
  rw [operandsInBounds_iff] at hs ⊢
  intro r hr v hv
  exact hp ▸ hs r hr v (hreads r hr ▸ hv)

/-- Settles O17: the two states compute the same, so both raise one error or both commit the same results. -/
theorem resultsDependOnlyOnOperands : Obligations.ResultsDependOnlyOnOperands := by
  unfold Obligations.ResultsDependOnlyOnOperands
  intro i s₁ s₂ t₁ hreads hp hdraw h
  have hsame : resultOf charSet s₁ i = resultOf charSet s₂ i := resultOf_congr hreads (State.tieKey_congr hp hdraw)
  obtain ⟨hin, hcase⟩ := exec_next h
  have hin₂ := hin.congr hreads hp
  obtain ⟨e, hraised, rfl⟩ | ⟨out, hout, hfit, rfl⟩ := hcase
  · exact ⟨s₂.raise e, exec_fails hin₂ (hsame ▸ hraised), (s₁.errField_raise e).trans (s₂.errField_raise e).symm,
      fun herr => absurd herr (s₁.errField_raise_ne_zero e)⟩
  · have hfit₂ : ResultsInBounds s₂ out := by rwa [ResultsInBounds, ← hp]
    refine ⟨s₂.succeed out, exec_succeeds hin₂ (hsame ▸ hout) hfit₂,
      (s₁.errField_succeed out).trans (s₂.errField_succeed out).symm, fun _ r hr => ?_⟩
    have hset := (resultOf_staged hout r).mpr hr
    rw [read_succeed_of_staged s₁ hset, read_succeed_of_staged s₂ hset]

end Sys2Proof.Machine
end

section
/-! The configuration (spec 00_scope.md R7, R8; 70_reset_and_hazards.md R156): no step changes it; without bounds no action
of the host stops; and what finite bounds refuse. -/

namespace Sys2Proof.Machine

variable {CHAR : Type}

/-! ### The configuration is fixed (R156) -/

theorem params_of_exec {i : Instr} {s t : State} (h : exec i s = .next t) : t.params = s.params := by
  obtain ⟨-, ⟨e, -, rfl⟩ | ⟨out, -, -, rfl⟩⟩ := exec_next h <;> rfl

theorem params_of_hostSet {s t : State} {r : RegName} {v : RegValue} (h : s.hostSet r v = some t) :
    t.params = s.params := by
  obtain rfl | ⟨_, rfl⟩ | ⟨_, rfl⟩ | ⟨_, rfl⟩ | ⟨_, rfl⟩ | ⟨_, rfl⟩ | ⟨_, rfl⟩ := hostSet_some h <;> rfl

/-- Settles O19, by what a step can do. -/
theorem configurationIsFixed : Obligations.ConfigurationIsFixed := by
  unfold Obligations.ConfigurationIsFixed
  intro s t h
  obtain ⟨-, rfl⟩ | ⟨a, rest, -, haction⟩ := step_next h
  · rfl
  obtain ⟨w, i, -, hexec⟩ | ⟨w, rfl⟩ | ⟨regId, v, r, -, hwrite⟩ | rfl | ⟨regId, rfl⟩ | ⟨-, rfl⟩ := haction
  · exact (params_of_exec hexec).trans rfl
  · rfl
  · exact (params_of_hostSet hwrite).trans rfl
  · rfl
  · rfl
  · rfl

/-! ### Without bounds (R8) -/

theorem operandsInBounds_of_unbounded {s : State CHAR} (h : s.params.Unbounded) (i : Instr) : OperandsInBounds i s :=
  operandsInBounds_iff.mpr fun _ _ v _ => valueFits_unbounded h v

theorem resultsInBounds_of_unbounded {s : State CHAR} (h : s.params.Unbounded) (out : Results CHAR) :
    ResultsInBounds s out :=
  resultsFit_iff.mpr fun _ v _ => valueFits_unbounded h v

/-- R50: without bounds every command has an outcome. -/
theorem exec_of_unbounded {s : State} (h : s.params.Unbounded) (i : Instr) : ∃ t, exec i s = .next t := by
  have hs := operandsInBounds_of_unbounded h i
  cases hr : resultOf charSet s i with
  | error e => exact ⟨_, exec_fails hs hr⟩
  | ok out => exact ⟨_, exec_succeeds hs hr (resultsInBounds_of_unbounded h out)⟩

/-- R50: without bounds every command word, legal or not, has an outcome. -/
theorem runCommand_of_unbounded {s : State} (h : s.params.Unbounded) (w : Word32) :
    ∃ t, runCommand exec w s = .next t := by
  cases hd : decode w with
  | error e => exact ⟨_, runCommand_error hd s⟩
  | ok i =>
    rw [runCommand_ok hd]
    exact exec_of_unbounded (s := s.setCmd w) h i

/-- R19: a value of the type of `CMD` is a word. -/
theorem exists_word_of_hasRegType {v : RegValue CHAR} (h : hasRegType .cmd v = true) : ∃ w, valueAsWord v = some w := by
  match v, h with
  | .word w, _ => exact ⟨w, rfl⟩

/-- R22: a host write of a value of the register's type is carried out; R23: so is an ignored one of any value. -/
theorem exists_hostSet {r : RegName} {v : RegValue CHAR} (h : hostWritable r = false ∨ hasRegType r v = true)
    (s : State CHAR) : ∃ t, s.hostSet r v = some t := by
  cases r with
  | cmd | status | bv | tbl | rInt | rBits | rBytes | rText | rStr => exact ⟨s, rfl⟩
  | aSize | aInt =>
    match v, h.resolve_left nofun with
    | .nat n, _ => exact ⟨_, rfl⟩
  | aStr | aText =>
    match v, h.resolve_left nofun with
    | .text t, _ => exact ⟨_, rfl⟩
  | aBits =>
    match v, h.resolve_left nofun with
    | .bits b, _ => exact ⟨_, rfl⟩
  | aBytes =>
    match v, h.resolve_left nofun with
    | .bytes b, _ => exact ⟨_, rfl⟩

theorem carryOut_of_unbounded {s : State} (h : s.params.Unbounded) {a : HostAction} (ha : actionWellTyped a = true) :
    ∃ t, carryOut exec a s = .next t := by
  cases a with
  | read id => exact ⟨_, rfl⟩
  | reset => exact ⟨_, rfl⟩
  | write id v =>
    rw [carryOut]
    rw [actionWellTyped] at ha
    cases hr : RegName.ofId id with
    | none => exact ⟨s, by rw [carryOutWrite, hr]⟩
    | some r =>
      simp only [hr, Bool.or_eq_true, Bool.not_eq_true'] at ha
      by_cases hcmd : r = .cmd
      · subst hcmd
        obtain ⟨w, hw⟩ := exists_word_of_hasRegType (ha.resolve_left nofun)
        simpa only [carryOutWrite, hr, hw] using runCommand_of_unbounded h w
      · obtain ⟨t, ht⟩ := exists_hostSet ha s
        exact ⟨t, carryOutWrite_of_hostSet hr hcmd ht⟩

/-- Settles O20: the core is idle, or carries the action out. -/
theorem unboundedInstanceAlwaysSteps : Obligations.UnboundedInstanceAlwaysSteps := by
  unfold Obligations.UnboundedInstanceAlwaysSteps
  intro s hs htyped
  rw [StepsOn]
  cases hp : s.pending with
  | nil => exact ⟨s, idleCoreKeepsEveryRegister s hp⟩
  | cons a rest =>
    rw [step_of_pending hp]
    exact carryOut_of_unbounded (s := s.takeAction rest) hs (htyped a (by rw [hp]; rfl))

/-! ### With bounds (R8) -/

theorem exec_refuses_of_operands {i : Instr} {s : State} (h : ¬ OperandsInBounds i s) :
    exec i s = .refused .exceedsBounds :=
  (exec_next_or_refused i s).resolve_right fun ⟨_, ht⟩ => h (exec_next ht).1

/-- A command that computes results beyond the bounds is refused. -/
theorem exec_refuses_of_results {i : Instr} {s : State} {out : Results} (hr : resultOf charSet s i = .ok out)
    (h : ¬ ResultsInBounds s out) : exec i s = .refused .exceedsBounds := by
  refine (exec_next_or_refused i s).resolve_right fun ⟨_, ht⟩ => ?_
  obtain ⟨-, ⟨e, he, -⟩ | ⟨out', hout, hfit, -⟩⟩ := exec_next ht
  · cases hr.symm.trans he
  · obtain rfl := Except.ok.inj (hr.symm.trans hout)
    exact h hfit

/-- The results are within the bounds exactly if the registers the command writes are, once they are written. -/
theorem resultsInBounds_iff_read [DecidableEq CHAR] {C : CharSet CHAR} {i : Instr} {s u : State CHAR} {out : Results CHAR}
    (hr : resultOf C u i = .ok out) :
    ResultsInBounds s out ↔ ∀ r ∈ writesOf i, ∀ v, (u.succeed out).read r = some v → valueFits s.params v = true := by
  rw [ResultsInBounds, resultsFit_iff]
  refine forall_congr' fun r => ⟨fun hfit hrow v hv => ?_, fun hfit v hv => ?_⟩
  · exact hfit v (read_succeed_of_staged u ((resultOf_staged hr r).mpr hrow) ▸ hv)
  · have hset : (staged out r).isSome = true := by rw [hv]; rfl
    exact hfit ((resultOf_staged hr r).mp hset) v (by rw [read_succeed_of_staged u hset, hv])

/-- The state with its bounds lifted. -/
def State.withoutBounds (s : State CHAR) : State CHAR := { s with params := { s.params with maxSeq := none, maxNat := none } }

/-- What a command computes does not depend on the bounds. -/
theorem resultOf_withoutBounds [DecidableEq CHAR] (C : CharSet CHAR) (s : State CHAR) (i : Instr) :
    resultOf C s.withoutBounds i = resultOf C s i :=
  resultOf_congr (fun r _ => by cases r <;> rfl) rfl

theorem natFits_iff {p : Params} {n : Nat} : natFits p n = true ↔ ∀ m, p.maxNat = some m → n ≤ m := by
  simp [natFits, Option.all_eq_true]

theorem seqFits_iff {p : Params} {n : Nat} : seqFits p n = true ↔ ∀ m, p.maxSeq = some m → n ≤ m := by
  simp [seqFits, Option.all_eq_true]

/-- Settles O21: a command is refused for its operands or for what it computes, and without bounds it computes the same. -/
theorem boundedInstanceRefusesBeyondBounds : Obligations.BoundedInstanceRefusesBeyondBounds := by
  unfold Obligations.BoundedInstanceRefusesBeyondBounds
  intro i s
  refine ⟨exec_next_or_refused i s, ?operands, ?results, ?unbounded, fun _ => natFits_iff, fun _ => seqFits_iff,
    fun _ => seqFits_iff, fun _ => seqFits_iff⟩
  case operands =>
    rintro ⟨r, hr, v, hv, hbeyond⟩
    refine exec_refuses_of_operands fun hs => ?_
    rw [operandsInBounds_iff.mp hs r hr v hv] at hbeyond
    cases hbeyond
  case results =>
    intro t h herr
    obtain ⟨out, hout, hfit, rfl⟩ := exec_commits_of_errField_eq_zero h herr
    exact (resultsInBounds_iff_read hout).mp hfit
  case unbounded =>
    rintro hs _ t rfl h
    have hsame := resultOf_withoutBounds charSet s i
    obtain ⟨-, ⟨e, hraised, rfl⟩ | ⟨out, hout, -, rfl⟩⟩ := exec_next (s := s.withoutBounds) h
    · exact ⟨fun herr => absurd herr (State.errField_raise_ne_zero _ e), fun _ => exec_fails hs (hsame ▸ hraised)⟩
    · have hbounds := resultsInBounds_iff_read (s := s) hout
      refine ⟨fun _ hbeyond => ?_, fun hor => ?_⟩
      · refine exec_refuses_of_results (hsame ▸ hout) fun hfit => ?_
        obtain ⟨r, hr, v, hv, hv'⟩ := hbeyond
        rw [hbounds.mp hfit r hr v hv] at hv'
        cases hv'
      · have hwithin := hor.resolve_left (not_not.mpr (State.errField_succeed _ out))
        exact exec_succeeds hs (hsame ▸ hout) (hbounds.mpr hwithin)

end Sys2Proof.Machine
end

section
/-! The numeric primitives (spec 00_scope.md R12): values as sums, the shortest numerals, and decimal numerals. -/

namespace Sys2Proof.Machine

variable {CHAR : Type}

/-! ### Bit-strings and their values -/

/-- R12: the value is the sum of the powers of two at the positions of the ones, the first bit's the highest. -/
theorem val_eq_sum (s : Bits) :
    val s = ∑ i ∈ Finset.range s.length, (if s[i]? = some true then 2 ^ (s.length - 1 - i) else 0) := by
  induction s with
  | nil => rfl
  | cons b s ih =>
    have htail (i : Nat) : (b :: s).length - 1 - (i + 1) = s.length - 1 - i := by rw [List.length_cons]; omega
    rw [List.length_cons, Finset.sum_range_succ', val_cons, ih, Nat.add_comm]
    simp only [List.getElem?_cons_succ, ← List.length_cons (a := b), htail]
    cases b <;> simp

/-- R12: the numeral of a positive number has no leading zero. -/
theorem head?_bin {v : Nat} (hv : 1 ≤ v) : (bin v).head? = some true := by
  have hlen : bitLength v = Nat.log2 v + 1 := if_neg (by omega)
  rw [bin, hlen, bitsOf, List.head?_cons, Nat.testBit_log2 (by omega)]

/-- R12: no bit-string with that value is shorter. -/
theorem length_bin_le {v : Nat} (hv : 1 ≤ v) {s : Bits} (hs : val s = v) : (bin v).length ≤ s.length := by
  have hne : s ≠ [] := by
    rintro rfl
    rw [val_nil] at hs
    omega
  rw [length_bin]
  exact bitLength_le (List.length_pos_iff.mpr hne) (hs ▸ val_lt s)

theorem bitLength_eq_max (v : Nat) : bitLength v = max 1 (Nat.log 2 v + 1) := by
  rw [bitLength, Nat.log2_eq_log_two]
  split
  next h => rw [h, Nat.log_zero_right]; rfl
  next => omega

/-! ### Decimal numerals -/

theorem head?_dec [DecidableEq CHAR] (C : CharSet CHAR) {v : Nat} (hv : v ≠ 0) : (dec C v).head? ≠ some (C.digit 0) :=
  (decDigits_facts (Nat.lt_succ_self v)).2.2.2 hv

/-- A number below ten is its digit. -/
theorem dec_digit (C : CharSet CHAR) (d : Fin 10) : dec C d = [C.digit d] := by
  rw [dec, decDigits, if_pos d.isLt, Fin.ofNat_val_eq_self]

/-- Settles O22, primitive by primitive. -/
theorem numeralPrimitivesAreExact : Obligations.NumeralPrimitivesAreExact := by
  unfold Obligations.NumeralPrimitivesAreExact
  refine ⟨val_eq_sum, fun v hv => ⟨val_bin v, head?_bin hv, fun _ => length_bin_le hv⟩, rfl,
    fun v => (length_bin v).trans (bitLength_eq_max v), fun n s => ⟨fun _ => rfl, pad_of_length_le⟩,
    fun n _ => ⟨le_two_pow_ceilLog2 n, fun _ => ceilLog2_le_iff.mpr⟩, rfl,
    fun CHAR _ C => ⟨fun v => ⟨decValue_dec v, all_isDecDigit_dec v, head?_dec C⟩, dec_digit C,
      fun _ => isDecDigit_iff⟩, by decide⟩

end Sys2Proof.Machine
end

section
/-! Framing and unframing (spec 41_byteframer.md R82, R83). -/

namespace Sys2Proof.Machine

/-- The frame of whole bytes has tail length 0 and those bytes. -/
theorem pack_of_no_tail {b : Bits} (h : b.length % 8 = 0) : pack b = 0 :: fullBytes (b.length / 8) b := by
  rw [pack_eq, h, if_neg (by omega), List.append_nil]
  rfl

/-- The frame of a payload with a tail ends in the tail's byte. -/
theorem pack_of_tail {b : Bits} (h : 1 ≤ b.length % 8) : pack b = BitVec.ofNat 8 (b.length % 8) ::
    (fullBytes (b.length / 8) b ++ [byteOfGroup (b.length % 8) (b.drop (8 * (b.length / 8)))]) := by
  rw [pack_eq, if_pos (by omega)]

/-- R82: unframing a frame gives the payload back. -/
theorem unpack_pack (b : Bits) : unpack (pack b) = .ok b := by
  have hfull : (fullBytes (b.length / 8) b).flatMap (byteBits 8) = b.take (8 * (b.length / 8)) :=
    flatMap_fullBytes (by omega)
  by_cases h0 : b.length % 8 = 0
  · rw [pack_of_no_tail h0, unpack_no_tail rfl, hfull, List.take_of_length_le (by omega)]
  · have htail := toNat_tailByte b.length
    have hrest : (b.drop (8 * (b.length / 8))).length = b.length % 8 := by rw [List.length_drop]; omega
    rw [pack_of_tail (by omega), unpack_tail (by omega) (by omega), hfull, htail,
      byteBits_byteOfGroup (by omega) (by omega) hrest, List.take_append_drop]

/-- R83: whole bytes, framed again. -/
theorem pack_flatMap_byteBits (body : Bytes) : pack (body.flatMap (byteBits 8)) = 0 :: body := by
  have hlen := length_flatMap_byteBits body
  have hbytes := fullBytes_flatMap body []
  rw [List.append_nil] at hbytes
  rw [pack_of_no_tail (by omega), hlen, Nat.mul_div_cancel_left _ (by norm_num), hbytes]

/-- R83: whole bytes and a final byte with no bit above the tail, framed again. -/
theorem pack_flatMap_append_byteBits {tail last : Byte} (h1 : 1 ≤ tail.toNat) (h7 : tail.toNat ≤ 7) (body : Bytes)
    (hclean : last.toNat < 2 ^ tail.toNat) :
    pack (body.flatMap (byteBits 8) ++ byteBits tail.toNat last) = tail :: (body ++ [last]) := by
  have hlen := length_flatMap_byteBits body
  have hlast : (byteBits tail.toNat last).length = tail.toNat := by
    rw [byteBits_eq_bitsOf h1 hclean, length_bitsOf]
  have hmod : (body.flatMap (byteBits 8) ++ byteBits tail.toNat last).length % 8 = tail.toNat := by
    rw [List.length_append]; omega
  have hdiv : (body.flatMap (byteBits 8) ++ byteBits tail.toNat last).length / 8 = body.length := by
    rw [List.length_append]; omega
  rw [pack_of_tail (by omega), hmod, hdiv, fullBytes_flatMap, List.drop_left' hlen, byteOfGroup_byteBits,
    BitVec.ofNat_toNat, BitVec.setWidth_eq]

/-- R83: a final byte with a bit above the tail is rendered longer than the tail, and no frame with that tail has such a
payload: framing again keeps the tail length and the number of bytes only if the payload has as many bits. -/
theorem length_of_pack_eq {b : Bits} {tail last : Byte} {body : Bytes} (h1 : 1 ≤ tail.toNat)
    (h : pack b = tail :: (body ++ [last])) : b.length = 8 * body.length + tail.toNat := by
  have hhead : BitVec.ofNat 8 (b.length % 8) = tail := (List.cons.inj (pack_eq b ▸ h)).1
  have htail : b.length % 8 = tail.toNat := by rw [← hhead, toNat_tailByte]
  have hlen := congrArg List.length h
  rw [length_pack, if_pos (by omega)] at hlen
  simp only [List.length_cons, List.length_append, List.length_nil] at hlen
  omega

/-- Settles O31: R82 is `unpack_pack`; R83 goes by the two shapes of a well-formed frame. -/
theorem packAndUnpackAreInverse : Obligations.PackAndUnpackAreInverse := by
  unfold Obligations.PackAndUnpackAreInverse
  refine ⟨unpack_pack, fun f hf => ?_⟩
  obtain ⟨tail, body, rfl, h0⟩ | ⟨tail, body, last, rfl, h1, h7⟩ := wellFormedFrame_cases hf
  · obtain rfl : tail = 0 := BitVec.eq_of_toNat_eq h0
    exact ⟨_, unpack_no_tail h0 body, fun _ => pack_flatMap_byteBits body, fun hpos => absurd hpos (lt_irrefl 0)⟩
  · have hlast : (tail :: (body ++ [last])).getLastD 0 = last := by
      rw [← List.cons_append, List.getLastD_concat]
    refine ⟨_, unpack_tail h1 h7 body last, fun hclean => ?clean, fun _ hhigh heq => ?high⟩
    case clean => exact pack_flatMap_append_byteBits h1 h7 body (hlast ▸ hclean h1)
    case high =>
      have hlen := length_of_pack_eq h1 heq
      rw [List.length_append, length_flatMap_byteBits, length_byteBits] at hlen
      have hfits : last.toNat < 2 ^ tail.toNat :=
        (lt_two_pow_bitLength _).trans_le (Nat.pow_le_pow_right (by norm_num) (by omega))
      rw [hlast, List.headD_cons] at hhigh
      omega

end Sys2Proof.Machine
end

section
/-! The views of a table (spec 42_codetable.md R84 to R86; 45_lzw.md R117): the inverse views meet the last entry first. -/

namespace Sys2Proof.Machine

variable {CHAR : Type}

/-- The first match of a list read backwards is its last match. -/
theorem find?_reverse_eq_some_iff {α : Type} {p : α → Bool} {l : List α} {a : α} :
    l.reverse.find? p = some a ↔ ∃ before after, l = before ++ a :: after ∧ p a = true ∧ ∀ e ∈ after, p e = false := by
  rw [List.find?_eq_some_iff_append]
  constructor
  · rintro ⟨ha, as, bs, hl, hbefore⟩
    refine ⟨bs.reverse, as.reverse, ?_, ha, fun e he => ?_⟩
    · rw [← List.reverse_reverse l, hl]
      simp
    · simpa using hbefore e (List.mem_reverse.mp he)
  · rintro ⟨before, after, rfl, ha, hafter⟩
    refine ⟨ha, after.reverse, before.reverse, by simp, fun e he => ?_⟩
    simpa using hafter e (List.mem_reverse.mp he)

/-- A lookup finds the first pair with its key. -/
theorem lookup_eq_map_find? {α β : Type} [BEq α] [LawfulBEq α] (l : List (α × β)) (k : α) :
    l.lookup k = (l.find? fun e => e.1 == k).map (·.2) := by
  induction l with
  | nil => rfl
  | cons e l ih =>
    obtain ⟨a, b⟩ := e
    by_cases hk : k = a
    · subst hk
      simp
    · rw [lookup_cons_of_ne hk, ih, List.find?_cons_of_neg (by simpa using Ne.symm hk)]

/-- R85: a later entry replaces an earlier one with the same rendering. -/
theorem invBits_eq_some_iff {t : CodeTable CHAR} {b : Bits} {c : CHAR} : invBits t b = some c ↔
    ∃ (before : List (CHAR × BitVector)) (x : BitVector) (after : List (CHAR × BitVector)),
      t.entries = before ++ (c, x) :: after ∧ x.rep = b ∧ ∀ e ∈ after, e.2.rep ≠ b := by
  simp only [invBits, Option.map_eq_some_iff, find?_reverse_eq_some_iff, beq_iff_eq, beq_eq_false_iff_ne]
  constructor
  · rintro ⟨⟨_, x⟩, ⟨before, after, hl, hx, hafter⟩, rfl⟩
    exact ⟨before, x, after, hl, hx, hafter⟩
  · rintro ⟨before, x, after, hl, hx, hafter⟩
    exact ⟨(c, x), ⟨before, after, hl, hx, hafter⟩, rfl⟩

/-- R86: the lookup of a number is the search for the last entry with that value. -/
theorem lookup_invNum (t : CodeTable CHAR) (k : Nat) :
    (invNum t).lookup k = (t.entries.reverse.find? fun e => val e.2.rep == k).map fun e => [e.1] := by
  rw [lookup_eq_map_find?, invNum, ← List.map_reverse, List.find?_map, Option.map_map]
  rfl

/-- R86: a later entry replaces an earlier one of the same value. -/
theorem lookup_invNum_eq_some_iff {t : CodeTable CHAR} {k : Nat} {o : Text CHAR} : (invNum t).lookup k = some o ↔
    ∃ (before : List (CHAR × BitVector)) (c : CHAR) (x : BitVector) (after : List (CHAR × BitVector)),
      t.entries = before ++ (c, x) :: after ∧ o = [c] ∧ val x.rep = k ∧ ∀ e ∈ after, val e.2.rep ≠ k := by
  simp only [lookup_invNum, Option.map_eq_some_iff, find?_reverse_eq_some_iff, beq_iff_eq, beq_eq_false_iff_ne]
  constructor
  · rintro ⟨⟨c, x⟩, ⟨before, after, hl, hx, hafter⟩, rfl⟩
    exact ⟨before, c, x, after, hl, rfl, hx, hafter⟩
  · rintro ⟨before, c, x, after, hl, rfl, hx, hafter⟩
    exact ⟨(c, x), ⟨before, after, hl, hx, hafter⟩, rfl⟩

/-- R117: the seed's one-character texts are bound to their codes' values. -/
theorem lookup_seedDict_singleton [DecidableEq CHAR] (t : CodeTable CHAR) (c : CHAR) :
    (seedDict t).lookup [c] = (code t c).map fun x => val x.rep := by
  rw [seedDict, code]
  induction t.entries with
  | nil => rfl
  | cons e l ih =>
    obtain ⟨d, x⟩ := e
    rw [List.map_cons]
    by_cases hc : c = d
    · subst hc
      rw [lookup_cons_self, lookup_cons_self]
      rfl
    · rw [lookup_cons_of_ne (by simpa using hc), lookup_cons_of_ne hc]
      exact ih

/-- Settles O32, view by view. -/
theorem inverseViewsKeepTheLaterEntry : Obligations.InverseViewsKeepTheLaterEntry := by
  unfold Obligations.InverseViewsKeepTheLaterEntry
  exact fun CHAR _ t => ⟨fun hn _ _ => code_eq_some_iff hn, fun _ => hasSymbol_iff, fun _ _ => invBits_eq_some_iff,
    fun _ _ => lookup_invNum_eq_some_iff, lookup_seedDict_singleton t, fun _ => seedDict_lookup_eq_none⟩

end Sys2Proof.Machine
end

section
/-! The order of the frequency list (spec 42_codetable.md R93; 00_scope.md R7). -/

namespace Sys2Proof.Machine

variable {CHAR : Type} [DecidableEq CHAR]

/-- Settles O34: with all keys equal the sort keeps the scan's own order among equal counts. -/
theorem firstOccurrenceOrderIsStable : Obligations.FirstOccurrenceOrderIsStable := by
  unfold Obligations.FirstOccurrenceOrderIsStable
  exact ⟨fun _ => State.tieKey_of_firstOccurrence,
    fun CHAR _ text => ⟨sortedFreq_perm _ text, sortFreq_stable (pairwise_freqScan text)⟩⟩

theorem sortedFreq_descending (key : CHAR → Nat) (text : Text CHAR) :
    (sortedFreq key text).Pairwise fun x y => y.2 ≤ x.2 := by
  refine (sortFreq_sorted key (freqScan text)).imp fun h => ?_
  rw [freqBefore_iff] at h
  omega

/-- The tie key that gives a wanted order: a symbol's rank is its place in that order. -/
def rankIn (l : List (CHAR × Nat)) (c : CHAR) : Nat := (l.map (·.1)).idxOf c

/-- The places of distinct symbols ascend. -/
theorem pairwise_rankIn {l : List (CHAR × Nat)} (h : (l.map (·.1)).Nodup) :
    l.Pairwise fun x y => rankIn l x.1 < rankIn l y.1 := by
  rw [List.pairwise_iff_getElem]
  intro i j hi hj hij
  have hrank (k : Nat) (hk : k < l.length) : rankIn l l[k].1 = k := by
    have := h.idxOf_getElem k (by simpa using hk)
    rwa [List.getElem_map] at this
  rw [hrank i hi, hrank j hj]
  exact hij

/-- R93: a list by descending count with distinct symbols is what its own ranks sort it to, from any order. -/
theorem sortFreq_rankIn {l m : List (CHAR × Nat)} (hp : l.Perm m) (hn : (l.map (·.1)).Nodup)
    (hd : l.Pairwise fun x y => y.2 ≤ x.2) : sortFreq (rankIn l) m = l := by
  refine sortFreq_unique hp ((hd.and (pairwise_rankIn hn)).imp fun ⟨hcount, hrank⟩ => ?_)
  rw [ne_eq, freqBefore_iff, freqBefore_iff]
  omega

/-- Settles O35: the key for a permitted order is the symbols' places in it. -/
theorem oracleCoversEveryTieOrder : Obligations.OracleCoversEveryTieOrder := by
  unfold Obligations.OracleCoversEveryTieOrder
  refine fun CHAR _ text => ⟨fun key => ⟨sortedFreq_perm key text, sortedFreq_descending key text⟩, fun l hl hd => ?_⟩
  have hn : (l.map (·.1)).Nodup := by
    rw [(hl.map _).nodup_iff, freqScan_symbols]
    exact nodup_firstOccurrences text
  exact ⟨rankIn l, sortFreq_rankIn hl hn hd⟩

end Sys2Proof.Machine
end

section
/-! The Huffman strategy (spec 42_codetable.md R95 to R98, R106), and what both strategies' tables hold (R88, R89). -/

namespace Sys2Proof.Machine

variable {CHAR : Type}

/-! ### Merging (R95, R96) -/

/-- R96's merge on a descending list: where the new node goes. -/
theorem mergeStep_split {l : List (HuffNode CHAR)} (h : l.Pairwise fun a b => nodeFreq b ≤ nodeFreq a)
    (x y : HuffNode CHAR) {f : Nat} (hf : f = nodeFreq x + nodeFreq y) :
    ∃ before after, l = before ++ after ∧ (∀ n ∈ before, f < nodeFreq n) ∧ (∀ n ∈ after, nodeFreq n ≤ f) ∧
      mergeStep (l ++ [x, y]) = before ++ HuffNode.inner f x y :: after := by
  subst hf
  rw [mergeStep_concat]
  exact insertNode_split (m := .inner _ x y) h

section Table

variable [DecidableEq CHAR] {key : CHAR → Nat} {text : Text CHAR}

theorem sum_startNodes (key : CHAR → Nat) (text : Text CHAR) :
    ((startNodes key text).map nodeFreq).sum = text.length :=
  calc ((startNodes key text).map nodeFreq).sum
      _ = ((sortedFreq key text).map (·.2)).sum := by rw [startNodes, List.map_map]; rfl
      _ = ((freqScan text).map (·.2)).sum := ((sortedFreq_perm key text).map _).sum_eq
      _ = text.length := sum_freqScan text

theorem startNodes_ne_nil (h : text ≠ []) : startNodes key text ≠ [] := by
  intro hstart
  have hsum := sum_startNodes key text
  rw [hstart] at hsum
  exact h (List.length_eq_zero_iff.mp hsum.symm)

/-- R96: merging ends in a root that counts every position of the text. -/
theorem exists_root (h : text ≠ []) :
    ∃ root, mergeAll (startNodes key text).length (startNodes key text) = [root] ∧ nodeFreq root = text.length := by
  obtain ⟨root, hroot, -⟩ := mergeAll_root (startNodes_ne_nil (key := key) h) le_rfl
  have hsum := mergeAll_freq (startNodes key text).length (startNodes key text)
  rw [hroot, sum_startNodes, List.map_singleton, List.sum_singleton] at hsum
  exact ⟨root, hroot, hsum⟩

/-! ### The table of a root (R97, R98) -/

theorem huffmanTable_of_root {root : HuffNode CHAR}
    (h : mergeAll (startNodes key text).length (startNodes key text) = [root]) :
    huffmanTable key text = { codeWidth := none, entries := treeEntries root } := by
  simp only [huffmanTable, h]

theorem huffmanTable_nil (key : CHAR → Nat) : huffmanTable key [] = { codeWidth := none, entries := [] } := rfl

theorem huffmanTable_of_one {c : CHAR} {n : Nat} (h : sortedFreq key text = [(c, n)]) :
    huffmanTable key text = { codeWidth := none, entries := [(c, { size := 1, rep := [false] })] } :=
  huffmanTable_of_root (root := .leaf c n) (by rw [startNodes, h]; rfl)

/-- Two leaves are merged once, the first as the 0-child. -/
theorem huffmanTable_of_two {a b : CHAR} {m n : Nat} (h : sortedFreq key text = [(a, m), (b, n)]) :
    huffmanTable key text =
      { codeWidth := none, entries := [(a, { size := 1, rep := [false] }), (b, { size := 1, rep := [true] })] } :=
  huffmanTable_of_root (root := .inner (m + n) (.leaf a m) (.leaf b n)) (by rw [startNodes, h]; rfl)

/-- A text of one character has a frequency list of one entry. -/
theorem exists_sortedFreq_of_one {c : CHAR} (h : text ≠ []) (hc : ∀ x ∈ text, x = c) :
    ∃ n, sortedFreq key text = [(c, n)] := by
  have hmem (x : CHAR) : x ∈ (sortedFreq key text).map (·.1) ↔ x ∈ [c] := by
    rw [mem_sortedFreq_symbols, List.mem_singleton]
    refine ⟨hc x, ?_⟩
    rintro rfl
    obtain ⟨y, hy⟩ := List.exists_mem_of_ne_nil text h
    exact hc y hy ▸ hy
  have hsymbols : (sortedFreq key text).map (·.1) = [c] := by
    rw [← List.perm_singleton]
    exact (List.perm_ext_iff_of_nodup (nodup_sortedFreq_symbols key text) (List.nodup_singleton c)).mpr hmem
  obtain ⟨⟨_, n⟩, hl, rfl⟩ := List.map_eq_singleton_iff.mp hsymbols
  exact ⟨n, hl⟩

end Table

/-- Settles O37: the merge, the loop and the paths turn by turn, and the tables by their roots. -/
theorem huffmanTreeIsMergedAsWritten : Obligations.HuffmanTreeIsMergedAsWritten := by
  unfold Obligations.HuffmanTreeIsMergedAsWritten
  refine ⟨fun CHAR l x y f hl hf => mergeStep_split hl x y hf,
    fun CHAR l n => ⟨fun h => mergeAll_step h n, fun h => mergeAll_end h n⟩, fun CHAR c f z o p => ⟨rfl, rfl⟩, ?table⟩
  rintro CHAR _ key text _ rfl
  refine ⟨rfl, exists_root, fun f z o hroot => ?inner, ?empty, fun c hne hc => ?one, fun a b m n => huffmanTable_of_two⟩
  case inner => rw [huffmanTable_of_root hroot, treeEntries_inner]
  case empty =>
    rintro rfl
    exact huffmanTable_nil key
  case one =>
    obtain ⟨n, hn⟩ := exists_sortedFreq_of_one (key := key) hne hc
    exact huffmanTable_of_one hn

/-! ### No code begins another (R106) -/

/-- Neither entry's code begins the other's. -/
def CodesApart (e f : CHAR × BitVector) : Prop := ¬ e.2.rep <+: f.2.rep ∧ ¬ f.2.rep <+: e.2.rep

theorem codesApart_symm : Std.Symm (CodesApart (CHAR := CHAR)) := ⟨fun _ _ => And.symm⟩

theorem huffmanTable_prefixFree [DecidableEq CHAR] (key : CHAR → Nat) (text : Text CHAR) :
    (huffmanTable key text).entries.Pairwise CodesApart := by
  obtain ⟨-, htable⟩ | ⟨root, htable, -⟩ := huffmanTable_cases key text <;> rw [htable]
  · exact List.Pairwise.nil
  · exact treeEntries_prefixFree root

theorem beginsWith_iff_prefix {p b : Bits} : BeginsWith p b ↔ p <+: b :=
  exists_congr fun _ => eq_comm

/-- Settles O38: the codes are the paths to the leaves of one tree. -/
theorem huffmanCodesArePrefixFree : Obligations.HuffmanCodesArePrefixFree := by
  unfold Obligations.HuffmanCodesArePrefixFree
  intro CHAR _ key text a b x y hx hy
  refine ⟨(length_of_mem_huffmanTable hx).1, fun hab => ?_⟩
  have hne : (a, x) ≠ (b, y) := fun h => hab (congrArg Prod.fst h)
  rw [beginsWith_iff_prefix]
  have := codesApart_symm (CHAR := CHAR)
  exact ((huffmanTable_prefixFree key text).forall hx hy hne).1

/-! ### The entries of built tables (R88, R89) -/

section Built

variable [DecidableEq CHAR]

/-- A table over the distinct characters has as many entries as there are of them. -/
theorem length_of_symbols_perm {l : List (CHAR × BitVector)} {text : Text CHAR}
    (h : (l.map (·.1)).Perm (firstOccurrences text)) : l.length = text.dedup.length := by
  rw [← List.length_map (·.1), (h.trans (firstOccurrences_perm_dedup text)).length_eq]

theorem fixedWidthTable_symbols_perm (key : CHAR → Nat) (text : Text CHAR) :
    ((fixedWidthTable key text).entries.map (·.1)).Perm (firstOccurrences text) := by
  rw [fixedWidthTable_symbols, ← freqScan_symbols]
  exact (sortedFreq_perm key text).map _

theorem codeWidth_huffmanTable (key : CHAR → Nat) (text : Text CHAR) : (huffmanTable key text).codeWidth = none := by
  obtain ⟨-, htable⟩ | ⟨root, htable, -⟩ := huffmanTable_cases key text <;> rw [htable]

end Built

/-- Settles O39: the symbols of both tables are the first occurrences, in some order. -/
theorem builtTablesHoldTheTextsSymbols : Obligations.BuiltTablesHoldTheTextsSymbols := by
  unfold Obligations.BuiltTablesHoldTheTextsSymbols
  exact fun CHAR _ key text => ⟨tableLegal_fixedWidthTable key text, tableLegal_huffmanTable key text,
    fun _ => hasSymbol_fixedWidthTable, fun _ => hasSymbol_huffmanTable,
    length_of_symbols_perm (fixedWidthTable_symbols_perm key text),
    length_of_symbols_perm (huffmanTable_symbols key text), by rw [codeWidth_fixedWidthTable]; rfl,
    codeWidth_huffmanTable key text⟩

end Sys2Proof.Machine
end

section
/-! Parsing a table text (spec 42_codetable.md R104, R106): the size line, the entry lines, and what a saved table is read
back as. -/

namespace Sys2Proof.Machine

variable {CHAR : Type} {C : CharSet CHAR}

section Parsing

variable [DecidableEq CHAR]

/-! ### The size line (R104) -/

theorem parseSize_error {d : Text CHAR} (h : d = [] ∨ ∃ c ∈ d, isDecDigit C c = false) :
    parseSize C d = .error .corruptCodeTable := by
  refine if_neg fun ⟨hne, hall⟩ => ?_
  obtain hnil | ⟨c, hc, hbad⟩ := h
  · exact hne hnil
  · rw [List.all_eq_true.mp hall c hc] at hbad
    cases hbad

theorem parseSize_ok {d : Text CHAR} (hne : d ≠ []) (h : ∀ c ∈ d, isDecDigit C c = true) :
    parseSize C d = .ok (decValue C d) :=
  if_pos ⟨hne, List.all_eq_true.mpr h⟩

theorem deserialize_of_no_lines {t : Text CHAR} (h : tableLines C t = []) :
    deserialize C t = .ok { codeWidth := none, entries := [] } := by
  rw [deserialize, h]

/-- A first line that begins with the mark gives the width, or its error; then the other lines are entries. -/
theorem deserialize_of_size_line {t d : Text CHAR} {lines : List (Text CHAR)}
    (h : tableLines C t = (sizeMark C ++ d) :: lines) :
    deserialize C t = (parseSize C d).bind fun w =>
      (parseEntries C [] lines).map fun e => { codeWidth := some w, entries := e } := by
  rw [deserialize, h]
  dsimp only
  rw [if_pos (List.isPrefixOf_iff_prefix.mpr (List.prefix_append _ _)), List.drop_left]
  rfl

theorem deserialize_of_size_line_ok {t d : Text CHAR} {w : Nat} {lines : List (Text CHAR)}
    (h : tableLines C t = (sizeMark C ++ d) :: lines) (hd : parseSize C d = .ok w) :
    deserialize C t = (parseEntries C [] lines).map fun e => { codeWidth := some w, entries := e } := by
  rw [deserialize_of_size_line h, hd]
  rfl

theorem deserialize_of_size_line_error {t d : Text CHAR} {e : ErrorCode} {lines : List (Text CHAR)}
    (h : tableLines C t = (sizeMark C ++ d) :: lines) (hd : parseSize C d = .error e) : deserialize C t = .error e := by
  rw [deserialize_of_size_line h, hd]
  rfl

/-- Without the mark the first line is an entry like the others. -/
theorem deserialize_of_entry_line {t line : Text CHAR} {lines : List (Text CHAR)} (h : tableLines C t = line :: lines)
    (hmark : ∀ d, line ≠ sizeMark C ++ d) :
    deserialize C t = (parseEntries C [] (line :: lines)).map fun e => { codeWidth := none, entries := e } := by
  have hno : ¬ (sizeMark C).isPrefixOf line = true := by
    rw [List.isPrefixOf_iff_prefix]
    rintro ⟨d, hd⟩
    exact hmark d hd.symm
  rw [deserialize, h]
  dsimp only
  rw [if_neg hno]
  rfl

/-! ### The entry lines (R104) -/

theorem parseEntries_nil (e : List (CHAR × BitVector)) : parseEntries C e [] = .ok e := rfl

/-- A line with no separator at position 1. -/
theorem parseEntries_of_no_separator {ln : Text CHAR} (h : ln.length < 2 ∨ ln[1]? ≠ some C.colon)
    (e : List (CHAR × BitVector)) (lines : List (Text CHAR)) :
    parseEntries C e (ln :: lines) = .error .corruptCodeTable := by
  match ln, h with
  | [], _ => rfl
  | [_], _ => rfl
  | c :: sep :: s, h =>
    have hsep : sep ≠ C.colon := by simpa using h
    rw [parseEntries, if_pos hsep]

/-- A line with its separator: a symbol already seen, or else its code decides. -/
theorem parseEntries_of_separator (e : List (CHAR × BitVector)) (c : CHAR) (s : Text CHAR) (lines : List (Text CHAR)) :
    parseEntries C e ((c :: C.colon :: s) :: lines) =
      if c ∈ e.map (·.1) then .error .corruptCodeTable
      else (bvFromString C s.length s).bind fun x => parseEntries C (e ++ [(c, x)]) lines := by
  have hseen : (e.any fun x => decide (x.1 = c)) = true ↔ c ∈ e.map (·.1) := by
    simp only [List.any_eq_true, decide_eq_true_eq, List.mem_map]
  rw [parseEntries, if_neg (by simp)]
  simp only [hseen]
  cases bvFromString C s.length s <;> rfl

theorem parseEntries_of_duplicate {e : List (CHAR × BitVector)} {c : CHAR} (h : c ∈ e.map (·.1)) (s : Text CHAR)
    (lines : List (Text CHAR)) : parseEntries C e ((c :: C.colon :: s) :: lines) = .error .corruptCodeTable := by
  rw [parseEntries_of_separator, if_pos h]

theorem parseEntries_of_malformed {e : List (CHAR × BitVector)} {c : CHAR} {s : Text CHAR} (h : c ∉ e.map (·.1))
    (hs : ∃ d ∈ s, d ≠ C.digit 0 ∧ d ≠ C.digit 1) (lines : List (Text CHAR)) :
    parseEntries C e ((c :: C.colon :: s) :: lines) = .error .malformedBitLiteral := by
  rw [parseEntries_of_separator, if_neg h, bvFromString_error hs]
  rfl

/-- A good line appends its entry; the code is as long as its literal, so nothing is padded. -/
theorem parseEntries_of_entry {e : List (CHAR × BitVector)} {c : CHAR} {s : Text CHAR} (h : c ∉ e.map (·.1))
    (hs : ∀ d ∈ s, d = C.digit 0 ∨ d = C.digit 1) (lines : List (Text CHAR)) :
    parseEntries C e ((c :: C.colon :: s) :: lines) =
      parseEntries C (e ++ [(c, { size := s.length, rep := bitsOfChars C s })]) lines := by
  rw [parseEntries_of_separator, if_neg h, bvFromString_ok hs, bvOfBits, pad_of_length_le (length_bitsOfChars s).ge]
  rfl

end Parsing

/-- Settles O44: the lines, the size line and each kind of entry line. -/
theorem deserializeReadsLineByLine : Obligations.DeserializeReadsLineByLine := by
  unfold Obligations.DeserializeReadsLineByLine
  intro CHAR _ C
  refine ⟨fun lines h => ⟨tableLines_of_lines h, fun l => tableLines_of_lines_append h⟩,
    fun t => deserialize_of_no_lines, fun t line lines h => ⟨?size, deserialize_of_entry_line h⟩, parseEntries_nil,
    fun e ln lines => ⟨fun h => parseEntries_of_no_separator h e lines, ?entry⟩⟩
  case size =>
    rintro d rfl
    exact ⟨fun hbad => deserialize_of_size_line_error h (parseSize_error hbad),
      fun hne hgood => deserialize_of_size_line_ok h (parseSize_ok hne hgood)⟩
  case entry =>
    rintro c s rfl
    exact ⟨fun h => parseEntries_of_duplicate h s lines, fun h hs => parseEntries_of_malformed h hs lines,
      fun h hs => parseEntries_of_entry h hs lines⟩

/-! ### Saved tables (R106) -/

/-- An entry's line without its newline (R58). -/
def entryText (C : CharSet CHAR) (e : CHAR × BitVector) : Text CHAR := e.1 :: C.colon :: chars C e.2.rep

theorem flatMap_entryLine (l : List (CHAR × BitVector)) :
    l.flatMap (entryLine C) = (l.map (entryText C)).flatMap (· ++ [C.newline]) := by
  rw [List.flatMap_map]
  rfl

/-- An entry line is no size line: its second character is the separator, and the mark's is a letter. -/
theorem entryText_ne_sizeMark (e : CHAR × BitVector) (d : Text CHAR) : entryText C e ≠ sizeMark C ++ d := by
  intro h
  have hsecond : C.colon = C.letterI := by
    rw [entryText, sizeMark] at h
    injection h with _ h
    injection h
  have hmarks := C.marks_nodup
  simp [hsecond] at hmarks

theorem newline_not_mem_entryText {e : CHAR × BitVector} (h : e.1 ≠ C.newline) : C.newline ∉ entryText C e := by
  simp only [entryText, List.mem_cons, not_or]
  exact ⟨h.symm, C.colon_ne_newline.symm, newline_not_mem_chars _⟩

theorem newline_not_mem_entryTexts {l : List (CHAR × BitVector)} (h : ∀ e ∈ l, e.1 ≠ C.newline) :
    ∀ ln ∈ l.map (entryText C), C.newline ∉ ln := by
  intro ln hln
  obtain ⟨e, he, rfl⟩ := List.mem_map.mp hln
  exact newline_not_mem_entryText (h e he)

theorem newline_not_mem_sizeLine [DecidableEq CHAR] (w : Nat) : C.newline ∉ sizeMark C ++ dec C w := by
  rw [List.mem_append, not_or]
  exact ⟨newline_not_mem_sizeMark, newline_not_mem_dec w⟩

/-- The lines of a saved table without a declared width are its entries'. -/
theorem tableLines_serialize_of_no_codeWidth [DecidableEq CHAR] {t : CodeTable CHAR} (hw : t.codeWidth = none)
    (h : ∀ e ∈ t.entries, e.1 ≠ C.newline) : tableLines C (serialize C t) = t.entries.map (entryText C) := by
  rw [serialize_of_no_codeWidth hw, flatMap_entryLine]
  exact tableLines_of_lines (newline_not_mem_entryTexts h)

/-- With a declared width the size line stands before them. -/
theorem tableLines_serialize_of_codeWidth [DecidableEq CHAR] {t : CodeTable CHAR} {w : Nat} (hw : t.codeWidth = some w)
    (h : ∀ e ∈ t.entries, e.1 ≠ C.newline) :
    tableLines C (serialize C t) = (sizeMark C ++ dec C w) :: t.entries.map (entryText C) := by
  rw [serialize_of_codeWidth hw, flatMap_entryLine, ← List.flatMap_cons (f := (· ++ [C.newline]))]
  exact tableLines_of_lines (List.forall_mem_cons.mpr ⟨newline_not_mem_sizeLine w, newline_not_mem_entryTexts h⟩)

/-- Settles O45: the saved lines are the size line, if there is one, and the entry lines, and these parse back. -/
theorem loadInvertsSave : Obligations.LoadInvertsSave := by
  unfold Obligations.LoadInvertsSave
  intro CHAR _ C t hn hnl
  have hentries := parseEntries_of_entries (C := C) (e := []) (l := t.entries) hn
  cases hw : t.codeWidth with
  | some w =>
    rw [deserialize_of_size_line_ok (tableLines_serialize_of_codeWidth hw hnl) (parseSize_dec w)]
    exact congrArg (Except.map _) hentries
  | none =>
    have hlines := tableLines_serialize_of_no_codeWidth (C := C) hw hnl
    cases ht : t.entries with
    | nil => rw [deserialize_of_no_lines (by rw [hlines, ht]; rfl)]; rfl
    | cons e l =>
      rw [ht] at hlines hentries
      rw [deserialize_of_entry_line hlines (entryText_ne_sizeMark e)]
      exact congrArg (Except.map _) hentries

end Sys2Proof.Machine
end

section
/-! The table codecs' round trips (spec 43_fixedwidth.md R111, 44_huffman.md R116): each decoder reads one code after
another off the joined codes. -/

namespace Sys2Proof.Machine

variable {CHAR : Type}

/-! ### The fixed-width codec (R111) -/

/-- A chunk at the front of the payload that is a symbol's code is read as that symbol. -/
theorem fwDecode_append {t : CodeTable CHAR} {a : Bits} {c : CHAR} (ha : a.length = max (width t) 1)
    (hc : invBits t a = some c) (b : Bits) : fwDecode t (a ++ b) = c :: fwDecode t b := by
  have hne : a ++ b ≠ [] := by
    refine List.append_ne_nil_of_left_ne_nil (List.length_pos_iff.mp ?_) b
    omega
  rw [fwDecode_of_ne_nil t hne, List.take_left' ha, List.drop_left' ha, hc, Option.toList_some, List.singleton_append]

/-- Codes of the chunk width that lead back to their symbols decode to the text. -/
theorem fwDecode_flatMap_codeRep [DecidableEq CHAR] {t : CodeTable CHAR} {text : Text CHAR}
    (hlen : ∀ c ∈ text, (codeRep t c).length = max (width t) 1) (hinv : ∀ c ∈ text, invBits t (codeRep t c) = some c) :
    fwDecode t (text.flatMap (codeRep t)) = text := by
  induction text with
  | nil => rfl
  | cons c text ih =>
    rw [List.flatMap_cons, fwDecode_append (hlen c List.mem_cons_self) (hinv c List.mem_cons_self),
      ih (fun x hx => hlen x (List.mem_cons_of_mem _ hx)) fun x hx => hinv x (List.mem_cons_of_mem _ hx)]

/-- Where symbols and codes are all distinct, a symbol's code leads back to it. -/
theorem invBits_codeRep [DecidableEq CHAR] {t : CodeTable CHAR} (hs : (t.entries.map (·.1)).Nodup)
    (hr : (t.entries.map (fun e => e.2.rep)).Nodup) {c : CHAR} (h : hasSymbol t c = true) :
    invBits t (codeRep t c) = some c := by
  obtain ⟨x, hx, -, hrep⟩ := entry_of_hasSymbol hs h
  rw [hrep]
  exact invBits_of_mem hr hx

/-- Settles O52: every code of the table is one chunk, and leads back to its symbol. -/
theorem fixedWidthRoundTrip : Obligations.FixedWidthRoundTrip := by
  unfold Obligations.FixedWidthRoundTrip
  refine fun CHAR _ key s => ⟨fun _ => hasSymbol_fixedWidthTable.mpr,
    fun text htext => ⟨_, _, encodeConcat_of_known htext, unpack_pack _, fwDecode_flatMap_codeRep ?chunk ?back⟩⟩
  case chunk =>
    intro c hc
    obtain ⟨i, -, hi⟩ := codeRep_fixedWidthTable (htext c hc)
    rw [hi, length_bitsOf]
  case back =>
    exact fun c hc => invBits_codeRep (nodup_fixedWidthTable_symbols key s) (nodup_fixedWidthTable_reps key s)
      (htext c hc)

/-! ### The Huffman codec (R116) -/

/-- The code of a symbol at the front of the payload is read as that symbol. -/
theorem hufDecode_append {t : CodeTable CHAR} {a : Bits} {c : CHAR} {b : Bits}
    (h : shortestCode t (a ++ b) = some (c, a.length)) : hufDecode t (a ++ b) = c :: hufDecode t b := by
  rw [hufDecode_of_shortestCode_eq_some h, List.drop_left]

/-- Where no code is empty and none begins another, the codes of a text decode to the text. -/
theorem hufDecode_flatMap_codeRep [DecidableEq CHAR] {t : CodeTable CHAR} {text : Text CHAR} (hs : (t.entries.map (·.1)).Nodup)
    (hfree : t.entries.Pairwise CodesApart) (hlen : ∀ e ∈ t.entries, 1 ≤ e.2.rep.length)
    (htext : ∀ c ∈ text, hasSymbol t c = true) : hufDecode t (text.flatMap (codeRep t)) = text := by
  induction text with
  | nil => rfl
  | cons c text ih =>
    obtain ⟨x, hx, -, hrep⟩ := entry_of_hasSymbol hs (htext c List.mem_cons_self)
    rw [List.flatMap_cons, hrep, hufDecode_append (shortestCode_of_prefixFree hfree hx (hlen _ hx) _),
      ih fun y hy => htext y (List.mem_cons_of_mem _ hy)]

/-- Settles O53: no code of the table is empty, and none begins another. -/
theorem huffmanRoundTrip : Obligations.HuffmanRoundTrip := by
  unfold Obligations.HuffmanRoundTrip
  exact fun CHAR _ key s => ⟨fun _ => hasSymbol_huffmanTable.mpr,
    fun text htext => ⟨_, _, encodeConcat_of_known htext, unpack_pack _,
      hufDecode_flatMap_codeRep (nodup_huffmanTable_symbols key s) (huffmanTable_prefixFree key s)
        (fun _ he => (length_of_mem_huffmanTable he).1) htext⟩⟩

end Sys2Proof.Machine
end

section
/-! The laws of the LZW engines (spec 45_lzw.md R124 to R127): which payloads fail, that built seeds' codes fit, lockstep and
where it fails, and the round trip. -/

namespace Sys2Proof.Machine

variable {CHAR : Type}

/-! ### The one failure (R124, R137) -/

/-- After a known first code there is a conjecture, and no later step fails. -/
theorem exists_lzwSteps_of_known {t : CodeTable CHAR} {b : Bits} (hle : effWidth (width t) ≤ b.length)
    (hknown : (invNum t).lookup (val (b.take (effWidth (width t)))) ≠ none) : ∃ reads, lzwSteps t b = .ok reads := by
  obtain ⟨o, ho, hne⟩ := lzwOutput_ok (noEmptyEntry_invNum t) (conj := []) (.inr hknown)
  obtain ⟨reads, hreads⟩ := lzwReads_ok (noEmptyEntry_invNum t) hne (b.drop (effWidth (width t)))
  exact ⟨_, by rw [lzwSteps, lzwReads_step_nil hle ho, hreads]; rfl⟩

/-- R124: a payload fails exactly if it has a first code, and the seed does not have that code. -/
theorem lzwSteps_eq_error_iff {t : CodeTable CHAR} {b : Bits} {e : ErrorCode} : lzwSteps t b = .error e ↔
    e = .unrepresentableCode ∧ effWidth (width t) ≤ b.length ∧
      (invNum t).lookup (val (b.take (effWidth (width t)))) = none := by
  constructor
  · intro h
    have hle : effWidth (width t) ≤ b.length := by
      by_contra hlt
      rw [lzwSteps, lzwReads_end (not_le.mp hlt)] at h
      cases h
    refine ⟨lzwReads_eq_error h, hle, ?_⟩
    by_contra hknown
    obtain ⟨reads, hreads⟩ := exists_lzwSteps_of_known hle hknown
    cases hreads.symm.trans h
  · rintro ⟨rfl, hle, hnone⟩
    exact lzwReads_fails hle (lzwOutput_of_unknown_nil hnone) (tableSize t)

theorem lzwDecode_eq_error_iff {t : CodeTable CHAR} {b : Bits} {e : ErrorCode} :
    lzwDecode t b = .error e ↔ lzwSteps t b = .error e := by
  rw [lzwDecode]
  cases lzwSteps t b <;> simp

/-- Settles O56: the steps fail at the first code or not at all. -/
theorem onlyTheFirstCodeCanBeUnrepresentable : Obligations.OnlyTheFirstCodeCanBeUnrepresentable := by
  unfold Obligations.OnlyTheFirstCodeCanBeUnrepresentable
  intro CHAR t b e
  rw [lzwDecode_eq_error_iff, lzwSteps_eq_error_iff, invNum_lookup_eq_none]
  rfl

/-! ### Widths and lockstep (R125, R126) -/

section Codes

variable [DecidableEq CHAR] {t : CodeTable CHAR} {text : Text CHAR} {codes : List (Nat × Nat)}

/-- Codes come from no text or from the scan of a text that starts with a symbol of the seed. -/
theorem lzwCodes_eq_ok (h : lzwCodes t text = .ok codes) :
    (text = [] ∧ codes = []) ∨
      ∃ c rest, text = c :: rest ∧ lzwScan (seedDict t) (tableSize t) (width t) [c] rest = .ok codes := by
  unfold lzwCodes at h
  split at h
  · cases text with
    | nil => exact .inl ⟨rfl, (Except.ok.inj h).symm⟩
    | cons c rest => exact .inr ⟨c, rest, rfl, h⟩
  · cases h

/-- R125: the widths are at least 1 and never decrease. -/
theorem lzwCodes_widths (h : lzwCodes t text = .ok codes) :
    (∀ p ∈ codes, 1 ≤ p.2) ∧ (codes.map (·.2)).Pairwise (· ≤ ·) := by
  obtain ⟨rfl, rfl⟩ | ⟨c, rest, rfl, hscan⟩ := lzwCodes_eq_ok h
  · exact ⟨nofun, List.Pairwise.nil⟩
  · obtain ⟨hfirst, hmono⟩ := lzwScan_widths hscan
    exact ⟨fun p hp => (one_le_effWidth _).trans (hfirst p hp), hmono⟩

/-- R126: on a built seed the code numbers stay below the counter, which fits the width. -/
theorem lzwCodes_fixedWidthTable_fit {key : CHAR → Nat} {s : Text CHAR}
    (h : lzwCodes (fixedWidthTable key s) text = .ok codes) : ∀ p ∈ codes, p.1 < 2 ^ p.2 := by
  obtain ⟨rfl, rfl⟩ | ⟨c, rest, rfl, hscan⟩ := lzwCodes_eq_ok h
  · exact nofun
  · exact lzwScan_fits (LzwSync.fixedWidthTable key s c).below (fixedWidthTable_fits key s) hscan

end Codes

/-- R75: a code that fits is rendered at exactly its width. -/
theorem length_codeBits {e k : Nat} (he : 1 ≤ e) (hk : k < 2 ^ e) : (codeBits e k).length = e := by
  rw [codeBits_eq he hk, length_bitsOf]

/-- Settles O57: a code that fits its width, which is at least 1, takes exactly that width. -/
theorem lzwCodesFitTheirWidths : Obligations.LzwCodesFitTheirWidths := by
  unfold Obligations.LzwCodesFitTheirWidths
  intro CHAR _ key s text codes h p hp
  have hfit := lzwCodes_fixedWidthTable_fit h p hp
  exact ⟨hfit, length_codeBits ((lzwCodes_widths h).1 p hp) hfit⟩

/-- Settles O58: where the codes fit, the decoder reads them back; on a built seed they fit. -/
theorem lzwEngineWidthsAreInLockstep : Obligations.LzwEngineWidthsAreInLockstep := by
  unfold Obligations.LzwEngineWidthsAreInLockstep
  exact ⟨fun CHAR _ t text codes h => ⟨(lzwCodes_widths h).2, lzwSteps_of_lzwCodes h⟩,
    fun CHAR _ key s text codes h => lzwSteps_of_lzwCodes h (lzwCodes_fixedWidthTable_fit h)⟩

/-! ### Where lockstep fails (R75, R118 to R122; notes/assumptions/13.md) -/

/-- A loaded table of width 0 in which the code of `a` has two bits, the first of which is the code of `b`. -/
def overwideTable : CodeTable :=
  { codeWidth := some 0, entries := [('a', { size := 2, rep := [true, true] }), ('b', { size := 1, rep := [true] })] }

/-- Settles O59: the one code of `a` is emitted at width 1 in two bits, which the decoder reads as `b` twice. -/
theorem lzwLockstepFailsForForeignTables : Obligations.LzwLockstepFailsForForeignTables := by
  unfold Obligations.LzwLockstepFailsForForeignTables
  exact ⟨overwideTable, ['a'], [(3, 1)], [⟨1, 1, ['b']⟩, ⟨1, 1, ['b']⟩], by decide, by decide, by decide, by decide⟩

/-! ### The round trip (R127) -/

/-- On a built seed the decoder's outputs on the encoder's codes join to the text. -/
theorem lzwDecode_of_lzwCodes [DecidableEq CHAR] {key : CHAR → Nat} {s text : Text CHAR} {codes : List (Nat × Nat)}
    (h : lzwCodes (fixedWidthTable key s) text = .ok codes) :
    lzwDecode (fixedWidthTable key s) (codes.flatMap fun p => codeBits p.2 p.1) = .ok text := by
  obtain ⟨rfl, rfl⟩ | ⟨c, rest, rfl, hscan⟩ := lzwCodes_eq_ok h
  · rfl
  · obtain ⟨reads, hreads, -, houtput⟩ :=
      lzwReads_of_lzwScan (LzwSync.fixedWidthTable key s c) (fixedWidthTable_fits key s) hscan
    rw [lzwDecode_eq_map, lzwSteps, hreads]
    exact congrArg Except.ok houtput

/-- Settles O60: a text over the seed's symbols has codes, and these decode to it. -/
theorem lzwRoundTrip : Obligations.LzwRoundTrip := by
  unfold Obligations.LzwRoundTrip
  refine fun CHAR _ key s => ⟨fun _ => hasSymbol_fixedWidthTable.mpr, fun text htext => ?_⟩
  obtain ⟨codes, hcodes⟩ := lzwCodes_ok htext
  exact ⟨_, _, lzwEncode_of_codes hcodes, unpack_pack _, lzwDecode_of_lzwCodes hcodes⟩

end Sys2Proof.Machine
end
